-- ==== Sys2Proof/Word.lean ====
section
/-! DEFINITION. The word types of HUFFCODEC (spec/00_scope.md R8, R9, R11, R12): every field, counter and index is unsigned. -/

namespace Sys2Proof

/-- A command word or a register value: 32 bits (R9: CMDW, REGW). -/
abbrev Word := BitVec 32

/-- One byte of EOUT, or one bus byte lane. -/
abbrev Byte := BitVec 8

/-- A symbol, "one raw byte value (0–255)" (R8). -/
abbrev Symbol := BitVec 8

/-- A node table index: 9 bits (R9: NNODES = 512). -/
abbrev NodeIdx := BitVec 9

/-- A bit string (R12): the first bit is the head of the list. -/
abbrev Bits := List Bool

end Sys2Proof
end

