-- ==== Sys2Proof/Config.lean ====
section
/-! DEFINITION. What is fixed for the block (spec/00_scope.md R9), and the free values of the spec: the draws of spec/10_state.md R47. -/

namespace Sys2Proof.Config

/-- NSYM: codebook entries (R9). -/
def nsym : Nat := 256

/-- MAXLEN: the longest code (R9). -/
def maxLen : Nat := 255

/-- Bits of one code chunk, and chunks of one entry: CODEW = 256 = 16 · 16 (R9). -/
def chunkBits : Nat := 16

/-- Chunks of one codebook entry (R9). -/
def chunks : Nat := 16

/-- NNODES: node table entries (R9). -/
def nnodes : Nat := 512

/-- BITSMAX: the most bits one DEC_BITS consumes (R9). -/
def bitsMax : Nat := 16

/-- FREE VALUE (R47; log 3): the 16 code bits that chunk `key` of the codebook RAM (`16 · symbol + chunk`) holds while no
command has written them since the reset that opened epoch `epoch`. -/
opaque codeDraw (epoch key : Nat) : BitVec 16

/-- FREE VALUE (R47; log 3): `node[idx].left` while no command has written it since the reset that opened `epoch`. -/
opaque leftDraw (epoch idx : Nat) : NodeIdx

/-- FREE VALUE (R47; log 3): `node[idx].right` while no command has written it since the reset that opened `epoch`. -/
opaque rightDraw (epoch idx : Nat) : NodeIdx

/-- FREE VALUE (R47; log 3): `node[idx].sym` while no command has written it since the reset that opened `epoch`. -/
opaque symDraw (epoch idx : Nat) : Symbol

end Sys2Proof.Config
end

