-- ==== Sys2Proof/Syntax.lean ====
section
/-! DEFINITION. The sixteen commands of HUFFCODEC (spec/30_encoding.md R91, R92, R96; spec/opcode_table.json), one constructor a row. -/

namespace Sys2Proof

/-- A command with its operands. Each operand is the unsigned field of R92, at its own width. The count of `decBits` is the
count n = NM1 + 1 itself (R93, R95), so that it can be ill-formed: see `Instr.wf`. -/
inductive Instr where
  /-- ctl.nop (R121). -/
  | ctlNop
  /-- ctl.clrill (R122). -/
  | ctlClrill
  /-- ctl.srst (R123). -/
  | ctlSrst
  /-- enc.clr (R133). -/
  | encClr
  /-- enc.ldcode sym, chunk, data (R134). -/
  | encLdcode (sym : Symbol) (chunk : BitVec 4) (data : BitVec 16)
  /-- enc.setlen sym, len (R135). -/
  | encSetlen (sym : Symbol) (len : BitVec 8)
  /-- enc.start (R136). -/
  | encStart
  /-- enc.sym sym (R138). -/
  | encSym (sym : Symbol)
  /-- enc.flush (R141). -/
  | encFlush
  /-- dec.clr (R163). -/
  | decClr
  /-- dec.ldint idx, left, right (R164). -/
  | decLdint (idx left right : NodeIdx)
  /-- dec.ldleaf idx, sym (R165). -/
  | decLdleaf (idx : NodeIdx) (sym : Symbol)
  /-- dec.setroot idx (R166). -/
  | decSetroot (idx : NodeIdx)
  /-- dec.start (R167). -/
  | decStart
  /-- dec.bits n, data (R170). -/
  | decBits (n : Nat) (data : BitVec 16)
  /-- dec.end (R174). -/
  | decEnd
  deriving DecidableEq, Repr

end Sys2Proof
end

