-- ==== Sys2Proof/WellFormed.lean ====
section
/-! DEFINITION. Which commands can be encoded (spec/30_encoding.md R93, R102). -/

namespace Sys2Proof

/-- The field widths of `Instr` hold every operand in range but one: the count of dec.bits, "with 1 ≤ n ≤ 16" (R102), of
which "a count of 0 cannot be encoded" (R93). -/
def Instr.wf : Instr → Bool
  | .ctlNop => true
  | .ctlClrill => true
  | .ctlSrst => true
  | .encClr => true
  | .encLdcode _ _ _ => true
  | .encSetlen _ _ => true
  | .encStart => true
  | .encSym _ => true
  | .encFlush => true
  | .decClr => true
  | .decLdint _ _ _ => true
  | .decLdleaf _ _ => true
  | .decSetroot _ => true
  | .decStart => true
  | .decBits n _ => decide (1 ≤ n) && decide (n ≤ Config.bitsMax)
  | .decEnd => true

end Sys2Proof
end

