-- ==== Sys2Proof/Decode.lean ====
section
/-! DEFINITION. Decoding a command word (spec/30_encoding.md R95), total on every 32-bit value and rejecting by name; the
encoder, from the same formats (R91, R92, R102); the opcode table's match and mask; and the byte lanes of a word
(spec/20_memory.md R63). -/

namespace Sys2Proof

/-- Why a word is ILLEGAL (R95). -/
inductive Illegal where
  /-- OP 0x7 or 0xF (R97). -/
  | unallocatedOp
  /-- OP 0x0 with SUB 0x3 to 0xF (R97). -/
  | unallocatedSub
  /-- A reserved-zero field holds a 1 bit (R98, R99). -/
  | reservedNonzero
  deriving DecidableEq, Repr

/-- `field w lo n` is the spec's `w[lo+n-1 : lo]` (R11), the n-bit field from bit `lo` up. -/
def field (w : Word) (lo n : Nat) : BitVec n := w.extractLsb' lo n

/-- The command `i`, if the reserved field `z` is zero (R98). -/
def ifZero {n : Nat} (z : BitVec n) (i : Instr) : Except Illegal Instr :=
  if z = 0 then .ok i else .error .reservedNonzero

/-- The control group, OP 0x0: reserved bits w[27:4], then SUB = w[3:0] (R95). -/
def decodeCtl (w : Word) : Except Illegal Instr :=
  if field w 4 24 = 0 then
    match (field w 0 4).toNat with
    | 0 => .ok .ctlNop
    | 1 => .ok .ctlClrill
    | 2 => .ok .ctlSrst
    | _ => .error .unallocatedSub
  else .error .reservedNonzero

/-- decode(w) of R95, arm by arm. -/
def decode (w : Word) : Except Illegal Instr :=
  match (field w 28 4).toNat with
  | 0x0 => decodeCtl w
  | 0x1 => ifZero (field w 0 28) .encClr
  | 0x2 => .ok (.encLdcode (field w 20 8) (field w 16 4) (field w 0 16))
  | 0x3 => ifZero (field w 8 12) (.encSetlen (field w 20 8) (field w 0 8))
  | 0x4 => ifZero (field w 0 28) .encStart
  | 0x5 => ifZero (field w 8 20) (.encSym (field w 0 8))
  | 0x6 => ifZero (field w 0 28) .encFlush
  | 0x8 => ifZero (field w 0 28) .decClr
  | 0x9 => ifZero (field w 27 1) (.decLdint (field w 18 9) (field w 9 9) (field w 0 9))
  | 0xA => ifZero (field w 27 1 ++ field w 8 10) (.decLdleaf (field w 18 9) (field w 0 8))
  | 0xB => ifZero (field w 9 19) (.decSetroot (field w 0 9))
  | 0xC => ifZero (field w 0 28) .decStart
  | 0xD => ifZero (field w 20 8) (.decBits ((field w 16 4).toNat + 1) (field w 0 16))
  | 0xE => ifZero (field w 0 28) .decEnd
  | _ => .error .unallocatedOp

/-- The word of a command, from the formats of R91: concatenation puts the more significant field first (R11). -/
def encode : Instr → Word
  | .ctlNop => 0x0#4 ++ 0#24 ++ 0x0#4
  | .ctlClrill => 0x0#4 ++ 0#24 ++ 0x1#4
  | .ctlSrst => 0x0#4 ++ 0#24 ++ 0x2#4
  | .encClr => 0x1#4 ++ 0#28
  | .encLdcode sym chunk data => 0x2#4 ++ sym ++ chunk ++ data
  | .encSetlen sym len => 0x3#4 ++ sym ++ 0#12 ++ len
  | .encStart => 0x4#4 ++ 0#28
  | .encSym sym => 0x5#4 ++ 0#20 ++ sym
  | .encFlush => 0x6#4 ++ 0#28
  | .decClr => 0x8#4 ++ 0#28
  | .decLdint idx left right => 0x9#4 ++ 0#1 ++ idx ++ left ++ right
  | .decLdleaf idx sym => 0xA#4 ++ 0#1 ++ idx ++ 0#10 ++ sym
  | .decSetroot idx => 0xB#4 ++ 0#19 ++ idx
  | .decStart => 0xC#4 ++ 0#28
  | .decBits n data => 0xD#4 ++ 0#8 ++ BitVec.ofNat 4 (n - 1) ++ data
  | .decEnd => 0xE#4 ++ 0#28

/-- One row of spec/opcode_table.json: the word matches where `w &&& mask = pattern`. -/
structure OpcodeRow where
  mask : Word
  pattern : Word
  deriving DecidableEq, Repr

/-- The row of each command, as spec/opcode_table.json gives its match and mask. -/
def opcodeRow : Instr → OpcodeRow
  | .ctlNop => ⟨0xFFFFFFFF, 0x00000000⟩
  | .ctlClrill => ⟨0xFFFFFFFF, 0x00000001⟩
  | .ctlSrst => ⟨0xFFFFFFFF, 0x00000002⟩
  | .encClr => ⟨0xFFFFFFFF, 0x10000000⟩
  | .encLdcode _ _ _ => ⟨0xF0000000, 0x20000000⟩
  | .encSetlen _ _ => ⟨0xF00FFF00, 0x30000000⟩
  | .encStart => ⟨0xFFFFFFFF, 0x40000000⟩
  | .encSym _ => ⟨0xFFFFFF00, 0x50000000⟩
  | .encFlush => ⟨0xFFFFFFFF, 0x60000000⟩
  | .decClr => ⟨0xFFFFFFFF, 0x80000000⟩
  | .decLdint _ _ _ => ⟨0xF8000000, 0x90000000⟩
  | .decLdleaf _ _ => ⟨0xF803FF00, 0xA0000000⟩
  | .decSetroot _ => ⟨0xFFFFFE00, 0xB0000000⟩
  | .decStart => ⟨0xFFFFFFFF, 0xC0000000⟩
  | .decBits _ _ => ⟨0xFFF00000, 0xD0000000⟩
  | .decEnd => ⟨0xFFFFFFFF, 0xE0000000⟩

/-- Every row of spec/opcode_table.json, in the table's order. -/
def opcodeTable : List OpcodeRow :=
  [.ctlNop, .ctlClrill, .ctlSrst, .encClr, .encLdcode 0 0 0, .encSetlen 0 0, .encStart, .encSym 0, .encFlush,
   .decClr, .decLdint 0 0 0, .decLdleaf 0 0, .decSetroot 0, .decStart, .decBits 1 0, .decEnd].map opcodeRow

/-- The byte lanes of a word: lane k carries bits [8k+7:8k], lane 0 at the lowest address (R63). -/
def lanes (w : Word) : List Byte := (List.range 4).map fun k => field w (8 * k) 8

/-- The word that four byte lanes carry, lane 0 first (R63). -/
def wordOfLanes (b0 b1 b2 b3 : Byte) : Word := b3 ++ b2 ++ b1 ++ b0

/-- Why bytes give no command. -/
inductive Reject where
  /-- Fewer than the four bytes of a command (R90: there is exactly one length). -/
  | truncated
  /-- The word is illegal (R95). -/
  | illegal (why : Illegal)
  deriving DecidableEq, Repr

/-- Decode the first command of a byte sequence and give the bytes after it: total on any bytes. -/
def decodeBytes : List Byte → Except Reject (Instr × List Byte)
  | b0 :: b1 :: b2 :: b3 :: rest =>
    match decode (wordOfLanes b0 b1 b2 b3) with
    | .ok i => .ok (i, rest)
    | .error e => .error (.illegal e)
  | _ => .error .truncated

/-- The word of an opcode-table row's bits: the low `nbits` bits of `w`, every bit above them 0. -/
def tableWord (nbits w : Nat) : Word := BitVec.ofNat 32 (w % 2 ^ nbits)

/-- What the decoder reads from an instruction whose `nbits` table bits are `w`: laid out in byte lanes and decoded. -/
def decodeTableWord (nbits w : Nat) : Option Instr :=
  match decodeBytes (lanes (tableWord nbits w)) with
  | .ok (i, _) => some i
  | .error _ => none

end Sys2Proof
end

