-- ==== Sys2Proof/Machine/State.lean ====
section
/-! DEFINITION. The complete state of one HUFFCODEC instance (spec/10_state.md R20, R51), as plain data, with the host's
accesses still to come; and the two ways a step can fail to answer. -/

namespace Sys2Proof.Machine

/-- ENC.STATE and DEC.STATE (R28). -/
inductive EngState where
  /-- 0: no session has started since reset. -/
  | idle
  /-- 1: a session is open. -/
  | run
  /-- 2: the session ended without error. -/
  | done
  /-- 3: the session failed. -/
  | err
  deriving DecidableEq, Repr

/-- ENC.ERR and DEC.ERR (R29). The codes 5 to 15 are "never produced" (R29; log 14) and have no constructor. -/
inductive ErrCode where
  /-- 0: NONE. -/
  | none
  /-- 1: EmptyAlphabet. -/
  | emptyAlphabet
  /-- 2: UnknownSymbol (ENC only). -/
  | unknownSymbol
  /-- 3: CorruptStream (DEC only). -/
  | corruptStream
  /-- 4: SequenceError. -/
  | sequenceError
  deriving DecidableEq, Repr

/-- node[i].kind (R44, R45). The code 3 "is never stored" and has no constructor. -/
inductive NodeKind where
  | invalid
  | internal
  | leaf
  deriving DecidableEq, Repr

/-- A table RAM, sparse: (index, value) pairs, in the canonical form of `Memory.wf` (log 4). -/
abbrev Ram (α : Type) := List (Nat × α)

/-- The ENC engine's state (R39). -/
structure Enc where
  /-- ENC.STATE (R28). -/
  state : EngState
  /-- ENC.ERR (R29). -/
  err : ErrCode
  /-- ENC_BITCNT (R32). -/
  bitCnt : Word
  /-- ENC_SYMCNT (R33). -/
  symCnt : Word
  /-- ENC.PEND, the packer (R48). -/
  pend : Bits
  /-- cb[s].len, by s (R40): an unlisted entry reads 0 (R51). -/
  len : Ram (BitVec 8)
  /-- cb[s].code in 16-bit chunks, by 16·s + chunk (R40): an unlisted chunk is not written since reset (R47). -/
  code : Ram (BitVec 16)
  deriving DecidableEq, Repr

/-- The DEC engine's state (R160). -/
structure Dec where
  /-- DEC.STATE (R28). -/
  state : EngState
  /-- DEC.ERR (R29). -/
  err : ErrCode
  /-- DEC_BITCNT (R34). -/
  bitCnt : Word
  /-- DEC_SYMCNT (R35). -/
  symCnt : Word
  /-- DEC.ROOT (R46). -/
  root : NodeIdx
  /-- DEC.CURSOR (R46). -/
  cursor : NodeIdx
  /-- node[i].kind, by i (R44): an unlisted entry reads INVALID (R51). -/
  kind : Ram NodeKind
  /-- node[i].left, by i (R44): an unlisted entry is not written since reset (R47). -/
  left : Ram NodeIdx
  /-- node[i].right, by i (R44): an unlisted entry is not written since reset (R47). -/
  right : Ram NodeIdx
  /-- node[i].sym, by i (R44): an unlisted entry is not written since reset (R47). -/
  sym : Ram Symbol
  deriving DecidableEq, Repr

/-- One access of the host (R20): the only inputs of the block. An address is the platform's; the block decodes
address[5:0] of it (R61; log 9). `size` is the access width in bytes (R62). -/
inductive HostAction where
  /-- MemRead(addr, size) (R62). -/
  | read (addr size : Nat)
  /-- MemWrite(addr, size, value) (R62). -/
  | write (addr size : Nat) (value : Word)
  /-- The host is ready for one element at the EOUT port (R68). -/
  | takeE
  /-- The host is ready for one element at the DOUT port (R68). -/
  | takeD
  /-- Hardware reset (R250, R251). -/
  | hardwareReset
  deriving DecidableEq, Repr

/-- What the last host access gave back (log 5). -/
inductive Reply where
  /-- Nothing: a write, a reset, or a stream port with no element to give. -/
  | none
  /-- The value a register read returned (R62). -/
  | data (value : Word)
  /-- The element a stream port delivered (R68). -/
  | element (value : Byte)
  deriving DecidableEq, Repr

/-- The whole machine: the block's complete state (R20), then the model's own fields (INVENTORY.md, State). -/
structure State where
  /-- STATUS.ILL (R31). -/
  ill : Bool
  /-- The encoder engine. -/
  enc : Enc
  /-- The decoder engine. -/
  dec : Dec
  /-- EOUT: every byte appended since hardware reset, first first (R49). -/
  eout : List Byte
  /-- DOUT: every symbol appended since hardware reset, first first (R49). -/
  dout : List Symbol
  /-- How many elements of EOUT the host has taken (R68; log 6). -/
  eoutTaken : Nat
  /-- How many elements of DOUT the host has taken (R68; log 6). -/
  doutTaken : Nat
  /-- The model's own: how many times reset_state() has run, the counter of the draws (R47, R250; log 3). -/
  epoch : Nat
  /-- The host's accesses still to come, oldest first (R70; log 1). -/
  pending : List HostAction
  /-- What the last host access gave back (log 5). -/
  reply : Reply
  deriving DecidableEq, Repr

/-- The machine's faults: none. "No error stops the block" (R220): every engine error and every illegal command is a next
state (R224, R225, R226). Safe: no behaviour is cut off here (log 21). -/
inductive Fault
  deriving DecidableEq, Repr

/-- Why a step has no meaning. -/
inductive Refusal where
  /-- Raised by an arm of `exec` whose command has no meaning yet; none is left. Safe. -/
  | notModelled (mnemonic : String)
  /-- Raised by the bus for a host access that is not 32 bits wide or not at a multiple of 4: "A model refuses such an
  access: the host step has no meaning and the run is refused" (R64; log 8). No command raises it. Safe. -/
  | busError
  deriving DecidableEq, Repr

/-- The ENC engine after reset (R51): the code chunks are not written. -/
def Enc.reset : Enc :=
  { state := .idle, err := .none, bitCnt := 0, symCnt := 0, pend := [], len := [], code := [] }

/-- The DEC engine after reset (R51): the node fields are not written. -/
def Dec.reset : Dec :=
  { state := .idle, err := .none, bitCnt := 0, symCnt := 0, root := 0, cursor := 0, kind := [], left := [], right := [],
    sym := [] }

/-- The machine right after power-on reset (R51, R251, R252); the model's own fields at the values logs 1, 3, 5 and 6 name. -/
def State.reset : State :=
  { ill := false, enc := Enc.reset, dec := Dec.reset, eout := [], dout := [], eoutTaken := 0, doutTaken := 0, epoch := 0,
    pending := [], reply := .none }

end Sys2Proof.Machine
end

