-- ==== Sys2Proof/Machine/Ops.lean ====
section
/-! DEFINITION. The named operations the commands share: the table RAMs, the draws, the packer, the streams, entering the
error states (the block's exceptions) and leaving them, the session gates, and reset_state(). -/

namespace Sys2Proof.Machine

/-! ### Table RAMs -/

/-- What a RAM lists at index `k`. -/
def Ram.read? {α : Type} : Ram α → Nat → Option α
  | [], _ => none
  | (a, x) :: r, k => if k = a then some x else Ram.read? r k

/-- List `v` at index `k`, in rising order. -/
def Ram.write {α : Type} (k : Nat) (v : α) : Ram α → Ram α
  | [] => [(k, v)]
  | (a, x) :: r =>
    if k < a then (k, v) :: (a, x) :: r
    else if k = a then (k, v) :: r
    else (a, x) :: Ram.write k v r

/-- Take index `k` off the list. -/
def Ram.erase {α : Type} (k : Nat) (r : Ram α) : Ram α := r.filter fun p => p.1 ≠ k

/-- Write `v` at `k` in a RAM whose unlisted indices read as `dflt`: writing `dflt` takes the entry off (log 4). -/
def Ram.put {α : Type} [DecidableEq α] (dflt : α) (k : Nat) (v : α) (r : Ram α) : Ram α :=
  if v = dflt then Ram.erase k r else Ram.write k v r

/-- Indices strictly rising. -/
def Ram.rising {α : Type} : Ram α → Bool
  | [] => true
  | [_] => true
  | (a, _) :: (b, y) :: r => decide (a < b) && Ram.rising ((b, y) :: r)

/-- The canonical form of a RAM of `size` entries: rising indices below `size`. -/
def Ram.wf {α : Type} (size : Nat) (r : Ram α) : Bool := Ram.rising r && r.all fun p => decide (p.1 < size)

/-- The canonical form of every table RAM (log 4): rising indices in range, and no entry equal to what an unlisted index
reads as (len 0, kind INVALID; an unlisted code chunk or node field is a draw, which no value equals by definition). -/
def Memory.wf (s : State) : Bool :=
  Ram.wf Config.nsym s.enc.len && s.enc.len.all (fun p => decide (p.2 ≠ 0)) &&
  Ram.wf (Config.nsym * Config.chunks) s.enc.code &&
  Ram.wf Config.nnodes s.dec.kind && s.dec.kind.all (fun p => decide (p.2 ≠ .invalid)) &&
  Ram.wf Config.nnodes s.dec.left && Ram.wf Config.nnodes s.dec.right && Ram.wf Config.nnodes s.dec.sym

/-! ### Codebook (R40) -/

/-- cb[x].len. -/
def cbLen (s : State) (x : Symbol) : BitVec 8 := (Ram.read? s.enc.len x.toNat).getD 0

/-- Where chunk `c` of cb[x].code stands in the code RAM. -/
def chunkKey (x : Symbol) (c : Nat) : Nat := Config.chunks * x.toNat + c

/-- Chunk `c` of cb[x].code: what the last enc.ldcode wrote there since reset, else the draw (R47). -/
def codeChunk (s : State) (x : Symbol) (c : Nat) : BitVec 16 :=
  (Ram.read? s.enc.code (chunkKey x c)).getD (Config.codeDraw s.epoch (chunkKey x c))

/-- cb[x].code[i]: bit j of chunk c, for i = 16·c + j, is DATA[15 − j] of the chunk's data (R94, R134). -/
def codeBit (s : State) (x : Symbol) (i : Nat) : Bool :=
  (codeChunk s x (i / Config.chunkBits)).getMsbD (i % Config.chunkBits)

/-- cb[x].code[0..n−1], first bit first. -/
def codeString (s : State) (x : Symbol) (n : Nat) : Bits := (List.range n).map (codeBit s x)

/-- anyValid() (R137): at least one of cb[0..255] has len ≠ 0. -/
def anyValid (s : State) : Bool := (List.range Config.nsym).any fun k => decide (cbLen s (BitVec.ofNat 8 k) ≠ 0)

/-- `cb[x].len <- v`. -/
def setCbLen (x : Symbol) (v : BitVec 8) (s : State) : State :=
  { s with enc := { s.enc with len := Ram.put 0 x.toNat v s.enc.len } }

/-- `cb[x].code[16·c + j] <- v[15 − j]` for j in 0..15. -/
def setCodeChunk (x : Symbol) (c : Nat) (v : BitVec 16) (s : State) : State :=
  { s with enc := { s.enc with code := Ram.write (chunkKey x c) v s.enc.code } }

/-- `for s in 0..255: cb[s].len <- 0`. -/
def clearCbLens (s : State) : State := { s with enc := { s.enc with len := [] } }

/-! ### Node table (R44) -/

/-- node[i].kind. -/
def nodeKind (s : State) (i : NodeIdx) : NodeKind := (Ram.read? s.dec.kind i.toNat).getD .invalid

/-- node[i].left: as written since reset, else the draw (R47). -/
def nodeLeft (s : State) (i : NodeIdx) : NodeIdx := (Ram.read? s.dec.left i.toNat).getD (Config.leftDraw s.epoch i.toNat)

/-- node[i].right: as written since reset, else the draw (R47). -/
def nodeRight (s : State) (i : NodeIdx) : NodeIdx := (Ram.read? s.dec.right i.toNat).getD (Config.rightDraw s.epoch i.toNat)

/-- node[i].sym: as written since reset, else the draw (R47). -/
def nodeSym (s : State) (i : NodeIdx) : Symbol := (Ram.read? s.dec.sym i.toNat).getD (Config.symDraw s.epoch i.toNat)

/-- `node[i].kind <- v`. -/
def setNodeKind (i : NodeIdx) (v : NodeKind) (s : State) : State :=
  { s with dec := { s.dec with kind := Ram.put .invalid i.toNat v s.dec.kind } }

/-- `node[i].left <- l; node[i].right <- r`. -/
def setNodeChildren (i l r : NodeIdx) (s : State) : State :=
  { s with dec := { s.dec with left := Ram.write i.toNat l s.dec.left, right := Ram.write i.toNat r s.dec.right } }

/-- `node[i].sym <- x`. -/
def setNodeSym (i : NodeIdx) (x : Symbol) (s : State) : State :=
  { s with dec := { s.dec with sym := Ram.write i.toNat x s.dec.sym } }

/-- `for i in 0..511: node[i].kind <- INVALID`. -/
def clearNodeKinds (s : State) : State := { s with dec := { s.dec with kind := [] } }

/-! ### Counters, streams and the packer -/

/-- inc32 (R13, R53): increment modulo 2^32, silently. -/
def inc32 (c : Word) : Word := c + 1

/-- emitE (R13): append a byte to EOUT. -/
def emitE (b : Byte) (s : State) : State := { s with eout := s.eout ++ [b] }

/-- emitD (R13): append a symbol to DOUT. -/
def emitD (x : Symbol) (s : State) : State := { s with dout := s.dout ++ [x] }

/-- Σ p[i]·2^(7−i), the first bit standing for position `i`. -/
def packFrom : Nat → Bits → Nat
  | _, [] => 0
  | i, b :: bs => b.toNat * 2 ^ (7 - i) + packFrom (i + 1) bs

/-- The byte of up to 8 pending bits, first bit at bit 7, the bits below them 0 (R37, R131, R141). -/
def packByte (p : Bits) : Byte := BitVec.ofNat 8 (packFrom 0 p)

/-- `ENC.PEND <- p`. -/
def setPend (p : Bits) (s : State) : State := { s with enc := { s.enc with pend := p } }

/-- `inc32(ENC_BITCNT)`. -/
def incEncBitCnt (s : State) : State := { s with enc := { s.enc with bitCnt := inc32 s.enc.bitCnt } }

/-- `inc32(ENC_SYMCNT)`. -/
def incEncSymCnt (s : State) : State := { s with enc := { s.enc with symCnt := inc32 s.enc.symCnt } }

/-- `inc32(DEC_BITCNT)`. -/
def incDecBitCnt (s : State) : State := { s with dec := { s.dec with bitCnt := inc32 s.dec.bitCnt } }

/-- `inc32(DEC_SYMCNT)`. -/
def incDecSymCnt (s : State) : State := { s with dec := { s.dec with symCnt := inc32 s.dec.symCnt } }

/-- append(b) (R131): a byte is emitted the moment its eighth bit is appended. -/
def append (b : Bool) (s : State) : State :=
  let s1 := incEncBitCnt (setPend (s.enc.pend ++ [b]) s)
  if s1.enc.pend.length = 8 then setPend [] (emitE (packByte s1.enc.pend) s1) else s1

/-- append for each bit in order. -/
def appendAll : Bits → State → State
  | [], s => s
  | b :: bs, s => appendAll bs (append b s)

/-! ### Engine states -/

/-- `ENC.STATE <- v`. -/
def setEncState (v : EngState) (s : State) : State := { s with enc := { s.enc with state := v } }

/-- `DEC.STATE <- v`. -/
def setDecState (v : EngState) (s : State) : State := { s with dec := { s.dec with state := v } }

/-- `DEC.CURSOR <- i`. -/
def setCursor (i : NodeIdx) (s : State) : State := { s with dec := { s.dec with cursor := i } }

/-- `DEC.ROOT <- i`. -/
def setRoot (i : NodeIdx) (s : State) : State := { s with dec := { s.dec with root := i } }

/-- raise E(code) (R224): enter the encoder's error state; nothing else changes. -/
def raiseE (code : ErrCode) (s : State) : State := { s with enc := { s.enc with state := .err, err := code } }

/-- raise D(code) (R225): enter the decoder's error state; nothing else changes. -/
def raiseD (code : ErrCode) (s : State) : State := { s with dec := { s.dec with state := .err, err := code } }

/-- raise Illegal (R226): set STATUS.ILL; nothing else changes. -/
def raiseIllegal (s : State) : State := { s with ill := true }

/-- What every ENC_START does first (R136): counters and packer emptied, the error cleared. With entering RUN it is the
encoder's way out of ERR (R232). -/
def openEncSession (s : State) : State :=
  { s with enc := { s.enc with bitCnt := 0, symCnt := 0, pend := [], err := .none } }

/-- What every DEC_START does first (R167): counters cleared, the error cleared, the cursor to the root (R232). -/
def openDecSession (s : State) : State :=
  { s with dec := { s.dec with bitCnt := 0, symCnt := 0, err := .none, cursor := s.dec.root } }

/-- The encoder's session gate (R132): in ERR no effect at all, in IDLE and DONE SequenceError, in RUN the body. -/
def encGate (s : State) (body : State → State) : State :=
  match s.enc.state with
  | .err => s
  | .idle => raiseE .sequenceError s
  | .done => raiseE .sequenceError s
  | .run => body s

/-- The decoder's session gate (R169). -/
def decGate (s : State) (body : State → State) : State :=
  match s.dec.state with
  | .err => s
  | .idle => raiseD .sequenceError s
  | .done => raiseD .sequenceError s
  | .run => body s

/-! ### The automaton -/

/-- leafhit(x) (R172): emit one decoded symbol and return to the root. -/
def leafhit (x : Symbol) (s : State) : State :=
  let s1 := incDecSymCnt (emitD x s)
  setCursor s1.dec.root s1

/-- The child of node `i` that bit `b` selects: 0 left, 1 right (R161). -/
def childOf (s : State) (i : NodeIdx) (b : Bool) : NodeIdx := if b then nodeRight s i else nodeLeft s i

/-- The INTERNAL arm of dstep (R171): the cursor moves to the child `c`, if it exists. -/
def enterChild (c : NodeIdx) (s : State) : State :=
  match nodeKind s c with
  | .invalid => raiseD .corruptStream s
  | .leaf => leafhit (nodeSym s c) s
  | .internal => setCursor c s

/-- dstep(b) (R171): one transition of the automaton on one input bit, which is counted whatever happens. -/
def dstep (b : Bool) (s : State) : State :=
  let s1 := incDecBitCnt s
  let i := s1.dec.cursor
  match nodeKind s1 i with
  | .invalid => raiseD .corruptStream s1
  | .leaf => if b then raiseD .corruptStream s1 else leafhit (nodeSym s1 i) s1
  | .internal => enterChild (childOf s1 i b) s1

/-- dstep for each bit in order, until one raises an error: the bits after it are not consumed (R170). -/
def walk : Bits → State → State
  | [], s => s
  | b :: bs, s =>
    let s1 := dstep b s
    if s1.dec.state = .err then s1 else walk bs s1

/-! ### Reset -/

/-- reset_state() (R250): every piece of state but the streams to its reset value. Every table RAM data bit counts as not
written since reset, so a new epoch of draws begins (R47; log 13). -/
def resetState (s : State) : State :=
  { s with ill := false, enc := Enc.reset, dec := Dec.reset, epoch := s.epoch + 1 }

/-- Hardware reset (R250, R251): reset_state(), and the streams start empty (log 7). -/
def hardReset (s : State) : State :=
  { resetState s with eout := [], dout := [], eoutTaken := 0, doutTaken := 0 }

end Sys2Proof.Machine
end

