-- ==== Sys2Proof/Machine/Control.lean ====
section
/-! DEFINITION. The control commands (spec/40_control.md R120 to R123): legal in every state of both engines. -/

namespace Sys2Proof.Machine

/-- ctl.nop (R121): `skip`. -/
def execCtlNop (s : State) : Host.Outcome State Fault Refusal := .next s

/-- ctl.clrill (R122): `ILL <- 0`. -/
def execCtlClrill (s : State) : Host.Outcome State Fault Refusal := .next { s with ill := false }

/-- ctl.srst (R123): reset_state(), the streams left as they are (R251). -/
def execCtlSrst (s : State) : Host.Outcome State Fault Refusal := .next (resetState s)

end Sys2Proof.Machine
end

