-- ==== Sys2Proof/Machine/Operands.lean ====
section
/-! DEFINITION. How operands are assembled from their fields (spec/30_encoding.md R93, R94). Every operand is an unsigned
immediate; only CHUNK is shifted (into `chunkKey`) and only the count is biased (in `decode`). -/

namespace Sys2Proof.Machine

/-- The bits a DEC_BITS consumes, in order: DATA[15], DATA[14], …, DATA[16 − n]; the bits beyond the count are ignored
(R94, R170). -/
def streamBits (n : Nat) (data : BitVec 16) : Bits := (List.range n).map fun i => data.getMsbD i

/-- The chunk number of ENC_LDCODE, zero-extended (R93). -/
def chunkNumber (chunk : BitVec 4) : Nat := chunk.toNat

/-- 16 bits as DATA, the first at bit 15, those missing 0 (R94, R103). -/
def dataOfBits (b : Bits) : BitVec 16 := BitVec.ofNat 16 (((List.range 16).map fun i => (b.getD i false).toNat * 2 ^ (15 - i)).sum)

end Sys2Proof.Machine
end

