-- ==== Sys2Proof/Machine/Decoder.lean ====
section
/-! DEFINITION. The decoder commands (spec/42_decoder.md R160 to R174). -/

namespace Sys2Proof.Machine

/-- dec.clr (R163): every kind INVALID; the other node fields keep what they held. -/
def execDecClr (s : State) : Host.Outcome State Fault Refusal := .next (clearNodeKinds s)

/-- dec.ldint (R164): node[IDX] internal with its two children; its `sym` is left unchanged (R45). -/
def execDecLdint (idx left right : NodeIdx) (s : State) : Host.Outcome State Fault Refusal :=
  .next (setNodeChildren idx left right (setNodeKind idx .internal s))

/-- dec.ldleaf (R165): node[IDX] a leaf with its symbol; its children are left unchanged (R45). -/
def execDecLdleaf (idx : NodeIdx) (sym : Symbol) (s : State) : Host.Outcome State Fault Refusal :=
  .next (setNodeSym idx sym (setNodeKind idx .leaf s))

/-- dec.setroot (R166): `DEC.ROOT <- IDX; DEC.CURSOR <- IDX`. -/
def execDecSetroot (idx : NodeIdx) (s : State) : Host.Outcome State Fault Refusal := .next (setCursor idx (setRoot idx s))

/-- dec.start (R167): open a session; EmptyAlphabet when the root node is INVALID. -/
def execDecStart (s : State) : Host.Outcome State Fault Refusal :=
  let s1 := openDecSession s
  .next (if nodeKind s1 s1.dec.root = .invalid then raiseD .emptyAlphabet s1 else setDecState .run s1)

/-- dec.bits (R170): the automaton walks the n bits. -/
def execDecBits (n : Nat) (data : BitVec 16) (s : State) : Host.Outcome State Fault Refusal :=
  .next (decGate s (walk (streamBits n data)))

/-- dec.end past the gate (R174): the terminal condition is the cursor at the root. -/
def checkTerminal (s : State) : State :=
  if s.dec.cursor = s.dec.root then setDecState .done s else raiseD .corruptStream s

/-- dec.end (R174). -/
def execDecEnd (s : State) : Host.Outcome State Fault Refusal := .next (decGate s checkTerminal)

end Sys2Proof.Machine
end

