-- ==== Sys2Proof/Machine/Encoder.lean ====
section
/-! DEFINITION. The encoder commands (spec/41_encoder.md R130 to R141). -/

namespace Sys2Proof.Machine

/-- enc.clr (R133): every length 0; code bits keep what they held. -/
def execEncClr (s : State) : Host.Outcome State Fault Refusal := .next (clearCbLens s)

/-- enc.ldcode (R134): 16 code bits of one entry. -/
def execEncLdcode (sym : Symbol) (chunk : BitVec 4) (data : BitVec 16) (s : State) : Host.Outcome State Fault Refusal :=
  .next (setCodeChunk sym (chunkNumber chunk) data s)

/-- enc.setlen (R135): `cb[SYM].len <- LEN`. -/
def execEncSetlen (sym : Symbol) (len : BitVec 8) (s : State) : Host.Outcome State Fault Refusal :=
  .next (setCbLen sym len s)

/-- enc.start (R136): open a session; EmptyAlphabet when no entry is valid. -/
def execEncStart (s : State) : Host.Outcome State Fault Refusal :=
  let s1 := openEncSession s
  .next (if anyValid s1 then setEncState .run s1 else raiseE .emptyAlphabet s1)

/-- enc.sym past the gate (R138): UnknownSymbol, or the code's bits appended and the symbol counted. -/
def encodeSymbol (sym : Symbol) (s : State) : State :=
  if cbLen s sym = 0 then raiseE .unknownSymbol s
  else incEncSymCnt (appendAll (codeString s sym (cbLen s sym).toNat) s)

/-- enc.sym (R138). -/
def execEncSym (sym : Symbol) (s : State) : Host.Outcome State Fault Refusal := .next (encGate s (encodeSymbol sym))

/-- enc.flush past the gate (R141): emit the last partial byte, padded with 0 bits that are not counted. -/
def flushPacker (s : State) : State :=
  setEncState .done (if s.enc.pend.length > 0 then setPend [] (emitE (packByte s.enc.pend) s) else s)

/-- enc.flush (R141). -/
def execEncFlush (s : State) : Host.Outcome State Fault Refusal := .next (encGate s flushPacker)

end Sys2Proof.Machine
end

