-- ==== Sys2Proof/Machine/Dispatch.lean ====
section
/-! DEFINITION. One arm for each command: the meaning it calls. -/

namespace Sys2Proof.Machine

def exec (i : Instr) (s : State) : Host.Outcome State Fault Refusal :=
  match i with
  | .ctlNop => Sys2Proof.Machine.execCtlNop s
  | .ctlClrill => Sys2Proof.Machine.execCtlClrill s
  | .ctlSrst => Sys2Proof.Machine.execCtlSrst s
  | .encClr => Sys2Proof.Machine.execEncClr s
  | .encLdcode sym chunk data => Sys2Proof.Machine.execEncLdcode sym chunk data s
  | .encSetlen sym len => Sys2Proof.Machine.execEncSetlen sym len s
  | .encStart => Sys2Proof.Machine.execEncStart s
  | .encSym sym => Sys2Proof.Machine.execEncSym sym s
  | .encFlush => Sys2Proof.Machine.execEncFlush s
  | .decClr => Sys2Proof.Machine.execDecClr s
  | .decLdint idx left right => Sys2Proof.Machine.execDecLdint idx left right s
  | .decLdleaf idx sym => Sys2Proof.Machine.execDecLdleaf idx sym s
  | .decSetroot idx => Sys2Proof.Machine.execDecSetroot idx s
  | .decStart => Sys2Proof.Machine.execDecStart s
  | .decBits n data => Sys2Proof.Machine.execDecBits n data s
  | .decEnd => Sys2Proof.Machine.execDecEnd s

end Sys2Proof.Machine
end

