-- ==== Sys2Proof/Machine/Flags.lean ====
section
/-! DEFINITION. The status fields, the block's only flags (spec/10_state.md R27 to R31, R52), and the two other computed
registers, DEC_PTR (R36) and ENC_PACK (R37). -/

namespace Sys2Proof.Machine

/-- The 2-bit code of an engine state (R27, R28). -/
def EngState.code : EngState → BitVec 2
  | .idle => 0
  | .run => 1
  | .done => 2
  | .err => 3

/-- The 4-bit error code (R29). -/
def ErrCode.code : ErrCode → BitVec 4
  | .none => 0
  | .emptyAlphabet => 1
  | .unknownSymbol => 2
  | .corruptStream => 3
  | .sequenceError => 4

/-- The 2-bit code of a node kind (R45); no register shows it. -/
def NodeKind.code : NodeKind → BitVec 2
  | .invalid => 0
  | .internal => 1
  | .leaf => 2

/-- STATUS.DEC_AT_ROOT (R30): computed, not stored. -/
def atRoot (s : State) : Bool := decide (s.dec.cursor = s.dec.root)

/-- STATUS (R27): ENC_STATE [1:0], DEC_STATE [3:2], ENC_ERR [7:4], DEC_ERR [11:8], DEC_AT_ROOT [12], ILL [13], 0 above. -/
def statusReg (s : State) : Word :=
  0#18 ++ BitVec.ofBool s.ill ++ BitVec.ofBool (atRoot s) ++ s.dec.err.code ++ s.enc.err.code ++ s.dec.state.code ++
    s.enc.state.code

/-- DEC_PTR (R36): CURSOR [8:0], ROOT [24:16], 0 elsewhere. -/
def decPtrReg (s : State) : Word := 0#7 ++ s.dec.root ++ 0#7 ++ s.dec.cursor

/-- ENC_PACK (R37): PBUF [7:0], NPEND [10:8], 0 above. -/
def encPackReg (s : State) : Word := 0#21 ++ BitVec.ofNat 3 s.enc.pend.length ++ packByte s.enc.pend

/-- CAPS (R25): MAXLEN [7:0], NSYM − 1 [15:8], NNODES − 1 [24:16], 0 above. -/
def capsReg : Word :=
  0#7 ++ BitVec.ofNat 9 (Config.nnodes - 1) ++ BitVec.ofNat 8 (Config.nsym - 1) ++ BitVec.ofNat 8 Config.maxLen

/-- ID (R24): hardwired, the bytes "HUFF". -/
def idReg : Word := 0x48554646

end Sys2Proof.Machine
end

