-- ==== Sys2Proof/Machine/Bus.lean ====
section
/-! DEFINITION. The register window (spec/10_state.md R23 to R38; spec/20_memory.md R61 to R67), the stream ports (R68) and
what one host access does. -/

namespace Sys2Proof.Machine

/-- The offset an address selects: "The block decodes only the offset, address[5:0]" (R61; log 9). -/
def regOffset (addr : Nat) : Nat := addr % 64

/-- "The only admitted access is 32 bits wide at an offset that is a multiple of 4" (R62). -/
def admitted (addr size : Nat) : Bool := decide (size = 4) && decide (regOffset addr % 4 = 0)

/-- The value a read of the register at byte offset `off` returns (R23): reserved and unmapped offsets read zero (R38). -/
def readReg (s : State) (off : Nat) : Word :=
  match off with
  | 0x00 => idReg
  | 0x04 => capsReg
  | 0x08 => 0
  | 0x0C => statusReg s
  | 0x10 => s.enc.bitCnt
  | 0x14 => s.enc.symCnt
  | 0x18 => s.dec.bitCnt
  | 0x1C => s.dec.symCnt
  | 0x20 => decPtrReg s
  | 0x24 => encPackReg s
  | _ => 0

/-- The offset of CMD (R26). -/
def cmdOffset : Nat := 0x08

/-- exec(w) (R13, R66): decode the word and execute the command it names; an ILLEGAL word raises Illegal (R95). -/
def execWord (w : Word) (s : State) : Host.Outcome State Fault Refusal :=
  match decode w with
  | .ok i => exec i s
  | .error _ => .next (raiseIllegal s)

/-- MemRead(addr, size) (R62, R65): the value, and no side effect. -/
def hostRead (addr size : Nat) (s : State) : Host.Outcome State Fault Refusal :=
  if admitted addr size then .next { s with reply := .data (readReg s (regOffset addr)) } else .refused .busError

/-- MemWrite(addr, size, v) (R62, R65, R66): a command at CMD, ignored at every other offset. -/
def hostWrite (addr size : Nat) (v : Word) (s : State) : Host.Outcome State Fault Refusal :=
  if admitted addr size then
    if regOffset addr = cmdOffset then execWord v s else .next s
  else .refused .busError

/-- The host is ready at the EOUT port: the next element in order is delivered, if there is one (R68; log 6). -/
def hostTakeE (s : State) : State :=
  match s.eout[s.eoutTaken]? with
  | some b => { s with eoutTaken := s.eoutTaken + 1, reply := .element b }
  | none => s

/-- The host is ready at the DOUT port (R68; log 6). -/
def hostTakeD (s : State) : State :=
  match s.dout[s.doutTaken]? with
  | some x => { s with doutTaken := s.doutTaken + 1, reply := .element x }
  | none => s

/-- What one host access does; `reply` is empty before it. -/
def performAction (a : HostAction) (s : State) : Host.Outcome State Fault Refusal :=
  match a with
  | .read addr size => hostRead addr size s
  | .write addr size v => hostWrite addr size v s
  | .takeE => .next (hostTakeE s)
  | .takeD => .next (hostTakeD s)
  | .hardwareReset => .next (hardReset s)

/-- Perform the host's oldest access (R70). With none to come the block waits: "The block changes its state only through a
CMD write" (R23; log 1). -/
def performNext (s : State) : Host.Outcome State Fault Refusal :=
  match s.pending with
  | [] => .next s
  | a :: rest => performAction a { s with pending := rest, reply := .none }

/-- The host's next access is a write of the command word `w` to CMD (R66). -/
def queueCommand (w : Word) (s : State) : State := { s with pending := .write cmdOffset 4 w :: s.pending }

end Sys2Proof.Machine
end

