-- ==== Sys2Proof/Machine/Step.lean ====
section
/-! DEFINITION. One step of the machine: one access of the host, one command at most (spec/20_memory.md R66, R70). -/

namespace Sys2Proof.Machine

/-- One step: the host's oldest access is performed whole. -/
def step (s : State) : Host.Outcome State Fault Refusal := performNext s

/-- `s` with the instruction of `nbits` bits `w` as what `step` runs next: the block has no program counter and fetches
nothing (R21), so its next instruction is the word of the host's next CMD write (log 2). -/
def State.withFetchWord (s : State) (nbits w : Nat) : State := queueCommand (tableWord nbits w) s

end Sys2Proof.Machine
end

