-- ==== Sys2Proof/Machine/Assembler.lean ====
section
/-! DEFINITION. The assembler syntax and the pseudo-commands (spec/30_encoding.md R102, R103): host software that makes
commands; it gives no command a meaning. -/

namespace Sys2Proof.Machine

/-! ### Pseudo-commands (R103) -/

/-- `enc.code sym, "b0…bL−1"`: the chunks of the code, then its length. -/
def encCode (sym : Symbol) (code : Bits) : List Instr :=
  ((List.range ((code.length + 15) / 16)).map fun c =>
    Instr.encLdcode sym (BitVec.ofNat 4 c) (dataOfBits ((code.drop (16 * c)).take 16))) ++
  [.encSetlen sym (BitVec.ofNat 8 code.length)]

/-- `enc.drop sym`. -/
def encDrop (sym : Symbol) : List Instr := [.encSetlen sym 0]

/-- `dec.feed8 b`. -/
def decFeed8 (b : Byte) : List Instr := [.decBits 8 (b ++ 0#8)]

/-- `dec.feed16 b0, b1`. -/
def decFeed16 (b0 b1 : Byte) : List Instr := [.decBits 16 (b0 ++ b1)]

/-- `dec.feedstr "b0…bk−1"`. -/
def decFeedstr (b : Bits) : List Instr := [.decBits b.length (dataOfBits b)]

/-! ### Mnemonics and operands (R102) -/

/-- The mnemonics of R102 and R103. -/
inductive Mnemonic where
  | ctlNop | ctlClrill | ctlSrst
  | encClr | encLdcode | encSetlen | encStart | encSym | encFlush
  | decClr | decLdint | decLdleaf | decSetroot | decStart | decBits | decEnd
  | encCode | encDrop | decFeed8 | decFeed16 | decFeedstr
  deriving DecidableEq, Repr

/-- One operand: a number (a character literal stands for its ASCII code) or a bit string in double quotes. -/
inductive Operand where
  | num (n : Nat)
  | bits (b : Bits)
  deriving DecidableEq, Repr

/-- "An assembler rejects an operand that does not fit its field" (R102). -/
def fit (width n : Nat) : Option (BitVec width) := if n < 2 ^ width then some (BitVec.ofNat width n) else none

/-- The commands of one mnemonic with its operands; none where the operands do not suit or do not fit. -/
def assemble : Mnemonic → List Operand → Option (List Instr)
  | .ctlNop, [] => some [.ctlNop]
  | .ctlClrill, [] => some [.ctlClrill]
  | .ctlSrst, [] => some [.ctlSrst]
  | .encClr, [] => some [.encClr]
  | .encLdcode, [.num x, .num c, .num d] => do return [.encLdcode (← fit 8 x) (← fit 4 c) (← fit 16 d)]
  | .encSetlen, [.num x, .num l] => do return [.encSetlen (← fit 8 x) (← fit 8 l)]
  | .encStart, [] => some [.encStart]
  | .encSym, [.num x] => do return [.encSym (← fit 8 x)]
  | .encFlush, [] => some [.encFlush]
  | .decClr, [] => some [.decClr]
  | .decLdint, [.num i, .num l, .num r] => do return [.decLdint (← fit 9 i) (← fit 9 l) (← fit 9 r)]
  | .decLdleaf, [.num i, .num x] => do return [.decLdleaf (← fit 9 i) (← fit 8 x)]
  | .decSetroot, [.num i] => do return [.decSetroot (← fit 9 i)]
  | .decStart, [] => some [.decStart]
  | .decBits, [.num n, .num d] => do
    let data ← fit 16 d
    if (Instr.decBits n data).wf then some [.decBits n data] else none
  | .decEnd, [] => some [.decEnd]
  | .encCode, [.num x, .bits b] => do
    let sym ← fit 8 x
    if 1 ≤ b.length ∧ b.length ≤ Config.maxLen then some (encCode sym b) else none
  | .encDrop, [.num x] => do return encDrop (← fit 8 x)
  | .decFeed8, [.num b] => do return decFeed8 (← fit 8 b)
  | .decFeed16, [.num b0, .num b1] => do return decFeed16 (← fit 8 b0) (← fit 8 b1)
  | .decFeedstr, [.bits b] => if 1 ≤ b.length ∧ b.length ≤ Config.bitsMax then some (decFeedstr b) else none
  | _, _ => none

/-! ### Text (R102; what the rule leaves to the writer is in log 18) -/

/-- The spelling of each mnemonic. -/
def Mnemonic.spelling : Mnemonic → String
  | .ctlNop => "ctl.nop"
  | .ctlClrill => "ctl.clrill"
  | .ctlSrst => "ctl.srst"
  | .encClr => "enc.clr"
  | .encLdcode => "enc.ldcode"
  | .encSetlen => "enc.setlen"
  | .encStart => "enc.start"
  | .encSym => "enc.sym"
  | .encFlush => "enc.flush"
  | .decClr => "dec.clr"
  | .decLdint => "dec.ldint"
  | .decLdleaf => "dec.ldleaf"
  | .decSetroot => "dec.setroot"
  | .decStart => "dec.start"
  | .decBits => "dec.bits"
  | .decEnd => "dec.end"
  | .encCode => "enc.code"
  | .encDrop => "enc.drop"
  | .decFeed8 => "dec.feed8"
  | .decFeed16 => "dec.feed16"
  | .decFeedstr => "dec.feedstr"

/-- Every mnemonic. -/
def Mnemonic.all : List Mnemonic :=
  [.ctlNop, .ctlClrill, .ctlSrst, .encClr, .encLdcode, .encSetlen, .encStart, .encSym, .encFlush, .decClr, .decLdint,
   .decLdleaf, .decSetroot, .decStart, .decBits, .decEnd, .encCode, .encDrop, .decFeed8, .decFeed16, .decFeedstr]

/-- A space or a tab. -/
def isBlank (c : Char) : Bool := c = ' ' || c = '\t'

/-- The characters between the blanks at both ends. -/
def trim (cs : List Char) : List Char := ((cs.dropWhile isBlank).reverse.dropWhile isBlank).reverse

/-- The value of a digit, up to 'f'. -/
def digitValue (c : Char) : Option Nat :=
  if '0' ≤ c ∧ c ≤ '9' then some (c.toNat - 48)
  else if 'a' ≤ c ∧ c ≤ 'f' then some (c.toNat - 87)
  else if 'A' ≤ c ∧ c ≤ 'F' then some (c.toNat - 55)
  else none

/-- Digits in a base, after the value `acc` of those before them. -/
def digits (base : Nat) : Nat → List Char → Option Nat
  | acc, [] => some acc
  | acc, c :: cs => do
    let d ← digitValue c
    if d < base then digits base (base * acc + d) cs else none

/-- The bits of a quoted bit string, up to its closing quote. -/
def quotedBits : List Char → Option Bits
  | ['"'] => some []
  | '0' :: cs => (quotedBits cs).map (false :: ·)
  | '1' :: cs => (quotedBits cs).map (true :: ·)
  | _ => none

/-- One operand: "decimal, 0x hexadecimal or 0b binary", a character literal, or a quoted bit string (R102, R103). R102 gives
character literals for symbols and is silent on the other operands; DESIGN CHOICE (log 18): any numeric operand may be one. -/
def parseOperand : List Char → Option Operand
  | ['\'', c, '\''] => if c.toNat < 128 then some (.num c.toNat) else none
  | '"' :: cs => (quotedBits cs).map .bits
  | '0' :: 'x' :: c :: cs => (digits 16 0 (c :: cs)).map .num
  | '0' :: 'b' :: c :: cs => (digits 2 0 (c :: cs)).map .num
  | c :: cs => (digits 10 0 (c :: cs)).map .num
  | [] => none

/-- Cut at the commas, up to a comment; a character literal is kept whole. `cur` is the present piece, reversed. -/
def cutOperands : List Char → List Char → List (List Char)
  | cur, [] => [cur.reverse]
  | cur, '\'' :: c :: '\'' :: cs => cutOperands ('\'' :: c :: '\'' :: cur) cs
  | cur, ';' :: _ => [cur.reverse]
  | cur, ',' :: cs => cur.reverse :: cutOperands [] cs
  | cur, c :: cs => cutOperands (c :: cur) cs

/-- The operands after a mnemonic: none if only blanks and a comment follow. -/
def parseOperands (cs : List Char) : Option (List Operand) :=
  match (cutOperands [] cs).map trim with
  | [[]] => some []
  | pieces => pieces.mapM parseOperand

/-- One line: "a mnemonic, then its operands separated by commas. Text from ; to the end of the line is a comment" (R102). -/
def assembleLine (line : List Char) : Option (List Instr) :=
  let body := line.dropWhile isBlank
  let name := body.takeWhile fun c => !(isBlank c) && c != ';'
  if name = [] then some []
  else do
    let m ← Mnemonic.all.find? fun m => m.spelling.toList = name
    assemble m (← parseOperands (body.drop name.length))

/-- A whole program, one command per line. -/
def assembleLines : List (List Char) → Option (List Instr)
  | [] => some []
  | l :: ls => do return (← assembleLine l) ++ (← assembleLines ls)

end Sys2Proof.Machine
end

