-- ==== Sys2Proof/Machine/HostTables.lean ====
section
/-! DEFINITION. The host's table preparation (spec/43_host_tables.md R201 to R206): host software OUTSIDE the block, stated only
so that claims about a round trip can be (R200). No step of the machine uses it. -/

namespace Sys2Proof.Machine

/-- A HuffmanTree: a leaf holds a symbol, an internal node exactly two children (R202, R204). -/
inductive Tree where
  | leaf (sym : Symbol)
  | node (left right : Tree)
  deriving DecidableEq, Repr

/-- The symbols at the leaves, left to right. -/
def Tree.leaves : Tree → List Symbol
  | .leaf x => [x]
  | .node l r => l.leaves ++ r.leaves

/-- How many nodes a tree has. -/
def Tree.size : Tree → Nat
  | .leaf _ => 1
  | .node l r => 1 + l.size + r.size

/-- Each leaf with its path from the root: 0 when descending left, 1 when descending right (R204). -/
def Tree.paths : Tree → List (Symbol × Bits)
  | .leaf x => [(x, [])]
  | .node l r => (l.paths.map fun p => (p.1, false :: p.2)) ++ (r.paths.map fun p => (p.1, true :: p.2))

/-- The CodeBook of a tree (R204); a tree that is a single leaf gets the code "0" (R205). -/
def codeBook : Tree → List (Symbol × Bits)
  | .leaf x => [(x, [false])]
  | .node l r => (Tree.node l r).paths

/-- The code of a symbol in a CodeBook; empty where it has none. -/
def codeIn (book : List (Symbol × Bits)) (x : Symbol) : Bits := ((book.find? fun p => p.1 = x).map Prod.snd).getD []

/-- `T` is a FrequencyTable of `S`, in some iteration order (R201): each distinct byte of S once, with its positive count. -/
def IsFrequencyTable (S : List Symbol) (T : List (Symbol × Nat)) : Prop :=
  (T.map Prod.fst).Nodup ∧ ∀ x f, (x, f) ∈ T ↔ f = S.count x ∧ 0 < f

/-- The priority queue: nodes with their frequencies, in insertion order. -/
abbrev Queue := List (Nat × Tree)

/-- The least frequency in the queue. -/
def leastFreq (q : Queue) : Nat := (q.map Prod.fst).foldr min ((q.map Prod.fst).headD 0)

/-- The positions of the nodes of least frequency. -/
def leastNodes (q : Queue) : List Nat :=
  (List.range q.length).filter fun i => (q[i]?).any fun n => decide (n.1 = leastFreq q)

/-- TIEBREAK (R202, OPEN; log 17): a function of the queue in insertion order that names one of the nodes of least frequency,
by its place among them. -/
abbrev TieBreak := Queue → Nat

/-- extractMin (R202): the node TIEBREAK picks among those of least frequency, and the queue without it. -/
def extractMin (tie : TieBreak) (q : Queue) : Option ((Nat × Tree) × Queue) :=
  let least := leastNodes q
  let i := least.getD (tie q % least.length) 0
  (q[i]?).map fun n => (n, q.eraseIdx i)

/-- The merges of build (R202): the two nodes extracted become the left and right child of a new node at the end of the
queue. The first argument bounds the number of merges. -/
def mergeAll (tie : TieBreak) : Nat → Queue → Except ErrCode Tree
  | 0, _ => .error .emptyAlphabet
  | fuel + 1, q =>
    match q with
    | [] => .error .emptyAlphabet
    | [n] => .ok n.2
    | _ =>
      match extractMin tie q with
      | none => .error .emptyAlphabet
      | some (x, q1) =>
        match extractMin tie q1 with
        | none => .error .emptyAlphabet
        | some (y, q2) => mergeAll tie fuel (q2 ++ [(x.1 + y.1, .node x.2 y.2)])

/-- build(table) (R202, R203): EmptyAlphabet when the table is empty. -/
def build (tie : TieBreak) (table : List (Symbol × Nat)) : Except ErrCode Tree :=
  mergeAll tie table.length (table.map fun p => (p.2, .leaf p.1))

/-- The positions of a tree's nodes: the path from the root to each. -/
def Tree.positions : Tree → List Bits
  | .leaf _ => [[]]
  | .node l r => [] :: (l.positions.map (false :: ·) ++ r.positions.map (true :: ·))

/-- The commands that load the nodes of the subtree at position `p`; `num` numbers the positions (R206). R206 fixes no order
among the nodes; DESIGN CHOICE (log 24): preorder, left subtree before right. -/
def loadFrom (num : Bits → NodeIdx) (p : Bits) : Tree → List Instr
  | .leaf x => [.decLdleaf (num p) x]
  | .node l r =>
    .decLdint (num p) (num (p ++ [false])) (num (p ++ [true])) ::
      (loadFrom num (p ++ [false]) l ++ loadFrom num (p ++ [true]) r)

/-- Load a tree into the node table and choose its root (R206): "The numbering is free", a distinct index for each node. -/
def loadTree (num : Bits → NodeIdx) (t : Tree) : List Instr := loadFrom num [] t ++ [.decSetroot (num [])]

/-- Load a CodeBook: `enc.code s, c` for each entry (R206), in the book's order (DESIGN CHOICE, log 24). -/
def loadCodeBook (book : List (Symbol × Bits)) : List Instr := book.flatMap fun p => encCode p.1 p.2

/-- The commands of an encode session of `S` (R253). -/
def encodeSession (S : List Symbol) : List Instr := .encStart :: (S.map .encSym ++ [.encFlush])

/-- The commands that feed exactly the first `n` bits of a byte sequence: full bytes, then "dec.bits r, byte << 8" (R261).
R72, R175 and R207 leave the sizes of the commands free; DESIGN CHOICE (log 23): 8 bits a command. -/
def feedBits : Nat → List Byte → List Instr
  | _, [] => []
  | n, b :: bs =>
    if n = 0 then []
    else if 8 ≤ n then decFeed8 b ++ feedBits (n - 8) bs
    else [.decBits n (b ++ 0#8)]

/-- The commands of a decode session of the first `n` bits of a byte sequence (R254). -/
def decodeSession (n : Nat) (bytes : List Byte) : List Instr := .decStart :: (feedBits n bytes ++ [.decEnd])

end Sys2Proof.Machine
end

