-- ==== Sys2Proof/Safety.lean ====
section
/-! DEFINITION. The terms in which claims about runs are made: what a well-formed state is, what a host may do without a bus
error, running a sequence of accesses or commands, and the meanings of a loaded table and of an output stream. -/

namespace Sys2Proof.Machine

/-- What holds of an encoder between commands. -/
structure EncInv (e : Enc) : Prop where
  /-- "a bit string of length 0..7" (R48). -/
  pend_short : e.pend.length ≤ 7
  /-- "nonzero exactly when STATE = ERR" (R29). -/
  err_iff : e.err ≠ .none ↔ e.state = .err
  /-- CorruptStream is "DEC only" (R29). -/
  err_own : e.err ≠ .corruptStream
  /-- IDLE: "no session has started since reset" (R28), so nothing is counted and nothing pends. -/
  idle_fresh : e.state = .idle → e.pend = [] ∧ e.bitCnt = 0 ∧ e.symCnt = 0
  /-- A flushed session leaves nothing pending (R141). -/
  done_empty : e.state = .done → e.pend = []
  /-- In a session the packer holds the bits since the last whole byte (R131). -/
  run_aligned : e.state = .run → e.pend.length = e.bitCnt.toNat % 8

/-- What holds of a decoder between commands. -/
structure DecInv (d : Dec) : Prop where
  /-- "nonzero exactly when STATE = ERR" (R29). -/
  err_iff : d.err ≠ .none ↔ d.state = .err
  /-- UnknownSymbol is "ENC only" (R29). -/
  err_own : d.err ≠ .unknownSymbol
  /-- IDLE: "no session has started since reset" (R28). -/
  idle_fresh : d.state = .idle → d.cursor = d.root ∧ d.bitCnt = 0 ∧ d.symCnt = 0
  /-- A session ends in DONE only with the cursor at the root (R174). -/
  done_at_root : d.state = .done → d.cursor = d.root

/-- The invariant of the machine: canonical RAMs, both engines' own, and no stream element taken before it was appended. -/
structure Inv (s : State) : Prop where
  mem : Memory.wf s = true
  enc : EncInv s.enc
  dec : DecInv s.dec
  eout_taken : s.eoutTaken ≤ s.eout.length
  dout_taken : s.doutTaken ≤ s.dout.length

/-- A host access that is no bus error (R62, R64). -/
def admittedAction : HostAction → Bool
  | .read addr size => admitted addr size
  | .write addr size _ => admitted addr size
  | .takeE => true
  | .takeD => true
  | .hardwareReset => true

/-- The host's accesses are all admitted, so that no step is refused (R64, R220). -/
def SafePending (s : State) : Prop := ∀ a ∈ s.pending, admittedAction a = true

/-- The machine performs these accesses of the host, one a step. -/
def perform (acts : List HostAction) (s : State) : Host.Outcome State Fault Refusal :=
  Host.Core.run Sys2Proof.core acts.length { s with pending := acts }

/-- The host's CMD writes of a command sequence (R66, R70). -/
def commandWrites (cmds : List Instr) : List HostAction := cmds.map fun i => .write cmdOffset 4 (encode i)

/-- The machine executes these commands in order. -/
def runCommands (cmds : List Instr) (s : State) : Host.Outcome State Fault Refusal := perform (commandWrites cmds) s

/-- The encoder group, OP 0x1 to 0x6 (R96). -/
def isEncoderCommand : Instr → Bool
  | .encClr => true
  | .encLdcode _ _ _ => true
  | .encSetlen _ _ => true
  | .encStart => true
  | .encSym _ => true
  | .encFlush => true
  | _ => false

/-- The decoder group, OP 0x8 to 0xE (R96). -/
def isDecoderCommand : Instr → Bool
  | .decClr => true
  | .decLdint _ _ _ => true
  | .decLdleaf _ _ => true
  | .decSetroot _ => true
  | .decStart => true
  | .decBits _ _ => true
  | .decEnd => true
  | _ => false

/-- The words with opcode `op` encode `cmd`, its operands read from the word's fields, where the reserved fields (`ok`) are
zero, and are illegal elsewhere (R95, R98). -/
def EncodedAs (op : BitVec 4) (ok : Word → Bool) (cmd : Word → Instr) : Prop :=
  ∀ w, field w 28 4 = op → decode w = if ok w then .ok (cmd w) else .error .reservedNonzero

/-- The node table holds the tree `t` at index `i` (R175: every INTERNAL node has two children that are not INVALID). -/
def HoldsTree (s : State) : Tree → NodeIdx → Prop
  | .leaf x, i => nodeKind s i = .leaf ∧ nodeSym s i = x
  | .node l r, i => nodeKind s i = .internal ∧ HoldsTree s l (nodeLeft s i) ∧ HoldsTree s r (nodeRight s i)

/-- The codebook holds the code `c` for `x`: code(x) = cb[x].code[0..cb[x].len−1] (R142). -/
def HoldsCode (s : State) (x : Symbol) (c : Bits) : Prop :=
  (cbLen s x).toNat = c.length ∧ codeString s x (cbLen s x).toNat = c

/-- The codes of a symbol sequence in a state's codebook, joined in order (R142). -/
def encodedBits (s : State) (S : List Symbol) : Bits := S.flatMap fun x => codeString s x (cbLen s x).toNat

/-- The bytes a session's bits become (R71, R142): ceil(len/8) of them, bit 8m + i at bit 7 − i of byte m, padded with 0. -/
def bytesOfBits (E : Bits) : List Byte :=
  (List.range ((E.length + 7) / 8)).map fun m =>
    BitVec.ofNat 8 (((List.range 8).map fun i => (E.getD (8 * m + i) false).toNat * 2 ^ (7 - i)).sum)

/-- The bits a byte sequence carries, each byte's bit 7 first (R71). -/
def bitsOfBytes (bytes : List Byte) : Bits := bytes.flatMap fun b => (List.range 8).map fun i => b.getMsbD i

/-- The bits a sequence of DEC_BITS commands (count and data) presents to the decoder, in order (R72). -/
def presentedBits (chunks : List (Nat × BitVec 16)) : Bits := chunks.flatMap fun c => streamBits c.1 c.2

/-- DEC_BITS commands of any sizes that present exactly the first `n` bits of a byte sequence (R72, R261). -/
def FeedsExactly (chunks : List (Nat × BitVec 16)) (n : Nat) (bytes : List Byte) : Prop :=
  n ≤ 8 * bytes.length ∧ (∀ c ∈ chunks, 1 ≤ c.1 ∧ c.1 ≤ 16) ∧ presentedBits chunks = (bitsOfBytes bytes).take n

/-- A decode session that feeds its bits in these DEC_BITS commands (R254). -/
def feedSession (chunks : List (Nat × BitVec 16)) : List Instr :=
  .decStart :: (chunks.map (fun c => .decBits c.1 c.2) ++ [.decEnd])

end Sys2Proof.Machine
end

