-- ==== Sys2Proof/Certificates/Slice0/Obligations.lean ====
section
/-! DEFINITION. What is claimed of the machine: one definition per obligation (OBLIGATIONS.json), from the numbered rules of spec/. -/

open Sys2Proof Sys2Proof.Machine

/-! ### Encoding -/

/-- Every well-formed command is what the decoder reads from its word, with every operand at every value (R91, R95). -/
def Obligations.DecodeOfEncodeIsTheCommand : Prop := ∀ i : Instr, i.wf = true → decode (encode i) = .ok i

/-- Every legal word is the word of exactly the command it decodes to (R95, R101): no bit of it is dropped. -/
def Obligations.LegalWordsEncodeBack : Prop := ∀ (w : Word) (i : Instr), decode w = .ok i → i.wf = true ∧ encode i = w

/-- The decoder accepts the words of the opcode table and no others, and no word matches two rows (R101). -/
def Obligations.LegalWordsMatchOneTableRow : Prop :=
  (∀ w, (∃ i, decode w = .ok i) ↔ ∃ r ∈ opcodeTable, w &&& r.mask = r.pattern) ∧
  (∀ w i, decode w = .ok i → w &&& (opcodeRow i).mask = (opcodeRow i).pattern) ∧
  (∀ w, ∀ r ∈ opcodeTable, ∀ r' ∈ opcodeTable, w &&& r.mask = r.pattern → w &&& r'.mask = r'.pattern → r = r')

/-- Words the spec writes out decode to the commands it names (R101, R134, R135, R164, R165). -/
def Obligations.WordsOfTheSpecDecode : Prop :=
  decode 0x00000000 = .ok .ctlNop ∧ decode 0xFFFFFFFF = .error .unallocatedOp ∧
  decode 0x26208000 = .ok (.encLdcode 0x62 0 0x8000) ∧ decode 0x36100001 = .ok (.encSetlen 0x61 1) ∧
  decode 0x90000202 = .ok (.decLdint 0 1 2) ∧ decode 0xA0040061 = .ok (.decLdleaf 1 0x61) ∧
  decode 0xD0014000 = .ok (.decBits 2 0x4000)

/-- R97, R98: exactly the words with an unallocated OP or SUB, or with a 1 bit in a reserved-zero field of their format
(R91), are illegal. R226: executing such a word sets ILL and changes nothing else. -/
def Obligations.UnallocatedAndReservedWordsOnlySetIll : Prop :=
  ∀ w : Word,
    let op := field w 28 4
    let bad : Prop :=
      op = 0x7 ∨ op = 0xF ∨ (op = 0x0 ∧ (field w 4 24 ≠ 0 ∨ 3 ≤ (field w 0 4).toNat)) ∨
      ((op = 0x1 ∨ op = 0x4 ∨ op = 0x6 ∨ op = 0x8 ∨ op = 0xC ∨ op = 0xE) ∧ field w 0 28 ≠ 0) ∨
      (op = 0x3 ∧ field w 8 12 ≠ 0) ∨ (op = 0x5 ∧ field w 8 20 ≠ 0) ∨ (op = 0x9 ∧ field w 27 1 ≠ 0) ∨
      (op = 0xA ∧ (field w 27 1 ≠ 0 ∨ field w 8 10 ≠ 0)) ∨ (op = 0xB ∧ field w 9 19 ≠ 0) ∨
      (op = 0xD ∧ field w 20 8 ≠ 0)
    ((∃ e, decode w = .error e) ↔ bad) ∧
    (bad → ∀ s : State, execWord w s = .next { s with ill := true })

/-! ### Host accesses -/

/-- R66: a write of `w` to CMD decodes `w` and executes the command it names as one step; an illegal word raises Illegal.
Around the command the step takes the access off the host's queue and clears `reply` (the model's own fields, logs 1, 5). -/
def Obligations.StepRunsTheDecodedCommand : Prop :=
  ∀ (s : State) (addr : Nat) (w : Word) (rest : List HostAction), regOffset addr = 0x08 →
    s.pending = .write addr 4 w :: rest →
    (∀ i, decode w = .ok i → step s = exec i { s with pending := rest, reply := .none }) ∧
    (∀ e, decode w = .error e → step s = .next { s with ill := true, pending := rest, reply := .none })

/-- R63: byte lane k of a word carries its bits [8k+7:8k], and the bytes of a word in lane order decode as the word does. -/
def Obligations.ByteLanesAreLittleEndian : Prop :=
  ∀ (w : Word) (rest : List Byte),
    (∀ k, k < 4 → (lanes w)[k]? = some (field w (8 * k) 8)) ∧ (lanes w).length = 4 ∧
    (∀ i, decode w = .ok i → decodeBytes (lanes w ++ rest) = .ok (i, rest)) ∧
    (∀ e, decode w = .error e → decodeBytes (lanes w ++ rest) = .error (.illegal e))

/-- R23 to R26, R38: what a 32-bit aligned read of each offset of the window returns. -/
def Obligations.RegisterReadsReturnTheMap : Prop :=
  ∀ (s : State) (addr : Nat) (rest : List HostAction), s.pending = .read addr 4 :: rest → addr % 4 = 0 →
    ∃ v, step s = .next { s with pending := rest, reply := .data v } ∧
      (addr % 64 = 0x00 → v = 0x48554646) ∧ (addr % 64 = 0x04 → v = 0x01FFFFFF) ∧ (addr % 64 = 0x08 → v = 0) ∧
      (addr % 64 = 0x0C → v = statusReg s) ∧ (addr % 64 = 0x10 → v = s.enc.bitCnt) ∧
      (addr % 64 = 0x14 → v = s.enc.symCnt) ∧ (addr % 64 = 0x18 → v = s.dec.bitCnt) ∧
      (addr % 64 = 0x1C → v = s.dec.symCnt) ∧ (addr % 64 = 0x20 → v = decPtrReg s) ∧
      (addr % 64 = 0x24 → v = encPackReg s) ∧ (0x28 ≤ addr % 64 → v = 0)

/-- R27 (with R30): every field of STATUS. -/
def Obligations.StatusFieldsStandWhereTheMapSays : Prop :=
  ∀ s : State,
    ((field (statusReg s) 0 2).toNat = match s.enc.state with | .idle => 0 | .run => 1 | .done => 2 | .err => 3) ∧
    ((field (statusReg s) 2 2).toNat = match s.dec.state with | .idle => 0 | .run => 1 | .done => 2 | .err => 3) ∧
    ((field (statusReg s) 4 4).toNat = match s.enc.err with
      | .none => 0 | .emptyAlphabet => 1 | .unknownSymbol => 2 | .corruptStream => 3 | .sequenceError => 4) ∧
    ((field (statusReg s) 8 4).toNat = match s.dec.err with
      | .none => 0 | .emptyAlphabet => 1 | .unknownSymbol => 2 | .corruptStream => 3 | .sequenceError => 4) ∧
    ((statusReg s).getLsbD 12 = true ↔ s.dec.cursor = s.dec.root) ∧
    (statusReg s).getLsbD 13 = s.ill ∧ field (statusReg s) 14 18 = 0

/-- R36, R37: the fields of DEC_PTR and ENC_PACK; bit 7 − i of PBUF is pending bit i, the bits below read 0. -/
def Obligations.PointerAndPackRegistersShowTheirFields : Prop :=
  (∀ s : State, field (decPtrReg s) 0 9 = s.dec.cursor ∧ field (decPtrReg s) 9 7 = 0 ∧
    field (decPtrReg s) 16 9 = s.dec.root ∧ field (decPtrReg s) 25 7 = 0) ∧
  (∀ s : State, s.enc.pend.length ≤ 7 →
    (∀ i, i < 8 → (encPackReg s).getLsbD (7 - i) = s.enc.pend.getD i false) ∧
    (field (encPackReg s) 8 3).toNat = s.enc.pend.length ∧ field (encPackReg s) 11 21 = 0)

/-- R65 (writes), R38: an admitted write anywhere but at CMD changes no state of the block. -/
def Obligations.WritesOutsideCommandAreIgnored : Prop :=
  ∀ (s : State) (addr : Nat) (v : Word) (rest : List HostAction), s.pending = .write addr 4 v :: rest → addr % 4 = 0 →
    addr % 64 ≠ 0x08 → step s = .next { s with pending := rest, reply := .none }

/-- R64, R220: a step is refused exactly when the host's next access is not 32 bits wide or not at a multiple of 4, and
then as a bus error; no other access and no command stops the block. -/
def Obligations.OnlyBusErrorsStopAStep : Prop :=
  ∀ s : State,
    ((∃ r, step s = .refused r) ↔
      (∃ addr size rest, s.pending = .read addr size :: rest ∧ (size ≠ 4 ∨ addr % 4 ≠ 0)) ∨
      (∃ addr size v rest, s.pending = .write addr size v :: rest ∧ (size ≠ 4 ∨ addr % 4 ≠ 0))) ∧
    (∀ r, step s = .refused r → r = .busError) ∧
    ((∃ r, step s = .refused r) ∨ ∃ t, step s = .next t)

/-- R61: where the platform places the window does not matter; the block decodes only address[5:0]. -/
def Obligations.OnlyTheOffsetIsDecoded : Prop :=
  ∀ (s : State) (base off size : Nat) (v : Word), base % 64 = 0 →
    performAction (.read (base + off) size) s = performAction (.read off size) s ∧
    performAction (.write (base + off) size v) s = performAction (.write off size v) s

/-- R68: taking k elements at a stream port delivers them in the order appended, the next one each time. The last two clauses
are no rule of the spec but the model's DESIGN CHOICE (log 6): a take with no element left changes nothing and waits for
nothing. So are the counts of taken elements, log 6's fields. -/
def Obligations.StreamPortsDeliverInOrder : Prop :=
  (∀ (s : State) (k : Nat), s.eoutTaken + k < s.eout.length →
    ∃ t, perform (List.replicate (k + 1) .takeE) s = .next t ∧
      s.eout[s.eoutTaken + k]?.map Reply.element = some t.reply ∧
      t = { s with pending := [], eoutTaken := s.eoutTaken + k + 1, reply := t.reply }) ∧
  (∀ (s : State) (k : Nat), s.doutTaken + k < s.dout.length →
    ∃ t, perform (List.replicate (k + 1) .takeD) s = .next t ∧
      s.dout[s.doutTaken + k]?.map Reply.element = some t.reply ∧
      t = { s with pending := [], doutTaken := s.doutTaken + k + 1, reply := t.reply }) ∧
  (∀ s : State, s.eout.length ≤ s.eoutTaken → perform [.takeE] s = .next { s with pending := [], reply := .none }) ∧
  (∀ s : State, s.dout.length ≤ s.doutTaken → perform [.takeD] s = .next { s with pending := [], reply := .none })

/-! ### Reset and the control commands -/

/-- R51: the value after reset of every piece of state for which the rule gives one. -/
def Obligations.ResetStateHasTheSpecValues : Prop :=
  let s := State.reset
  s.ill = false ∧ s.enc.state = .idle ∧ s.dec.state = .idle ∧ s.enc.err = .none ∧ s.dec.err = .none ∧
  s.enc.bitCnt = 0 ∧ s.enc.symCnt = 0 ∧ s.dec.bitCnt = 0 ∧ s.dec.symCnt = 0 ∧ s.enc.pend = [] ∧
  (∀ x, cbLen s x = 0) ∧ (∀ i, nodeKind s i = .invalid) ∧ s.dec.root = 0 ∧ s.dec.cursor = 0 ∧ s.eout = [] ∧ s.dout = [] ∧
  statusReg s = 0x00001000 ∧ decPtrReg s = 0 ∧ encPackReg s = 0

/-- R250, R251 (hardware reset): every piece of state to its reset value and the streams empty; what of the model's own
fields it leaves is logs 1, 3, 5, 6, 7. -/
def Obligations.HardwareResetResets : Prop :=
  ∀ (s : State) (rest : List HostAction), s.pending = .hardwareReset :: rest →
    ∃ t, step s = .next t ∧ t = { State.reset with epoch := t.epoch, pending := rest }

/-- R123, with R250 and R251: soft reset gives every piece of state its reset value and leaves the streams as they are. -/
def Obligations.SoftResetResetsAllButTheStreams : Prop :=
  decode 0x00000002 = .ok .ctlSrst ∧
  ∀ s : State, ∃ t, exec .ctlSrst s = .next t ∧
    t = { s with ill := false, enc := t.enc, dec := t.dec, epoch := t.epoch } ∧
    t.enc.state = .idle ∧ t.enc.err = .none ∧ t.enc.bitCnt = 0 ∧ t.enc.symCnt = 0 ∧ t.enc.pend = [] ∧
    (∀ x, cbLen t x = 0) ∧ t.dec.state = .idle ∧ t.dec.err = .none ∧ t.dec.bitCnt = 0 ∧ t.dec.symCnt = 0 ∧
    t.dec.root = 0 ∧ t.dec.cursor = 0 ∧ (∀ i, nodeKind t i = .invalid) ∧ statusReg t = 0x00001000 ∧
    t.enc.code = [] ∧ t.dec.left = [] ∧ t.dec.right = [] ∧ t.dec.sym = []

/-- R121, R122: ctl.nop changes nothing; ctl.clrill clears ILL and changes nothing else; 0x00000010 is neither. -/
def Obligations.NopAndClrillEffects : Prop :=
  decode 0x00000000 = .ok .ctlNop ∧ decode 0x00000001 = .ok .ctlClrill ∧ decode 0x00000010 = .error .reservedNonzero ∧
  ∀ s : State, exec .ctlNop s = .next s ∧ exec .ctlClrill s = .next { s with ill := false }

/-! ### Encoder commands -/

/-- R133: enc.clr makes every entry invalid, keeps the code bits, and changes nothing else. -/
def Obligations.EncClrInvalidatesEveryEntry : Prop :=
  EncodedAs 0x1 (fun w => field w 0 28 = 0) (fun _ => .encClr) ∧
  ∀ s : State, ∃ t, exec .encClr s = .next t ∧ (∀ x, cbLen t x = 0) ∧ (∀ x i, codeBit t x i = codeBit s x i) ∧
    t = { s with enc := { s.enc with len := t.enc.len } }

/-- R134: enc.ldcode writes the 16 code bits of its chunk, most significant first, and changes nothing else. -/
def Obligations.LdcodeWritesSixteenCodeBits : Prop :=
  EncodedAs 0x2 (fun _ => true) (fun w => .encLdcode (field w 20 8) (field w 16 4) (field w 0 16)) ∧
  ∀ (s : State) (sym : Symbol) (chunk : BitVec 4) (data : BitVec 16),
    ∃ t, exec (.encLdcode sym chunk data) s = .next t ∧
      (∀ j, j < 16 → codeBit t sym (16 * chunk.toNat + j) = data.getLsbD (15 - j)) ∧
      (∀ x i, i < 256 → ¬(x = sym ∧ i / 16 = chunk.toNat) → codeBit t x i = codeBit s x i) ∧
      (∀ x, cbLen t x = cbLen s x) ∧ t = { s with enc := { s.enc with code := t.enc.code } }

/-- R135: enc.setlen writes one entry's length and changes nothing else. -/
def Obligations.SetlenWritesOneLength : Prop :=
  EncodedAs 0x3 (fun w => field w 8 12 = 0) (fun w => .encSetlen (field w 20 8) (field w 0 8)) ∧
  ∀ (s : State) (sym : Symbol) (len : BitVec 8),
    ∃ t, exec (.encSetlen sym len) s = .next t ∧ (∀ x, cbLen t x = if x = sym then len else cbLen s x) ∧
      (∀ x i, codeBit t x i = codeBit s x i) ∧ t = { s with enc := { s.enc with len := t.enc.len } }

/-- R136, R137: enc.start opens a session from any state; EmptyAlphabet exactly when no entry is valid. -/
def Obligations.EncStartOpensOrRaisesEmptyAlphabet : Prop :=
  EncodedAs 0x4 (fun w => field w 0 28 = 0) (fun _ => .encStart) ∧
  ∀ s : State,
    ((∃ x, cbLen s x ≠ 0) → exec .encStart s =
      .next { s with enc := { s.enc with bitCnt := 0, symCnt := 0, pend := [], err := .none, state := .run } }) ∧
    ((∀ x, cbLen s x = 0) → exec .encStart s =
      .next { s with enc := { s.enc with bitCnt := 0, symCnt := 0, pend := [], err := .emptyAlphabet, state := .err } })

/-- R138, with R131: enc.sym appends the symbol's code to the packer, emits each byte that fills, counts the bits and the
symbol, and changes nothing else; UnknownSymbol, SequenceError, and no effect in ERR. -/
def Obligations.EncSymAppendsTheCode : Prop :=
  EncodedAs 0x5 (fun w => field w 8 20 = 0) (fun w => .encSym (field w 0 8)) ∧
  ∀ (s : State) (sym : Symbol),
    (s.enc.state = .run → cbLen s sym ≠ 0 → s.enc.pend.length ≤ 7 →
      let E := s.enc.pend ++ codeString s sym (cbLen s sym).toNat
      exec (.encSym sym) s = .next { s with
        eout := s.eout ++ bytesOfBits (E.take (8 * (E.length / 8)))
        enc := { s.enc with
          pend := E.drop (8 * (E.length / 8))
          bitCnt := s.enc.bitCnt + BitVec.ofNat 32 (cbLen s sym).toNat
          symCnt := s.enc.symCnt + 1 } }) ∧
    (s.enc.state = .run → cbLen s sym = 0 →
      exec (.encSym sym) s = .next { s with enc := { s.enc with state := .err, err := .unknownSymbol } }) ∧
    (s.enc.state = .idle ∨ s.enc.state = .done →
      exec (.encSym sym) s = .next { s with enc := { s.enc with state := .err, err := .sequenceError } }) ∧
    (s.enc.state = .err → exec (.encSym sym) s = .next s)

/-- R141: enc.flush emits the pending bits as one byte padded with 0 bits that are not counted, and ends the session;
SequenceError, and no effect in ERR. -/
def Obligations.EncFlushEmitsThePartialByte : Prop :=
  EncodedAs 0x6 (fun w => field w 0 28 = 0) (fun _ => .encFlush) ∧
  ∀ s : State,
    (s.enc.state = .run → s.enc.pend.length ≤ 7 → exec .encFlush s = .next { s with
      eout := s.eout ++ bytesOfBits s.enc.pend
      enc := { s.enc with pend := [], state := .done } }) ∧
    (s.enc.state = .idle ∨ s.enc.state = .done →
      exec .encFlush s = .next { s with enc := { s.enc with state := .err, err := .sequenceError } }) ∧
    (s.enc.state = .err → exec .encFlush s = .next s)

/-- R142: the session output law. (For an empty sequence the rule's "with no error" needs a valid entry: R136.) -/
def Obligations.EncoderSessionOutputLaw : Prop :=
  ∀ (s : State) (S : List Symbol), (∀ x ∈ S, cbLen s x ≠ 0) → (S = [] → ∃ x, cbLen s x ≠ 0) →
    ∃ t, runCommands (encodeSession S) s = .next t ∧
      t.eout = s.eout ++ bytesOfBits (encodedBits s S) ∧
      t.enc.bitCnt = BitVec.ofNat 32 (encodedBits s S).length ∧ t.enc.symCnt = BitVec.ofNat 32 S.length ∧
      t.enc.state = .done ∧ t.enc.err = .none

/-! ### Decoder commands -/

/-- R163: dec.clr makes every node INVALID and changes nothing else. -/
def Obligations.DecClrInvalidatesEveryNode : Prop :=
  EncodedAs 0x8 (fun w => field w 0 28 = 0) (fun _ => .decClr) ∧
  ∀ s : State, ∃ t, exec .decClr s = .next t ∧ (∀ i, nodeKind t i = .invalid) ∧
    t = { s with dec := { s.dec with kind := t.dec.kind } }

/-- R164: dec.ldint makes one node internal with its children, leaves its symbol (R45), and changes nothing else. -/
def Obligations.LdintWritesOneInternalNode : Prop :=
  EncodedAs 0x9 (fun w => field w 27 1 = 0) (fun w => .decLdint (field w 18 9) (field w 9 9) (field w 0 9)) ∧
  ∀ (s : State) (idx left right : NodeIdx), ∃ t, exec (.decLdint idx left right) s = .next t ∧
    (∀ i, nodeKind t i = if i = idx then .internal else nodeKind s i) ∧
    (∀ i, nodeLeft t i = if i = idx then left else nodeLeft s i) ∧
    (∀ i, nodeRight t i = if i = idx then right else nodeRight s i) ∧ (∀ i, nodeSym t i = nodeSym s i) ∧
    t = { s with dec := { s.dec with kind := t.dec.kind, left := t.dec.left, right := t.dec.right } }

/-- R165: dec.ldleaf makes one node a leaf with its symbol, leaves its children (R45), and changes nothing else. -/
def Obligations.LdleafWritesOneLeaf : Prop :=
  EncodedAs 0xA (fun w => field w 27 1 = 0 ∧ field w 8 10 = 0) (fun w => .decLdleaf (field w 18 9) (field w 0 8)) ∧
  ∀ (s : State) (idx : NodeIdx) (sym : Symbol), ∃ t, exec (.decLdleaf idx sym) s = .next t ∧
    (∀ i, nodeKind t i = if i = idx then .leaf else nodeKind s i) ∧
    (∀ i, nodeSym t i = if i = idx then sym else nodeSym s i) ∧ (∀ i, nodeLeft t i = nodeLeft s i) ∧
    (∀ i, nodeRight t i = nodeRight s i) ∧ t = { s with dec := { s.dec with kind := t.dec.kind, sym := t.dec.sym } }

/-- R166: dec.setroot puts the root and the cursor at its index and changes nothing else. -/
def Obligations.SetrootMovesRootAndCursor : Prop :=
  EncodedAs 0xB (fun w => field w 9 19 = 0) (fun w => .decSetroot (field w 0 9)) ∧
  ∀ (s : State) (idx : NodeIdx),
    exec (.decSetroot idx) s = .next { s with dec := { s.dec with root := idx, cursor := idx } }

/-- R167: dec.start opens a session from any state; EmptyAlphabet exactly when the root node is INVALID. -/
def Obligations.DecStartOpensOrRaisesEmptyAlphabet : Prop :=
  EncodedAs 0xC (fun w => field w 0 28 = 0) (fun _ => .decStart) ∧
  ∀ s : State,
    (nodeKind s s.dec.root ≠ .invalid → exec .decStart s = .next { s with
      dec := { s.dec with bitCnt := 0, symCnt := 0, err := .none, cursor := s.dec.root, state := .run } }) ∧
    (nodeKind s s.dec.root = .invalid → exec .decStart s = .next { s with
      dec := { s.dec with bitCnt := 0, symCnt := 0, err := .emptyAlphabet, cursor := s.dec.root, state := .err } })

/-- R171, R172, R162: one input bit makes one transition of the automaton, whatever the cursor stands on. -/
def Obligations.OneBitMakesOneTransition : Prop :=
  ∀ (s : State) (data : BitVec 16), s.dec.state = .run →
    let n := s.dec.bitCnt + 1
    let cursor := s.dec.cursor
    let child := if data.getLsbD 15 then nodeRight s cursor else nodeLeft s cursor
    let corrupt : State := { s with dec := { s.dec with bitCnt := n, state := .err, err := .corruptStream } }
    let hit : Symbol → State := fun x => { s with
      dout := s.dout ++ [x]
      dec := { s.dec with bitCnt := n, symCnt := s.dec.symCnt + 1, cursor := s.dec.root } }
    (nodeKind s cursor = .invalid → exec (.decBits 1 data) s = .next corrupt) ∧
    (nodeKind s cursor = .leaf → data.getLsbD 15 = false → exec (.decBits 1 data) s = .next (hit (nodeSym s cursor))) ∧
    (nodeKind s cursor = .leaf → data.getLsbD 15 = true → exec (.decBits 1 data) s = .next corrupt) ∧
    (nodeKind s cursor = .internal → nodeKind s child = .invalid → exec (.decBits 1 data) s = .next corrupt) ∧
    (nodeKind s cursor = .internal → nodeKind s child = .leaf →
      exec (.decBits 1 data) s = .next (hit (nodeSym s child))) ∧
    (nodeKind s cursor = .internal → nodeKind s child = .internal →
      exec (.decBits 1 data) s = .next { s with dec := { s.dec with bitCnt := n, cursor := child } })

/-- R170: dec.bits consumes its bits in order, most significant first, and stops at an error: n + m bits in one command are
the first n bits in one and the next m in another, in every state, for all counts the command has (R93). Its encoding, and
its gate (R169). -/
def Obligations.DecBitsConsumesItsBitsInOrder : Prop :=
  EncodedAs 0xD (fun w => field w 20 8 = 0) (fun w => .decBits ((field w 16 4).toNat + 1) (field w 0 16)) ∧
  (∀ (s : State) (n m : Nat) (data : BitVec 16), 1 ≤ n → 1 ≤ m → n + m ≤ 16 →
    ∃ t1 t, exec (.decBits n data) s = .next t1 ∧ exec (.decBits m (data <<< n)) t1 = .next t ∧
      exec (.decBits (n + m) data) s = .next t) ∧
  (∀ (s : State) (n : Nat) (data data' : BitVec 16), 1 ≤ n → n ≤ 16 → (∀ i, i < n → data.getMsbD i = data'.getMsbD i) →
    exec (.decBits n data) s = exec (.decBits n data') s) ∧
  (∀ (s : State) (n : Nat) (data : BitVec 16), 1 ≤ n → n ≤ 16 →
    (s.dec.state = .idle ∨ s.dec.state = .done →
      exec (.decBits n data) s = .next { s with dec := { s.dec with state := .err, err := .sequenceError } }) ∧
    (s.dec.state = .err → exec (.decBits n data) s = .next s))

/-- R173: a DEC_BITS of n bits ends after at most n transitions, each of which counts one bit and emits at most one symbol.
(What it says of a count that is not 1 to 16 is the model's DESIGN CHOICE, log 16: no word has one.) -/
def Obligations.DecBitsMakesAtMostNTransitions : Prop :=
  ∀ (s : State) (n : Nat) (data : BitVec 16), ∃ t k out, exec (.decBits n data) s = .next t ∧
    k ≤ n ∧ t.dec.bitCnt = s.dec.bitCnt + BitVec.ofNat 32 k ∧ t.dout = s.dout ++ out ∧ out.length ≤ k ∧
    t.dec.symCnt = s.dec.symCnt + BitVec.ofNat 32 out.length

/-- R174: dec.end ends the session in DONE with the cursor at the root, else with CorruptStream; SequenceError, and no
effect in ERR. -/
def Obligations.DecEndChecksTheTerminalCondition : Prop :=
  EncodedAs 0xE (fun w => field w 0 28 = 0) (fun _ => .decEnd) ∧
  ∀ s : State,
    (s.dec.state = .run → s.dec.cursor = s.dec.root →
      exec .decEnd s = .next { s with dec := { s.dec with state := .done } }) ∧
    (s.dec.state = .run → s.dec.cursor ≠ s.dec.root →
      exec .decEnd s = .next { s with dec := { s.dec with state := .err, err := .corruptStream } }) ∧
    (s.dec.state = .idle ∨ s.dec.state = .done →
      exec .decEnd s = .next { s with dec := { s.dec with state := .err, err := .sequenceError } }) ∧
    (s.dec.state = .err → exec .decEnd s = .next s)

/-- R175: the decode law. `codeBook` gives each leaf its path, "0" for a root that is a leaf. (The rule's "no node is
reached twice" is not needed.) -/
def Obligations.DecodeLaw : Prop :=
  ∀ (s : State) (T : Tree) (L : List (Symbol × Bits)) (chunks : List (Nat × BitVec 16)),
    HoldsTree s T s.dec.root → (∀ p ∈ L, p ∈ codeBook T) → (∀ c ∈ chunks, 1 ≤ c.1 ∧ c.1 ≤ 16) →
    presentedBits chunks = L.flatMap Prod.snd →
    ∃ t, runCommands (.decStart :: (chunks.map (fun c => .decBits c.1 c.2) ++ [.decEnd])) s = .next t ∧
      t.dout = s.dout ++ L.map Prod.fst ∧ t.dec.symCnt = BitVec.ofNat 32 L.length ∧
      t.dec.bitCnt = BitVec.ofNat 32 (L.flatMap Prod.snd).length ∧ t.dec.state = .done ∧ t.dec.err = .none

/-- R177: a stream cut inside a code decodes its complete codes, raises nothing before dec.end, and there CorruptStream. -/
def Obligations.TruncatedStreamIsCorrupt : Prop :=
  ∀ (s : State) (T : Tree) (L : List (Symbol × Bits)) (x : Symbol) (p q : Bits) (chunks : List (Nat × BitVec 16)),
    HoldsTree s T s.dec.root → (∀ c ∈ L, c ∈ codeBook T) → (x, p ++ q) ∈ codeBook T → p ≠ [] → q ≠ [] →
    (∀ c ∈ chunks, 1 ≤ c.1 ∧ c.1 ≤ 16) → presentedBits chunks = L.flatMap Prod.snd ++ p →
    ∃ t1 t, runCommands (.decStart :: chunks.map (fun c => .decBits c.1 c.2)) s = .next t1 ∧
      t1.dec.state = .run ∧ t1.dec.err = .none ∧ t1.dout = s.dout ++ L.map Prod.fst ∧
      runCommands [.decEnd] t1 = .next t ∧ t.dec.state = .err ∧ t.dec.err = .corruptStream ∧ t.dout = t1.dout

/-! ### Rules about the whole machine -/

/-- R39, R233 (and R130, R160): no command of one engine changes anything of the other, nor ILL, nor what is the host's. -/
def Obligations.EnginesDoNotTouchEachOther : Prop :=
  ∀ (i : Instr) (s t : State), exec i s = .next t →
    (isEncoderCommand i = true → t = { s with enc := t.enc, eout := t.eout }) ∧
    (isDecoderCommand i = true → t = { s with dec := t.dec, dout := t.dout })

/-- R130, R143: what an encoder command does depends on nothing but the encoder's own state (draws among it). -/
def Obligations.EncoderReadsOnlyItsOwnState : Prop :=
  ∀ (i : Instr) (s s' : State), isEncoderCommand i = true → s.enc = s'.enc →
    (∀ x k, k < 256 → codeBit s x k = codeBit s' x k) →
    ∃ t t' out, exec i s = .next t ∧ exec i s' = .next t' ∧ t.enc = t'.enc ∧
      (∀ x k, k < 256 → codeBit t x k = codeBit t' x k) ∧ t.eout = s.eout ++ out ∧ t'.eout = s'.eout ++ out

/-- R160: what a decoder command does depends on nothing but the decoder's own state (draws among it). -/
def Obligations.DecoderReadsOnlyItsOwnState : Prop :=
  ∀ (i : Instr) (s s' : State), isDecoderCommand i = true → s.dec = s'.dec →
    (∀ k, nodeLeft s k = nodeLeft s' k ∧ nodeRight s k = nodeRight s' k ∧ nodeSym s k = nodeSym s' k) →
    ∃ t t' out, exec i s = .next t ∧ exec i s' = .next t' ∧ t.dec = t'.dec ∧
      (∀ k, nodeLeft t k = nodeLeft t' k ∧ nodeRight t k = nodeRight t' k ∧ nodeSym t k = nodeSym t' k) ∧
      t.dout = s.dout ++ out ∧ t'.dout = s'.dout ++ out

/-- R230, R232: an engine in ERR stays there, with its error, counters, packer and stream as they were, under every command but its own START and ctl.srst. -/
def Obligations.FirstEngineErrorIsKept : Prop :=
  ∀ (i : Instr) (s t : State), exec i s = .next t →
    (s.enc.state = .err → i ≠ .encStart → i ≠ .ctlSrst →
      t.enc.state = .err ∧ t.enc.err = s.enc.err ∧ t.enc.bitCnt = s.enc.bitCnt ∧ t.enc.symCnt = s.enc.symCnt ∧
        t.enc.pend = s.enc.pend ∧ t.eout = s.eout) ∧
    (s.dec.state = .err → i ≠ .decStart → i ≠ .ctlSrst →
      t.dec.state = .err ∧ t.dec.err = s.dec.err ∧ t.dec.bitCnt = s.dec.bitCnt ∧ t.dec.symCnt = s.dec.symCnt ∧
        t.dout = s.dout)

/-- R28: the only commands that change an engine's state, and to what. -/
def Obligations.EngineStateChangesOnlyAsListed : Prop :=
  ∀ (i : Instr) (s t : State), exec i s = .next t →
    (t.enc.state ≠ s.enc.state →
      (i = .encStart ∧ (t.enc.state = .run ∨ t.enc.state = .err)) ∨ ((∃ x, i = .encSym x) ∧ t.enc.state = .err) ∨
      (i = .encFlush ∧ (t.enc.state = .done ∨ t.enc.state = .err)) ∨ (i = .ctlSrst ∧ t.enc.state = .idle)) ∧
    (t.dec.state ≠ s.dec.state →
      (i = .decStart ∧ (t.dec.state = .run ∨ t.dec.state = .err)) ∨
      ((∃ n d, i = .decBits n d) ∧ t.dec.state = .err) ∨
      (i = .decEnd ∧ (t.dec.state = .done ∨ t.dec.state = .err)) ∨ (i = .ctlSrst ∧ t.dec.state = .idle))

/-- R31: ILL is set only by an illegal command word and cleared only by ctl.clrill, ctl.srst and reset. -/
def Obligations.IllIsStickyAndSetOnlyByIllegalWords : Prop :=
  ∀ s t : State, step s = .next t →
    (s.ill = false → t.ill = true → ∃ addr w rest e, s.pending = .write addr 4 w :: rest ∧ addr % 64 = 0x08 ∧
      decode w = .error e) ∧
    (s.ill = true → t.ill = false → ∃ a rest, s.pending = a :: rest ∧
      (a = .hardwareReset ∨ ∃ addr w, a = .write addr 4 w ∧ addr % 64 = 0x08 ∧
        (decode w = .ok .ctlClrill ∨ decode w = .ok .ctlSrst)))

/-- R40, R46: who writes the codebook, DEC.ROOT and DEC.CURSOR. -/
def Obligations.TablesAndPointersHaveTheirOwnWriters : Prop :=
  ∀ (i : Instr) (s t : State), exec i s = .next t → i ≠ .ctlSrst →
    ((∃ x, cbLen t x ≠ cbLen s x) → i = .encClr ∨ ∃ x l, i = .encSetlen x l) ∧
    ((∃ x k, codeBit t x k ≠ codeBit s x k) → ∃ x c d, i = .encLdcode x c d) ∧
    (t.dec.root ≠ s.dec.root → ∃ k, i = .decSetroot k) ∧
    (t.dec.cursor ≠ s.dec.cursor → (∃ k, i = .decSetroot k) ∨ i = .decStart ∨ ∃ n d, i = .decBits n d)

/-- R47: a code bit or a node field that a command does not write keeps its value, drawn or written, until a reset. -/
def Obligations.UnwrittenBitsKeepTheirDraw : Prop :=
  ∀ (i : Instr) (s t : State), exec i s = .next t → i ≠ .ctlSrst →
    (∀ x k, k < 256 → (∀ c d, i = .encLdcode x c d → k / 16 ≠ c.toNat) → codeBit t x k = codeBit s x k) ∧
    (∀ k, (∀ l r, i ≠ .decLdint k l r) → nodeLeft t k = nodeLeft s k ∧ nodeRight t k = nodeRight s k) ∧
    (∀ k, (∀ x, i ≠ .decLdleaf k x) → nodeSym t k = nodeSym s k)

/-- R49: a step appends to the streams and never removes or rewrites an element, hardware reset apart (R251). -/
def Obligations.StreamsOnlyGrow : Prop :=
  ∀ s t : State, step s = .next t → (∀ rest, s.pending ≠ .hardwareReset :: rest) →
    ∃ e d, t.eout = s.eout ++ e ∧ t.dout = s.dout ++ d

/-- The invariant holds right after reset. -/
def Obligations.ResetStateMeetsTheInvariant : Prop := Inv State.reset

/-- Every step keeps the invariant: canonical RAMs (log 4), the packer shorter than a byte (R48), the error code nonzero
exactly in ERR (R29), the cursor at the root in IDLE and DONE, and no stream element taken before it is there. -/
def Obligations.EveryStepKeepsTheInvariant : Prop := ∀ s t : State, Inv s → step s = .next t → Inv t

/-! ### Host software and the round trip -/

/-- R102: every command of the syntax table is accepted exactly when its operands fit their fields, and its word is the one the
table gives; a command without operands takes none. (From mnemonic and operands; text is log 18.) -/
def Obligations.AssemblerRejectsWhatDoesNotFit : Prop :=
  (∀ m ops cmds, assemble m ops = some cmds → ∀ i ∈ cmds, i.wf = true) ∧
  (∀ p ∈ ([(.ctlNop, 0x00000000), (.ctlClrill, 0x00000001), (.ctlSrst, 0x00000002), (.encClr, 0x10000000),
      (.encStart, 0x40000000), (.encFlush, 0x60000000), (.decClr, 0x80000000), (.decStart, 0xC0000000),
      (.decEnd, 0xE0000000)] : List (Mnemonic × Word)),
    (assemble p.1 []).map (fun l => l.map encode) = some [p.2] ∧ ∀ op ops, assemble p.1 (op :: ops) = none) ∧
  (∀ x c d, if x ≤ 255 ∧ c ≤ 15 ∧ d ≤ 0xFFFF
    then ∃ i, assemble .encLdcode [.num x, .num c, .num d] = some [i] ∧
      (encode i).toNat = 2 * 2 ^ 28 + x * 2 ^ 20 + c * 2 ^ 16 + d
    else assemble .encLdcode [.num x, .num c, .num d] = none) ∧
  (∀ x l, if x ≤ 255 ∧ l ≤ 255
    then ∃ i, assemble .encSetlen [.num x, .num l] = some [i] ∧ (encode i).toNat = 3 * 2 ^ 28 + x * 2 ^ 20 + l
    else assemble .encSetlen [.num x, .num l] = none) ∧
  (∀ x, if x ≤ 255
    then ∃ i, assemble .encSym [.num x] = some [i] ∧ (encode i).toNat = 5 * 2 ^ 28 + x
    else assemble .encSym [.num x] = none) ∧
  (∀ i l r, if i ≤ 511 ∧ l ≤ 511 ∧ r ≤ 511
    then ∃ k, assemble .decLdint [.num i, .num l, .num r] = some [k] ∧
      (encode k).toNat = 9 * 2 ^ 28 + i * 2 ^ 18 + l * 2 ^ 9 + r
    else assemble .decLdint [.num i, .num l, .num r] = none) ∧
  (∀ i x, if i ≤ 511 ∧ x ≤ 255
    then ∃ k, assemble .decLdleaf [.num i, .num x] = some [k] ∧ (encode k).toNat = 10 * 2 ^ 28 + i * 2 ^ 18 + x
    else assemble .decLdleaf [.num i, .num x] = none) ∧
  (∀ i, if i ≤ 511
    then ∃ k, assemble .decSetroot [.num i] = some [k] ∧ (encode k).toNat = 11 * 2 ^ 28 + i
    else assemble .decSetroot [.num i] = none) ∧
  (∀ n d, if 1 ≤ n ∧ n ≤ 16 ∧ d ≤ 0xFFFF
    then ∃ k, assemble .decBits [.num n, .num d] = some [k] ∧ (encode k).toNat = 13 * 2 ^ 28 + (n - 1) * 2 ^ 16 + d
    else assemble .decBits [.num n, .num d] = none)

/-- R103: the expansion of every pseudo-command, accepted exactly when its operands fit (R102). -/
def Obligations.PseudoCommandsExpandAsGiven : Prop :=
  (∀ x b, if x ≤ 255 ∧ 1 ≤ b.length ∧ b.length ≤ 255
    then ∃ cmds, assemble .encCode [.num x, .bits b] = some cmds ∧ cmds.length = (b.length + 15) / 16 + 1 ∧
      (∀ c, c < (b.length + 15) / 16 → ∃ d : BitVec 16,
        cmds[c]? = some (.encLdcode (BitVec.ofNat 8 x) (BitVec.ofNat 4 c) d) ∧
        ∀ j, j < 16 → d.getMsbD j = b.getD (16 * c + j) false) ∧
      cmds[(b.length + 15) / 16]? = some (.encSetlen (BitVec.ofNat 8 x) (BitVec.ofNat 8 b.length))
    else assemble .encCode [.num x, .bits b] = none) ∧
  (∀ x, if x ≤ 255 then assemble .encDrop [.num x] = some [.encSetlen (BitVec.ofNat 8 x) 0]
    else assemble .encDrop [.num x] = none) ∧
  (∀ b, if b ≤ 255
    then ∃ k, assemble .decFeed8 [.num b] = some [k] ∧ (encode k).toNat = 13 * 2 ^ 28 + 7 * 2 ^ 16 + b * 2 ^ 8
    else assemble .decFeed8 [.num b] = none) ∧
  (∀ b0 b1, if b0 ≤ 255 ∧ b1 ≤ 255
    then ∃ k, assemble .decFeed16 [.num b0, .num b1] = some [k] ∧
      (encode k).toNat = 13 * 2 ^ 28 + 15 * 2 ^ 16 + b0 * 2 ^ 8 + b1
    else assemble .decFeed16 [.num b0, .num b1] = none) ∧
  (∀ b, if 1 ≤ b.length ∧ b.length ≤ 16
    then ∃ d : BitVec 16, assemble .decFeedstr [.bits b] = some [.decBits b.length d] ∧
      ∀ j, j < 16 → d.getMsbD j = b.getD j false
    else assemble .decFeedstr [.bits b] = none)

/-- R103: enc.code leaves the entry holding the code, and nothing else changed. -/
def Obligations.EncCodeLoadsTheCode : Prop :=
  ∀ (s : State) (x : Symbol) (c : Bits), 1 ≤ c.length → c.length ≤ 255 →
    ∃ t, runCommands (encCode x c) s = .next t ∧ HoldsCode t x c ∧
      (∀ y, y ≠ x → cbLen t y = cbLen s y ∧ ∀ k, k < 256 → codeBit t y k = codeBit s y k) ∧
      t = { s with pending := [], reply := .none, enc := { s.enc with len := t.enc.len, code := t.enc.code } }

/-- R206: the commands that load a tree, in any order (that of `loadTree` is log 24's), under any numbering that gives its nodes
distinct indices, leave the node table holding the tree at the root. -/
def Obligations.LoadTreeLeavesTheTableHoldingIt : Prop :=
  ∀ (s : State) (num : Bits → NodeIdx) (T : Tree) (load : List Instr), (T.positions.map num).Nodup →
    load.Perm (loadTree num T) →
    ∃ t, runCommands load s = .next t ∧ HoldsTree t T t.dec.root ∧ t.dec.root = num [] ∧
      t.dec.cursor = num [] ∧ t.enc = s.enc ∧ t.dec.state = s.dec.state ∧ t.dout = s.dout ∧ t.eout = s.eout

/-- R206: a tree of N leaves has 2N − 1 nodes; every code has length at most N − 1 where N ≥ 2, and length 1 where N = 1. So with
at most 256 leaves there are at most 511 nodes and every code has at most 255 bits: it fits the tables. -/
def Obligations.TreesAndCodesFitTheTables : Prop :=
  ∀ T : Tree, T.positions.length = 2 * T.leaves.length - 1 ∧ T.size = T.positions.length ∧
    (∀ p ∈ codeBook T, 1 ≤ p.2.length ∧ (2 ≤ T.leaves.length → p.2.length ≤ T.leaves.length - 1) ∧
      (T.leaves.length = 1 → p.2 = [false])) ∧
    (T.leaves.length ≤ 256 → T.positions.length ≤ 511 ∧ ∀ p ∈ codeBook T, p.2.length ≤ 255)

/-- R202: extractMin takes a node of least frequency off a queue that has one, and every node of least frequency is the pick
of some TIEBREAK. -/
def Obligations.ExtractMinPicksALeastNode : Prop :=
  ∀ q : Queue, q ≠ [] →
    (∀ tie : TieBreak, ∃ n rest, extractMin tie q = some (n, rest) ∧ q.Perm (n :: rest) ∧ ∀ m ∈ q, n.1 ≤ m.1) ∧
    (∀ n ∈ q, (∀ m ∈ q, n.1 ≤ m.1) → ∃ (tie : TieBreak) (rest : Queue), extractMin tie q = some (n, rest))

/-- R202, R203: under every TIEBREAK, build of a FrequencyTable gives a tree whose leaves are the table's symbols, each
once; it fails with EmptyAlphabet exactly on the empty table. -/
def Obligations.BuildHasOneLeafPerSymbol : Prop :=
  ∀ (tie : TieBreak) (table : List (Symbol × Nat)),
    (table = [] → build tie table = .error .emptyAlphabet) ∧
    (table ≠ [] → ∃ T, build tie table = .ok T ∧ T.leaves.Perm (table.map Prod.fst))

/-- R208: a tree's CodeBook is prefix-free: no entry's code is a prefix of another entry's. -/
def Obligations.CodeBookIsPrefixFree : Prop :=
  ∀ T : Tree, ∀ p ∈ codeBook T, ∀ q ∈ codeBook T, p.2 <+: q.2 → p = q

/-- R261: `feedBits`, which takes 8 bits a command (log 23), is one of the ways to feed exactly the first n bits of a byte
sequence. -/
def Obligations.FeedBitsFeedsExactly : Prop :=
  ∀ (n : Nat) (bytes : List Byte), n ≤ 8 * bytes.length →
    ∃ chunks, FeedsExactly chunks n bytes ∧ feedBits n bytes = chunks.map (fun c => .decBits c.1 c.2)

/-- The round trip of any tables that describe one tree (R262): the bits an encode session emits, fed back exactly
(R261) in dec.bits commands of any sizes, decode to the symbols encoded, and both engines end in DONE. The last clause is the
same of `decodeSession`, which takes 8 bits a command (log 23). -/
def Obligations.RoundTripOfConsistentTables : Prop :=
  ∀ (s : State) (T : Tree) (S : List Symbol), S ≠ [] → HoldsTree s T s.dec.root →
    (∀ x ∈ S, ∃ c, (x, c) ∈ codeBook T ∧ HoldsCode s x c) → (encodedBits s S).length < 2 ^ 32 →
    ∃ t, runCommands (encodeSession S) s = .next t ∧
      (∀ chunks, FeedsExactly chunks t.enc.bitCnt.toNat (t.eout.drop s.eout.length) →
        ∃ u, runCommands (feedSession chunks) t = .next u ∧
          u.dout = s.dout ++ S ∧ u.enc.state = .done ∧ u.dec.state = .done) ∧
      ∃ u, runCommands (decodeSession t.enc.bitCnt.toNat (t.eout.drop s.eout.length)) t = .next u ∧
        u.dout = s.dout ++ S ∧ u.enc.state = .done ∧ u.dec.state = .done

/-- R207: the round-trip law, from any state of the block, for every TIEBREAK, every iteration order of the table, every
numbering of the nodes, every size of the dec.bits commands that feed the stream back, and the loading commands in any order,
those of R103, R206, R253 and R254 among them. At least one way to feed the stream exists. -/
def Obligations.HuffmanRoundTrip : Prop :=
  ∀ (s : State) (S : List Symbol) (table : List (Symbol × Nat)) (tie : TieBreak), S ≠ [] → IsFrequencyTable S table →
    ∃ T, build tie table = .ok T ∧
      ∀ (num : Bits → NodeIdx) (load : List Instr), (T.positions.map num).Nodup →
        load.Perm (loadTree num T ++ loadCodeBook (codeBook T)) →
        ∃ s1, runCommands load s = .next s1 ∧
          ((encodedBits s1 S).length < 2 ^ 32 →
            ∃ t, runCommands (encodeSession S) s1 = .next t ∧
              (∃ chunks, FeedsExactly chunks t.enc.bitCnt.toNat (t.eout.drop s1.eout.length)) ∧
              ∀ chunks, FeedsExactly chunks t.enc.bitCnt.toNat (t.eout.drop s1.eout.length) →
                ∃ u, runCommands (feedSession chunks) t = .next u ∧
                  u.dout = s1.dout ++ S ∧ u.enc.state = .done ∧ u.dec.state = .done)
end

