-- ==== Sys2Proof/Laws/Ram.lean ====
section
/-! SUPPORT. The laws of the sparse RAMs: a read after a write, and the canonical form is kept. -/

namespace Sys2Proof.Machine

variable {α : Type}

theorem Ram.read?_write (k j : Nat) (v : α) (r : Ram α) :
    Ram.read? (Ram.write k v r) j = if j = k then some v else Ram.read? r j := by
  induction r with
  | nil => simp [Ram.write, Ram.read?]
  | cons p r ih =>
    obtain ⟨a, x⟩ := p
    simp only [Ram.write]
    split
    · simp [Ram.read?]
    · split
      · subst_vars; simp only [Ram.read?]; split <;> rfl
      · simp only [Ram.read?, ih]
        split <;> split <;> first | rfl | omega

theorem Ram.read?_erase (k j : Nat) (r : Ram α) :
    Ram.read? (Ram.erase k r) j = if j = k then none else Ram.read? r j := by
  induction r with
  | nil => simp [Ram.erase, Ram.read?]
  | cons p r ih =>
    obtain ⟨a, x⟩ := p
    simp only [Ram.erase, List.filter_cons] at ih ⊢
    by_cases ha : a = k
    · simp only [ha, ne_eq, not_true_eq_false, decide_false, Bool.false_eq_true, if_false, ih, Ram.read?]
      split <;> rfl
    · simp only [ne_eq, ha, not_false_eq_true, decide_true, if_true, Ram.read?, ih]
      split <;> split <;> first | rfl | omega

theorem Ram.getD_read?_put [DecidableEq α] (d : α) (k j : Nat) (v : α) (r : Ram α) :
    (Ram.read? (Ram.put d k v r) j).getD d = if j = k then v else (Ram.read? r j).getD d := by
  unfold Ram.put
  split
  · subst_vars; rw [Ram.read?_erase]; split <;> simp
  · rw [Ram.read?_write]; split <;> simp

/-- Rising indices, in the library's words. -/
theorem Ram.rising_iff (r : Ram α) : Ram.rising r = true ↔ (r.map Prod.fst).Pairwise (· < ·) := by
  induction r with
  | nil => simp [Ram.rising]
  | cons p r ih =>
    cases r with
    | nil => simp [Ram.rising]
    | cons q r =>
      simp only [Ram.rising, Bool.and_eq_true, decide_eq_true_eq, ih, List.map_cons, List.pairwise_cons]
      constructor
      · rintro ⟨h, hq, hr⟩
        refine ⟨?_, hq, hr⟩
        intro b hb
        rcases List.mem_cons.1 hb with rfl | hb
        · exact h
        · exact h.trans (hq b hb)
      · rintro ⟨h, hr⟩
        exact ⟨h _ List.mem_cons_self, hr⟩

theorem Ram.mem_write {k : Nat} {v : α} {r : Ram α} {p : Nat × α} (h : p ∈ Ram.write k v r) : p = (k, v) ∨ p ∈ r := by
  induction r with
  | nil => simpa [Ram.write] using h
  | cons q r ih =>
    simp only [Ram.write] at h
    split at h
    · rcases List.mem_cons.1 h with h | h
      · exact .inl h
      · exact .inr h
    · split at h
      · rcases List.mem_cons.1 h with h | h
        · exact .inl h
        · exact .inr (List.mem_cons_of_mem _ h)
      · rcases List.mem_cons.1 h with h | h
        · exact .inr (h ▸ List.mem_cons_self)
        · exact (ih h).imp id (List.mem_cons_of_mem _)

theorem Ram.rising_write (k : Nat) (v : α) (r : Ram α) (h : Ram.rising r = true) : Ram.rising (Ram.write k v r) = true := by
  rw [Ram.rising_iff] at h ⊢
  induction r with
  | nil => simp [Ram.write]
  | cons q r ih =>
    obtain ⟨a, x⟩ := q
    simp only [List.map_cons, List.pairwise_cons] at h
    simp only [Ram.write]
    split
    · rename_i hk
      simp only [List.map_cons, List.pairwise_cons]
      refine ⟨?_, h.1, h.2⟩
      intro b hb
      rcases List.mem_cons.1 hb with rfl | hb
      · exact hk
      · exact hk.trans (h.1 b hb)
    · split
      · subst_vars; simpa using h
      · simp only [List.map_cons, List.pairwise_cons]
        refine ⟨?_, ih h.2⟩
        intro b hb
        obtain ⟨p, hp, rfl⟩ := List.mem_map.1 hb
        rcases Ram.mem_write hp with rfl | hp
        · simp only; omega
        · exact h.1 _ (List.mem_map_of_mem hp)

/-- The canonical form, as a proposition. -/
theorem Ram.wf_iff (n : Nat) (r : Ram α) : Ram.wf n r = true ↔ Ram.rising r = true ∧ ∀ p ∈ r, p.1 < n := by
  simp [Ram.wf, List.all_eq_true]

theorem Ram.wf_write {n k : Nat} (v : α) {r : Ram α} (hk : k < n) (h : Ram.wf n r = true) :
    Ram.wf n (Ram.write k v r) = true := by
  rw [Ram.wf_iff] at h ⊢
  refine ⟨Ram.rising_write k v r h.1, fun p hp => ?_⟩
  rcases Ram.mem_write hp with rfl | hp
  · exact hk
  · exact h.2 p hp

theorem Ram.wf_erase {n : Nat} (k : Nat) {r : Ram α} (h : Ram.wf n r = true) : Ram.wf n (Ram.erase k r) = true := by
  rw [Ram.wf_iff, Ram.rising_iff] at h ⊢
  exact ⟨h.1.sublist (List.filter_sublist.map _), fun p hp => h.2 p (List.mem_of_mem_filter hp)⟩

theorem Ram.wf_put [DecidableEq α] (d : α) {n k : Nat} (v : α) {r : Ram α} (hk : k < n) (h : Ram.wf n r = true) :
    Ram.wf n (Ram.put d k v r) = true := by
  unfold Ram.put
  split
  · exact Ram.wf_erase k h
  · exact Ram.wf_write v hk h

/-- No entry of a RAM written by `put` equals the value unlisted indices read as. -/
theorem Ram.put_no_default [DecidableEq α] (d : α) (k : Nat) (v : α) {r : Ram α} (h : ∀ p ∈ r, p.2 ≠ d) :
    ∀ p ∈ Ram.put d k v r, p.2 ≠ d := by
  intro p hp
  unfold Ram.put at hp
  split at hp
  · exact h p (List.mem_of_mem_filter hp)
  · rcases Ram.mem_write hp with rfl | hp
    · assumption
    · exact h p hp

end Sys2Proof.Machine
end

