-- ==== Sys2Proof/Laws/State.lean ====
section
/-! SUPPORT. What each named update of State leaves and what it writes: one lemma per update, each true by rfl; simp splits
the conjunctions, so that no later proof unfolds a record update. -/

namespace Sys2Proof.Machine

variable (s : State)

@[simp] theorem setCbLen_fields (x : Symbol) (v : BitVec 8) :
    (setCbLen x v s).ill = s.ill ∧ (setCbLen x v s).dec = s.dec ∧ (setCbLen x v s).eout = s.eout ∧
    (setCbLen x v s).dout = s.dout ∧ (setCbLen x v s).eoutTaken = s.eoutTaken ∧
    (setCbLen x v s).doutTaken = s.doutTaken ∧ (setCbLen x v s).epoch = s.epoch ∧
    (setCbLen x v s).pending = s.pending ∧ (setCbLen x v s).reply = s.reply ∧
    (setCbLen x v s).enc.state = s.enc.state ∧ (setCbLen x v s).enc.err = s.enc.err ∧
    (setCbLen x v s).enc.bitCnt = s.enc.bitCnt ∧ (setCbLen x v s).enc.symCnt = s.enc.symCnt ∧
    (setCbLen x v s).enc.pend = s.enc.pend ∧ (setCbLen x v s).enc.len = Ram.put 0 x.toNat v s.enc.len ∧
    (setCbLen x v s).enc.code = s.enc.code :=
  ⟨rfl, rfl, rfl, rfl, rfl, rfl, rfl, rfl, rfl, rfl, rfl, rfl, rfl, rfl, rfl, rfl⟩

@[simp] theorem setCodeChunk_fields (x : Symbol) (c : Nat) (v : BitVec 16) :
    (setCodeChunk x c v s).ill = s.ill ∧ (setCodeChunk x c v s).dec = s.dec ∧ (setCodeChunk x c v s).eout = s.eout ∧
    (setCodeChunk x c v s).dout = s.dout ∧ (setCodeChunk x c v s).eoutTaken = s.eoutTaken ∧
    (setCodeChunk x c v s).doutTaken = s.doutTaken ∧ (setCodeChunk x c v s).epoch = s.epoch ∧
    (setCodeChunk x c v s).pending = s.pending ∧ (setCodeChunk x c v s).reply = s.reply ∧
    (setCodeChunk x c v s).enc.state = s.enc.state ∧ (setCodeChunk x c v s).enc.err = s.enc.err ∧
    (setCodeChunk x c v s).enc.bitCnt = s.enc.bitCnt ∧ (setCodeChunk x c v s).enc.symCnt = s.enc.symCnt ∧
    (setCodeChunk x c v s).enc.pend = s.enc.pend ∧ (setCodeChunk x c v s).enc.len = s.enc.len ∧
    (setCodeChunk x c v s).enc.code = Ram.write (chunkKey x c) v s.enc.code :=
  ⟨rfl, rfl, rfl, rfl, rfl, rfl, rfl, rfl, rfl, rfl, rfl, rfl, rfl, rfl, rfl, rfl⟩

@[simp] theorem clearCbLens_fields :
    (clearCbLens s).ill = s.ill ∧ (clearCbLens s).dec = s.dec ∧ (clearCbLens s).eout = s.eout ∧
    (clearCbLens s).dout = s.dout ∧ (clearCbLens s).eoutTaken = s.eoutTaken ∧
    (clearCbLens s).doutTaken = s.doutTaken ∧ (clearCbLens s).epoch = s.epoch ∧
    (clearCbLens s).pending = s.pending ∧ (clearCbLens s).reply = s.reply ∧
    (clearCbLens s).enc.state = s.enc.state ∧ (clearCbLens s).enc.err = s.enc.err ∧
    (clearCbLens s).enc.bitCnt = s.enc.bitCnt ∧ (clearCbLens s).enc.symCnt = s.enc.symCnt ∧
    (clearCbLens s).enc.pend = s.enc.pend ∧ (clearCbLens s).enc.len = [] ∧ (clearCbLens s).enc.code = s.enc.code :=
  ⟨rfl, rfl, rfl, rfl, rfl, rfl, rfl, rfl, rfl, rfl, rfl, rfl, rfl, rfl, rfl, rfl⟩

@[simp] theorem setPend_fields (p : Bits) :
    (setPend p s).ill = s.ill ∧ (setPend p s).dec = s.dec ∧ (setPend p s).eout = s.eout ∧
    (setPend p s).dout = s.dout ∧ (setPend p s).eoutTaken = s.eoutTaken ∧ (setPend p s).doutTaken = s.doutTaken ∧
    (setPend p s).epoch = s.epoch ∧ (setPend p s).pending = s.pending ∧ (setPend p s).reply = s.reply ∧
    (setPend p s).enc.state = s.enc.state ∧ (setPend p s).enc.err = s.enc.err ∧
    (setPend p s).enc.bitCnt = s.enc.bitCnt ∧ (setPend p s).enc.symCnt = s.enc.symCnt ∧ (setPend p s).enc.pend = p ∧
    (setPend p s).enc.len = s.enc.len ∧ (setPend p s).enc.code = s.enc.code :=
  ⟨rfl, rfl, rfl, rfl, rfl, rfl, rfl, rfl, rfl, rfl, rfl, rfl, rfl, rfl, rfl, rfl⟩

@[simp] theorem incEncBitCnt_fields :
    (incEncBitCnt s).ill = s.ill ∧ (incEncBitCnt s).dec = s.dec ∧ (incEncBitCnt s).eout = s.eout ∧
    (incEncBitCnt s).dout = s.dout ∧ (incEncBitCnt s).eoutTaken = s.eoutTaken ∧
    (incEncBitCnt s).doutTaken = s.doutTaken ∧ (incEncBitCnt s).epoch = s.epoch ∧
    (incEncBitCnt s).pending = s.pending ∧ (incEncBitCnt s).reply = s.reply ∧
    (incEncBitCnt s).enc.state = s.enc.state ∧ (incEncBitCnt s).enc.err = s.enc.err ∧
    (incEncBitCnt s).enc.bitCnt = inc32 s.enc.bitCnt ∧ (incEncBitCnt s).enc.symCnt = s.enc.symCnt ∧
    (incEncBitCnt s).enc.pend = s.enc.pend ∧ (incEncBitCnt s).enc.len = s.enc.len ∧
    (incEncBitCnt s).enc.code = s.enc.code :=
  ⟨rfl, rfl, rfl, rfl, rfl, rfl, rfl, rfl, rfl, rfl, rfl, rfl, rfl, rfl, rfl, rfl⟩

@[simp] theorem incEncSymCnt_fields :
    (incEncSymCnt s).ill = s.ill ∧ (incEncSymCnt s).dec = s.dec ∧ (incEncSymCnt s).eout = s.eout ∧
    (incEncSymCnt s).dout = s.dout ∧ (incEncSymCnt s).eoutTaken = s.eoutTaken ∧
    (incEncSymCnt s).doutTaken = s.doutTaken ∧ (incEncSymCnt s).epoch = s.epoch ∧
    (incEncSymCnt s).pending = s.pending ∧ (incEncSymCnt s).reply = s.reply ∧
    (incEncSymCnt s).enc.state = s.enc.state ∧ (incEncSymCnt s).enc.err = s.enc.err ∧
    (incEncSymCnt s).enc.bitCnt = s.enc.bitCnt ∧ (incEncSymCnt s).enc.symCnt = inc32 s.enc.symCnt ∧
    (incEncSymCnt s).enc.pend = s.enc.pend ∧ (incEncSymCnt s).enc.len = s.enc.len ∧
    (incEncSymCnt s).enc.code = s.enc.code :=
  ⟨rfl, rfl, rfl, rfl, rfl, rfl, rfl, rfl, rfl, rfl, rfl, rfl, rfl, rfl, rfl, rfl⟩

@[simp] theorem setEncState_fields (v : EngState) :
    (setEncState v s).ill = s.ill ∧ (setEncState v s).dec = s.dec ∧ (setEncState v s).eout = s.eout ∧
    (setEncState v s).dout = s.dout ∧ (setEncState v s).eoutTaken = s.eoutTaken ∧
    (setEncState v s).doutTaken = s.doutTaken ∧ (setEncState v s).epoch = s.epoch ∧
    (setEncState v s).pending = s.pending ∧ (setEncState v s).reply = s.reply ∧ (setEncState v s).enc.state = v ∧
    (setEncState v s).enc.err = s.enc.err ∧ (setEncState v s).enc.bitCnt = s.enc.bitCnt ∧
    (setEncState v s).enc.symCnt = s.enc.symCnt ∧ (setEncState v s).enc.pend = s.enc.pend ∧
    (setEncState v s).enc.len = s.enc.len ∧ (setEncState v s).enc.code = s.enc.code :=
  ⟨rfl, rfl, rfl, rfl, rfl, rfl, rfl, rfl, rfl, rfl, rfl, rfl, rfl, rfl, rfl, rfl⟩

@[simp] theorem raiseE_fields (code : ErrCode) :
    (raiseE code s).ill = s.ill ∧ (raiseE code s).dec = s.dec ∧ (raiseE code s).eout = s.eout ∧
    (raiseE code s).dout = s.dout ∧ (raiseE code s).eoutTaken = s.eoutTaken ∧
    (raiseE code s).doutTaken = s.doutTaken ∧ (raiseE code s).epoch = s.epoch ∧
    (raiseE code s).pending = s.pending ∧ (raiseE code s).reply = s.reply ∧ (raiseE code s).enc.state = .err ∧
    (raiseE code s).enc.err = code ∧ (raiseE code s).enc.bitCnt = s.enc.bitCnt ∧
    (raiseE code s).enc.symCnt = s.enc.symCnt ∧ (raiseE code s).enc.pend = s.enc.pend ∧
    (raiseE code s).enc.len = s.enc.len ∧ (raiseE code s).enc.code = s.enc.code :=
  ⟨rfl, rfl, rfl, rfl, rfl, rfl, rfl, rfl, rfl, rfl, rfl, rfl, rfl, rfl, rfl, rfl⟩

@[simp] theorem openEncSession_fields :
    (openEncSession s).ill = s.ill ∧ (openEncSession s).dec = s.dec ∧ (openEncSession s).eout = s.eout ∧
    (openEncSession s).dout = s.dout ∧ (openEncSession s).eoutTaken = s.eoutTaken ∧
    (openEncSession s).doutTaken = s.doutTaken ∧ (openEncSession s).epoch = s.epoch ∧
    (openEncSession s).pending = s.pending ∧ (openEncSession s).reply = s.reply ∧
    (openEncSession s).enc.state = s.enc.state ∧ (openEncSession s).enc.err = .none ∧
    (openEncSession s).enc.bitCnt = 0 ∧ (openEncSession s).enc.symCnt = 0 ∧ (openEncSession s).enc.pend = [] ∧
    (openEncSession s).enc.len = s.enc.len ∧ (openEncSession s).enc.code = s.enc.code :=
  ⟨rfl, rfl, rfl, rfl, rfl, rfl, rfl, rfl, rfl, rfl, rfl, rfl, rfl, rfl, rfl, rfl⟩

@[simp] theorem setNodeKind_fields (i : NodeIdx) (v : NodeKind) :
    (setNodeKind i v s).ill = s.ill ∧ (setNodeKind i v s).enc = s.enc ∧ (setNodeKind i v s).eout = s.eout ∧
    (setNodeKind i v s).dout = s.dout ∧ (setNodeKind i v s).eoutTaken = s.eoutTaken ∧
    (setNodeKind i v s).doutTaken = s.doutTaken ∧ (setNodeKind i v s).epoch = s.epoch ∧
    (setNodeKind i v s).pending = s.pending ∧ (setNodeKind i v s).reply = s.reply ∧
    (setNodeKind i v s).dec.state = s.dec.state ∧ (setNodeKind i v s).dec.err = s.dec.err ∧
    (setNodeKind i v s).dec.bitCnt = s.dec.bitCnt ∧ (setNodeKind i v s).dec.symCnt = s.dec.symCnt ∧
    (setNodeKind i v s).dec.root = s.dec.root ∧ (setNodeKind i v s).dec.cursor = s.dec.cursor ∧
    (setNodeKind i v s).dec.kind = Ram.put .invalid i.toNat v s.dec.kind ∧
    (setNodeKind i v s).dec.left = s.dec.left ∧ (setNodeKind i v s).dec.right = s.dec.right ∧
    (setNodeKind i v s).dec.sym = s.dec.sym :=
  ⟨rfl, rfl, rfl, rfl, rfl, rfl, rfl, rfl, rfl, rfl, rfl, rfl, rfl, rfl, rfl, rfl, rfl, rfl, rfl⟩

@[simp] theorem setNodeChildren_fields (i l r : NodeIdx) :
    (setNodeChildren i l r s).ill = s.ill ∧ (setNodeChildren i l r s).enc = s.enc ∧
    (setNodeChildren i l r s).eout = s.eout ∧ (setNodeChildren i l r s).dout = s.dout ∧
    (setNodeChildren i l r s).eoutTaken = s.eoutTaken ∧ (setNodeChildren i l r s).doutTaken = s.doutTaken ∧
    (setNodeChildren i l r s).epoch = s.epoch ∧ (setNodeChildren i l r s).pending = s.pending ∧
    (setNodeChildren i l r s).reply = s.reply ∧ (setNodeChildren i l r s).dec.state = s.dec.state ∧
    (setNodeChildren i l r s).dec.err = s.dec.err ∧ (setNodeChildren i l r s).dec.bitCnt = s.dec.bitCnt ∧
    (setNodeChildren i l r s).dec.symCnt = s.dec.symCnt ∧ (setNodeChildren i l r s).dec.root = s.dec.root ∧
    (setNodeChildren i l r s).dec.cursor = s.dec.cursor ∧ (setNodeChildren i l r s).dec.kind = s.dec.kind ∧
    (setNodeChildren i l r s).dec.left = Ram.write i.toNat l s.dec.left ∧
    (setNodeChildren i l r s).dec.right = Ram.write i.toNat r s.dec.right ∧
    (setNodeChildren i l r s).dec.sym = s.dec.sym :=
  ⟨rfl, rfl, rfl, rfl, rfl, rfl, rfl, rfl, rfl, rfl, rfl, rfl, rfl, rfl, rfl, rfl, rfl, rfl, rfl⟩

@[simp] theorem setNodeSym_fields (i : NodeIdx) (x : Symbol) :
    (setNodeSym i x s).ill = s.ill ∧ (setNodeSym i x s).enc = s.enc ∧ (setNodeSym i x s).eout = s.eout ∧
    (setNodeSym i x s).dout = s.dout ∧ (setNodeSym i x s).eoutTaken = s.eoutTaken ∧
    (setNodeSym i x s).doutTaken = s.doutTaken ∧ (setNodeSym i x s).epoch = s.epoch ∧
    (setNodeSym i x s).pending = s.pending ∧ (setNodeSym i x s).reply = s.reply ∧
    (setNodeSym i x s).dec.state = s.dec.state ∧ (setNodeSym i x s).dec.err = s.dec.err ∧
    (setNodeSym i x s).dec.bitCnt = s.dec.bitCnt ∧ (setNodeSym i x s).dec.symCnt = s.dec.symCnt ∧
    (setNodeSym i x s).dec.root = s.dec.root ∧ (setNodeSym i x s).dec.cursor = s.dec.cursor ∧
    (setNodeSym i x s).dec.kind = s.dec.kind ∧ (setNodeSym i x s).dec.left = s.dec.left ∧
    (setNodeSym i x s).dec.right = s.dec.right ∧ (setNodeSym i x s).dec.sym = Ram.write i.toNat x s.dec.sym :=
  ⟨rfl, rfl, rfl, rfl, rfl, rfl, rfl, rfl, rfl, rfl, rfl, rfl, rfl, rfl, rfl, rfl, rfl, rfl, rfl⟩

@[simp] theorem clearNodeKinds_fields :
    (clearNodeKinds s).ill = s.ill ∧ (clearNodeKinds s).enc = s.enc ∧ (clearNodeKinds s).eout = s.eout ∧
    (clearNodeKinds s).dout = s.dout ∧ (clearNodeKinds s).eoutTaken = s.eoutTaken ∧
    (clearNodeKinds s).doutTaken = s.doutTaken ∧ (clearNodeKinds s).epoch = s.epoch ∧
    (clearNodeKinds s).pending = s.pending ∧ (clearNodeKinds s).reply = s.reply ∧
    (clearNodeKinds s).dec.state = s.dec.state ∧ (clearNodeKinds s).dec.err = s.dec.err ∧
    (clearNodeKinds s).dec.bitCnt = s.dec.bitCnt ∧ (clearNodeKinds s).dec.symCnt = s.dec.symCnt ∧
    (clearNodeKinds s).dec.root = s.dec.root ∧ (clearNodeKinds s).dec.cursor = s.dec.cursor ∧
    (clearNodeKinds s).dec.kind = [] ∧ (clearNodeKinds s).dec.left = s.dec.left ∧
    (clearNodeKinds s).dec.right = s.dec.right ∧ (clearNodeKinds s).dec.sym = s.dec.sym :=
  ⟨rfl, rfl, rfl, rfl, rfl, rfl, rfl, rfl, rfl, rfl, rfl, rfl, rfl, rfl, rfl, rfl, rfl, rfl, rfl⟩

@[simp] theorem incDecBitCnt_fields :
    (incDecBitCnt s).ill = s.ill ∧ (incDecBitCnt s).enc = s.enc ∧ (incDecBitCnt s).eout = s.eout ∧
    (incDecBitCnt s).dout = s.dout ∧ (incDecBitCnt s).eoutTaken = s.eoutTaken ∧
    (incDecBitCnt s).doutTaken = s.doutTaken ∧ (incDecBitCnt s).epoch = s.epoch ∧
    (incDecBitCnt s).pending = s.pending ∧ (incDecBitCnt s).reply = s.reply ∧
    (incDecBitCnt s).dec.state = s.dec.state ∧ (incDecBitCnt s).dec.err = s.dec.err ∧
    (incDecBitCnt s).dec.bitCnt = inc32 s.dec.bitCnt ∧ (incDecBitCnt s).dec.symCnt = s.dec.symCnt ∧
    (incDecBitCnt s).dec.root = s.dec.root ∧ (incDecBitCnt s).dec.cursor = s.dec.cursor ∧
    (incDecBitCnt s).dec.kind = s.dec.kind ∧ (incDecBitCnt s).dec.left = s.dec.left ∧
    (incDecBitCnt s).dec.right = s.dec.right ∧ (incDecBitCnt s).dec.sym = s.dec.sym :=
  ⟨rfl, rfl, rfl, rfl, rfl, rfl, rfl, rfl, rfl, rfl, rfl, rfl, rfl, rfl, rfl, rfl, rfl, rfl, rfl⟩

@[simp] theorem incDecSymCnt_fields :
    (incDecSymCnt s).ill = s.ill ∧ (incDecSymCnt s).enc = s.enc ∧ (incDecSymCnt s).eout = s.eout ∧
    (incDecSymCnt s).dout = s.dout ∧ (incDecSymCnt s).eoutTaken = s.eoutTaken ∧
    (incDecSymCnt s).doutTaken = s.doutTaken ∧ (incDecSymCnt s).epoch = s.epoch ∧
    (incDecSymCnt s).pending = s.pending ∧ (incDecSymCnt s).reply = s.reply ∧
    (incDecSymCnt s).dec.state = s.dec.state ∧ (incDecSymCnt s).dec.err = s.dec.err ∧
    (incDecSymCnt s).dec.bitCnt = s.dec.bitCnt ∧ (incDecSymCnt s).dec.symCnt = inc32 s.dec.symCnt ∧
    (incDecSymCnt s).dec.root = s.dec.root ∧ (incDecSymCnt s).dec.cursor = s.dec.cursor ∧
    (incDecSymCnt s).dec.kind = s.dec.kind ∧ (incDecSymCnt s).dec.left = s.dec.left ∧
    (incDecSymCnt s).dec.right = s.dec.right ∧ (incDecSymCnt s).dec.sym = s.dec.sym :=
  ⟨rfl, rfl, rfl, rfl, rfl, rfl, rfl, rfl, rfl, rfl, rfl, rfl, rfl, rfl, rfl, rfl, rfl, rfl, rfl⟩

@[simp] theorem setDecState_fields (v : EngState) :
    (setDecState v s).ill = s.ill ∧ (setDecState v s).enc = s.enc ∧ (setDecState v s).eout = s.eout ∧
    (setDecState v s).dout = s.dout ∧ (setDecState v s).eoutTaken = s.eoutTaken ∧
    (setDecState v s).doutTaken = s.doutTaken ∧ (setDecState v s).epoch = s.epoch ∧
    (setDecState v s).pending = s.pending ∧ (setDecState v s).reply = s.reply ∧ (setDecState v s).dec.state = v ∧
    (setDecState v s).dec.err = s.dec.err ∧ (setDecState v s).dec.bitCnt = s.dec.bitCnt ∧
    (setDecState v s).dec.symCnt = s.dec.symCnt ∧ (setDecState v s).dec.root = s.dec.root ∧
    (setDecState v s).dec.cursor = s.dec.cursor ∧ (setDecState v s).dec.kind = s.dec.kind ∧
    (setDecState v s).dec.left = s.dec.left ∧ (setDecState v s).dec.right = s.dec.right ∧
    (setDecState v s).dec.sym = s.dec.sym :=
  ⟨rfl, rfl, rfl, rfl, rfl, rfl, rfl, rfl, rfl, rfl, rfl, rfl, rfl, rfl, rfl, rfl, rfl, rfl, rfl⟩

@[simp] theorem setCursor_fields (i : NodeIdx) :
    (setCursor i s).ill = s.ill ∧ (setCursor i s).enc = s.enc ∧ (setCursor i s).eout = s.eout ∧
    (setCursor i s).dout = s.dout ∧ (setCursor i s).eoutTaken = s.eoutTaken ∧
    (setCursor i s).doutTaken = s.doutTaken ∧ (setCursor i s).epoch = s.epoch ∧
    (setCursor i s).pending = s.pending ∧ (setCursor i s).reply = s.reply ∧
    (setCursor i s).dec.state = s.dec.state ∧ (setCursor i s).dec.err = s.dec.err ∧
    (setCursor i s).dec.bitCnt = s.dec.bitCnt ∧ (setCursor i s).dec.symCnt = s.dec.symCnt ∧
    (setCursor i s).dec.root = s.dec.root ∧ (setCursor i s).dec.cursor = i ∧ (setCursor i s).dec.kind = s.dec.kind ∧
    (setCursor i s).dec.left = s.dec.left ∧ (setCursor i s).dec.right = s.dec.right ∧
    (setCursor i s).dec.sym = s.dec.sym :=
  ⟨rfl, rfl, rfl, rfl, rfl, rfl, rfl, rfl, rfl, rfl, rfl, rfl, rfl, rfl, rfl, rfl, rfl, rfl, rfl⟩

@[simp] theorem setRoot_fields (i : NodeIdx) :
    (setRoot i s).ill = s.ill ∧ (setRoot i s).enc = s.enc ∧ (setRoot i s).eout = s.eout ∧
    (setRoot i s).dout = s.dout ∧ (setRoot i s).eoutTaken = s.eoutTaken ∧ (setRoot i s).doutTaken = s.doutTaken ∧
    (setRoot i s).epoch = s.epoch ∧ (setRoot i s).pending = s.pending ∧ (setRoot i s).reply = s.reply ∧
    (setRoot i s).dec.state = s.dec.state ∧ (setRoot i s).dec.err = s.dec.err ∧
    (setRoot i s).dec.bitCnt = s.dec.bitCnt ∧ (setRoot i s).dec.symCnt = s.dec.symCnt ∧ (setRoot i s).dec.root = i ∧
    (setRoot i s).dec.cursor = s.dec.cursor ∧ (setRoot i s).dec.kind = s.dec.kind ∧
    (setRoot i s).dec.left = s.dec.left ∧ (setRoot i s).dec.right = s.dec.right ∧ (setRoot i s).dec.sym = s.dec.sym :=
  ⟨rfl, rfl, rfl, rfl, rfl, rfl, rfl, rfl, rfl, rfl, rfl, rfl, rfl, rfl, rfl, rfl, rfl, rfl, rfl⟩

@[simp] theorem raiseD_fields (code : ErrCode) :
    (raiseD code s).ill = s.ill ∧ (raiseD code s).enc = s.enc ∧ (raiseD code s).eout = s.eout ∧
    (raiseD code s).dout = s.dout ∧ (raiseD code s).eoutTaken = s.eoutTaken ∧
    (raiseD code s).doutTaken = s.doutTaken ∧ (raiseD code s).epoch = s.epoch ∧
    (raiseD code s).pending = s.pending ∧ (raiseD code s).reply = s.reply ∧ (raiseD code s).dec.state = .err ∧
    (raiseD code s).dec.err = code ∧ (raiseD code s).dec.bitCnt = s.dec.bitCnt ∧
    (raiseD code s).dec.symCnt = s.dec.symCnt ∧ (raiseD code s).dec.root = s.dec.root ∧
    (raiseD code s).dec.cursor = s.dec.cursor ∧ (raiseD code s).dec.kind = s.dec.kind ∧
    (raiseD code s).dec.left = s.dec.left ∧ (raiseD code s).dec.right = s.dec.right ∧
    (raiseD code s).dec.sym = s.dec.sym :=
  ⟨rfl, rfl, rfl, rfl, rfl, rfl, rfl, rfl, rfl, rfl, rfl, rfl, rfl, rfl, rfl, rfl, rfl, rfl, rfl⟩

@[simp] theorem openDecSession_fields :
    (openDecSession s).ill = s.ill ∧ (openDecSession s).enc = s.enc ∧ (openDecSession s).eout = s.eout ∧
    (openDecSession s).dout = s.dout ∧ (openDecSession s).eoutTaken = s.eoutTaken ∧
    (openDecSession s).doutTaken = s.doutTaken ∧ (openDecSession s).epoch = s.epoch ∧
    (openDecSession s).pending = s.pending ∧ (openDecSession s).reply = s.reply ∧
    (openDecSession s).dec.state = s.dec.state ∧ (openDecSession s).dec.err = .none ∧
    (openDecSession s).dec.bitCnt = 0 ∧ (openDecSession s).dec.symCnt = 0 ∧
    (openDecSession s).dec.root = s.dec.root ∧ (openDecSession s).dec.cursor = s.dec.root ∧
    (openDecSession s).dec.kind = s.dec.kind ∧ (openDecSession s).dec.left = s.dec.left ∧
    (openDecSession s).dec.right = s.dec.right ∧ (openDecSession s).dec.sym = s.dec.sym :=
  ⟨rfl, rfl, rfl, rfl, rfl, rfl, rfl, rfl, rfl, rfl, rfl, rfl, rfl, rfl, rfl, rfl, rfl, rfl, rfl⟩

@[simp] theorem emitE_fields (b : Byte) :
    (emitE b s).ill = s.ill ∧ (emitE b s).enc = s.enc ∧ (emitE b s).dec = s.dec ∧ (emitE b s).eout = s.eout ++ [b] ∧
    (emitE b s).dout = s.dout ∧ (emitE b s).eoutTaken = s.eoutTaken ∧ (emitE b s).doutTaken = s.doutTaken ∧
    (emitE b s).epoch = s.epoch ∧ (emitE b s).pending = s.pending ∧ (emitE b s).reply = s.reply :=
  ⟨rfl, rfl, rfl, rfl, rfl, rfl, rfl, rfl, rfl, rfl⟩

@[simp] theorem emitD_fields (x : Symbol) :
    (emitD x s).ill = s.ill ∧ (emitD x s).enc = s.enc ∧ (emitD x s).dec = s.dec ∧ (emitD x s).eout = s.eout ∧
    (emitD x s).dout = s.dout ++ [x] ∧ (emitD x s).eoutTaken = s.eoutTaken ∧ (emitD x s).doutTaken = s.doutTaken ∧
    (emitD x s).epoch = s.epoch ∧ (emitD x s).pending = s.pending ∧ (emitD x s).reply = s.reply :=
  ⟨rfl, rfl, rfl, rfl, rfl, rfl, rfl, rfl, rfl, rfl⟩

@[simp] theorem raiseIllegal_fields :
    (raiseIllegal s).ill = true ∧ (raiseIllegal s).enc = s.enc ∧ (raiseIllegal s).dec = s.dec ∧
    (raiseIllegal s).eout = s.eout ∧ (raiseIllegal s).dout = s.dout ∧ (raiseIllegal s).eoutTaken = s.eoutTaken ∧
    (raiseIllegal s).doutTaken = s.doutTaken ∧ (raiseIllegal s).epoch = s.epoch ∧
    (raiseIllegal s).pending = s.pending ∧ (raiseIllegal s).reply = s.reply :=
  ⟨rfl, rfl, rfl, rfl, rfl, rfl, rfl, rfl, rfl, rfl⟩

@[simp] theorem resetState_fields :
    (resetState s).ill = false ∧ (resetState s).enc = Enc.reset ∧ (resetState s).dec = Dec.reset ∧
    (resetState s).eout = s.eout ∧ (resetState s).dout = s.dout ∧ (resetState s).eoutTaken = s.eoutTaken ∧
    (resetState s).doutTaken = s.doutTaken ∧ (resetState s).epoch = s.epoch + 1 ∧
    (resetState s).pending = s.pending ∧ (resetState s).reply = s.reply :=
  ⟨rfl, rfl, rfl, rfl, rfl, rfl, rfl, rfl, rfl, rfl⟩

@[simp] theorem hardReset_fields :
    (hardReset s).ill = false ∧ (hardReset s).enc = Enc.reset ∧ (hardReset s).dec = Dec.reset ∧
    (hardReset s).eout = [] ∧ (hardReset s).dout = [] ∧ (hardReset s).eoutTaken = 0 ∧ (hardReset s).doutTaken = 0 ∧
    (hardReset s).epoch = s.epoch + 1 ∧ (hardReset s).pending = s.pending ∧ (hardReset s).reply = s.reply :=
  ⟨rfl, rfl, rfl, rfl, rfl, rfl, rfl, rfl, rfl, rfl⟩

end Sys2Proof.Machine
end

