-- ==== Sys2Proof/Laws/Tables.lean ====
section
/-! SUPPORT. The tables: what a read of an entry gives after each write, and that the canonical form `Memory.wf` is kept. -/

namespace Sys2Proof.Machine

/-! ### A read depends on its RAM (and the epoch) alone -/

theorem cbLen_congr {s t : State} (h : t.enc.len = s.enc.len) (x : Symbol) : cbLen t x = cbLen s x := by
  simp only [cbLen, h]

theorem codeBit_congr {s t : State} (h : t.enc.code = s.enc.code) (he : t.epoch = s.epoch) (x : Symbol) (i : Nat) :
    codeBit t x i = codeBit s x i := by
  simp only [codeBit, codeChunk, h, he]

theorem codeString_congr {s t : State} (h : t.enc.code = s.enc.code) (he : t.epoch = s.epoch) (x : Symbol) (n : Nat) :
    codeString t x n = codeString s x n :=
  List.map_congr_left fun i _ => codeBit_congr h he x i

theorem nodeKind_congr {s t : State} (h : t.dec.kind = s.dec.kind) (i : NodeIdx) : nodeKind t i = nodeKind s i := by
  simp only [nodeKind, h]

theorem nodeLeft_congr {s t : State} (h : t.dec.left = s.dec.left) (he : t.epoch = s.epoch) (i : NodeIdx) :
    nodeLeft t i = nodeLeft s i := by
  simp only [nodeLeft, h, he]

theorem nodeRight_congr {s t : State} (h : t.dec.right = s.dec.right) (he : t.epoch = s.epoch) (i : NodeIdx) :
    nodeRight t i = nodeRight s i := by
  simp only [nodeRight, h, he]

theorem nodeSym_congr {s t : State} (h : t.dec.sym = s.dec.sym) (he : t.epoch = s.epoch) (i : NodeIdx) :
    nodeSym t i = nodeSym s i := by
  simp only [nodeSym, h, he]

/-! ### Reads after writes -/

theorem getD_read?_write {α : Type} (d : α) (k j : Nat) (v : α) (r : Ram α) :
    (Ram.read? (Ram.write k v r) j).getD d = if j = k then v else (Ram.read? r j).getD d := by
  rw [Ram.read?_write]; split <;> rfl

theorem cbLen_setCbLen (x y : Symbol) (v : BitVec 8) (s : State) :
    cbLen (setCbLen x v s) y = if y = x then v else cbLen s y := by
  simp [cbLen, Ram.getD_read?_put, BitVec.toNat_inj]

theorem cbLen_clearCbLens (x : Symbol) (s : State) : cbLen (clearCbLens s) x = 0 := by simp [cbLen, Ram.read?]

theorem chunkKey_inj {x y : Symbol} {c d : Nat} (hc : c < 16) (hd : d < 16) : chunkKey y d = chunkKey x c ↔ y = x ∧ d = c := by
  simp only [chunkKey, Config.chunks, ← BitVec.toNat_inj]
  omega

theorem codeChunk_setCodeChunk (x y : Symbol) {c d : Nat} (hc : c < 16) (hd : d < 16) (v : BitVec 16) (s : State) :
    codeChunk (setCodeChunk x c v s) y d = if y = x ∧ d = c then v else codeChunk s y d := by
  simp [codeChunk, getD_read?_write, chunkKey_inj hc hd]

theorem codeBit_setCodeChunk (x y : Symbol) {c i : Nat} (hc : c < 16) (hi : i < 256) (v : BitVec 16) (s : State) :
    codeBit (setCodeChunk x c v s) y i = if y = x ∧ i / 16 = c then v.getMsbD (i % 16) else codeBit s y i := by
  simp only [codeBit, Config.chunkBits]
  rw [codeChunk_setCodeChunk x y hc (by omega)]
  split <;> rfl

theorem nodeKind_setNodeKind (i j : NodeIdx) (v : NodeKind) (s : State) :
    nodeKind (setNodeKind i v s) j = if j = i then v else nodeKind s j := by
  simp [nodeKind, Ram.getD_read?_put, BitVec.toNat_inj]

theorem nodeKind_clearNodeKinds (i : NodeIdx) (s : State) : nodeKind (clearNodeKinds s) i = .invalid := by
  simp [nodeKind, Ram.read?]

theorem nodeLeft_setNodeChildren (i l r j : NodeIdx) (s : State) :
    nodeLeft (setNodeChildren i l r s) j = if j = i then l else nodeLeft s j := by
  simp [nodeLeft, getD_read?_write, BitVec.toNat_inj]

theorem nodeRight_setNodeChildren (i l r j : NodeIdx) (s : State) :
    nodeRight (setNodeChildren i l r s) j = if j = i then r else nodeRight s j := by
  simp [nodeRight, getD_read?_write, BitVec.toNat_inj]

theorem nodeSym_setNodeSym (i j : NodeIdx) (x : Symbol) (s : State) :
    nodeSym (setNodeSym i x s) j = if j = i then x else nodeSym s j := by
  simp [nodeSym, getD_read?_write, BitVec.toNat_inj]

/-- anyValid() (R137), said over symbols. -/
theorem anyValid_iff (s : State) : anyValid s = true ↔ ∃ x, cbLen s x ≠ 0 := by
  simp only [anyValid, List.any_eq_true, List.mem_range, Config.nsym, decide_eq_true_eq]
  constructor
  · rintro ⟨k, -, h⟩; exact ⟨_, h⟩
  · rintro ⟨x, h⟩; exact ⟨x.toNat, x.isLt, by simpa using h⟩

/-! ### The canonical form -/

/-- `Memory.wf`, part by part. -/
theorem Memory.wf_iff (s : State) : Memory.wf s = true ↔
    Ram.wf 256 s.enc.len = true ∧ (∀ p ∈ s.enc.len, p.2 ≠ 0) ∧ Ram.wf 4096 s.enc.code = true ∧
    Ram.wf 512 s.dec.kind = true ∧ (∀ p ∈ s.dec.kind, p.2 ≠ .invalid) ∧ Ram.wf 512 s.dec.left = true ∧
    Ram.wf 512 s.dec.right = true ∧ Ram.wf 512 s.dec.sym = true := by
  simp only [Memory.wf, Config.nsym, Config.chunks, Config.nnodes, Bool.and_eq_true, List.all_eq_true, decide_eq_true_eq,
    and_assoc, Nat.reduceMul]

/-- The form depends on the RAMs alone. -/
theorem Memory.wf_congr {s t : State} (h : t.enc.len = s.enc.len) (h1 : t.enc.code = s.enc.code)
    (h2 : t.dec.kind = s.dec.kind) (h3 : t.dec.left = s.dec.left) (h4 : t.dec.right = s.dec.right)
    (h5 : t.dec.sym = s.dec.sym) : Memory.wf t = Memory.wf s := by
  simp only [Memory.wf, h, h1, h2, h3, h4, h5]

theorem wf_setCbLen {s : State} (x : Symbol) (v : BitVec 8) (h : Memory.wf s = true) :
    Memory.wf (setCbLen x v s) = true := by
  rw [Memory.wf_iff] at h ⊢
  obtain ⟨h1, h2, h⟩ := h
  exact ⟨Ram.wf_put 0 v (show x.toNat < 256 from x.isLt) h1, Ram.put_no_default 0 _ v h2, h⟩

theorem wf_clearCbLens {s : State} (h : Memory.wf s = true) : Memory.wf (clearCbLens s) = true := by
  rw [Memory.wf_iff] at h ⊢
  exact ⟨rfl, by simp, h.2.2⟩

theorem wf_setCodeChunk {s : State} (x : Symbol) (c : BitVec 4) (v : BitVec 16) (h : Memory.wf s = true) :
    Memory.wf (setCodeChunk x c.toNat v s) = true := by
  rw [Memory.wf_iff] at h ⊢
  obtain ⟨h1, h2, h3, h⟩ := h
  have hx := x.isLt
  have hc := c.isLt
  exact ⟨h1, h2, Ram.wf_write v (by simp only [chunkKey, Config.chunks]; omega) h3, h⟩

theorem wf_setNodeKind {s : State} (i : NodeIdx) (v : NodeKind) (h : Memory.wf s = true) :
    Memory.wf (setNodeKind i v s) = true := by
  rw [Memory.wf_iff] at h ⊢
  obtain ⟨h1, h2, h3, h4, h5, h⟩ := h
  exact ⟨h1, h2, h3, Ram.wf_put NodeKind.invalid v (show i.toNat < 512 from i.isLt) h4, Ram.put_no_default _ _ v h5, h⟩

theorem wf_clearNodeKinds {s : State} (h : Memory.wf s = true) : Memory.wf (clearNodeKinds s) = true := by
  rw [Memory.wf_iff] at h ⊢
  obtain ⟨h1, h2, h3, h4, h5, h⟩ := h
  exact ⟨h1, h2, h3, rfl, by simp, h⟩

theorem wf_setNodeChildren {s : State} (i l r : NodeIdx) (h : Memory.wf s = true) :
    Memory.wf (setNodeChildren i l r s) = true := by
  rw [Memory.wf_iff] at h ⊢
  obtain ⟨h1, h2, h3, h4, h5, h6, h7, h8⟩ := h
  exact ⟨h1, h2, h3, h4, h5, Ram.wf_write l (show i.toNat < 512 from i.isLt) h6, Ram.wf_write r (show i.toNat < 512 from i.isLt) h7, h8⟩

theorem wf_setNodeSym {s : State} (i : NodeIdx) (x : Symbol) (h : Memory.wf s = true) :
    Memory.wf (setNodeSym i x s) = true := by
  rw [Memory.wf_iff] at h ⊢
  obtain ⟨h1, h2, h3, h4, h5, h6, h7, h8⟩ := h
  exact ⟨h1, h2, h3, h4, h5, h6, h7, Ram.wf_write x (show i.toNat < 512 from i.isLt) h8⟩

theorem wf_resetState (s : State) : Memory.wf (resetState s) = true := rfl

theorem wf_hardReset (s : State) : Memory.wf (hardReset s) = true := rfl

theorem wf_reset : Memory.wf State.reset = true := rfl

end Sys2Proof.Machine
end

