-- ==== Sys2Proof/Laws/Automaton.lean ====
section
/-! SUPPORT. The decoder's automaton: what one transition can do, how walks compose, and how a table that holds a tree
steers the cursor. -/

namespace Sys2Proof.Machine

/-- Everything a transition leaves alone. -/
structure SameTables (s t : State) : Prop where
  kind : t.dec.kind = s.dec.kind
  left : t.dec.left = s.dec.left
  right : t.dec.right = s.dec.right
  sym : t.dec.sym = s.dec.sym
  root : t.dec.root = s.dec.root
  epoch : t.epoch = s.epoch

theorem SameTables.refl (s : State) : SameTables s s := ⟨rfl, rfl, rfl, rfl, rfl, rfl⟩

theorem SameTables.trans {s t u : State} (h : SameTables s t) (k : SameTables t u) : SameTables s u :=
  ⟨k.kind.trans h.kind, k.left.trans h.left, k.right.trans h.right, k.sym.trans h.sym, k.root.trans h.root,
    k.epoch.trans h.epoch⟩

/-- `s` after `k` more bits and the symbols `out`, with the cursor at `c`. -/
def advance (s : State) (k : Nat) (out : List Symbol) (c : NodeIdx) : State :=
  { s with
    dout := s.dout ++ out
    dec := { s.dec with
      bitCnt := s.dec.bitCnt + BitVec.ofNat 32 k, symCnt := s.dec.symCnt + BitVec.ofNat 32 out.length, cursor := c } }

theorem advance_fields (s : State) (k : Nat) (out : List Symbol) (c : NodeIdx) :
    (advance s k out c).dec.state = s.dec.state ∧ (advance s k out c).dec.root = s.dec.root ∧
    (advance s k out c).dec.cursor = c ∧ SameTables s (advance s k out c) :=
  ⟨rfl, rfl, rfl, ⟨rfl, rfl, rfl, rfl, rfl, rfl⟩⟩

theorem advance_zero (s : State) : advance s 0 [] s.dec.cursor = s := by
  cases s; simp [advance]

theorem advance_advance (s : State) (k m : Nat) (out out' : List Symbol) (c d : NodeIdx) :
    advance (advance s k out c) m out' d = advance s (k + m) (out ++ out') d := by
  simp only [advance, List.append_assoc, List.length_append, BitVec.ofNat_add, BitVec.add_assoc]

/-- One transition (R171), said once: an error, a symbol, or a move. -/
theorem dstep_cases (b : Bool) (s : State) :
    (dstep b s = raiseD .corruptStream (advance s 1 [] s.dec.cursor)) ∨
    (∃ x, dstep b s = advance s 1 [x] s.dec.root) ∨ (∃ c, dstep b s = advance s 1 [] c) := by
  have e0 : incDecBitCnt s = advance s 1 [] s.dec.cursor := by simp [incDecBitCnt, advance, inc32]
  have e1 : ∀ x, leafhit x (incDecBitCnt s) = advance s 1 [x] s.dec.root := by
    intro x; simp [leafhit, incDecSymCnt, emitD, setCursor, incDecBitCnt, advance, inc32]
  have e2 : ∀ c, setCursor c (incDecBitCnt s) = advance s 1 [] c := by
    intro c; simp [setCursor, incDecBitCnt, advance, inc32]
  simp only [dstep]
  split
  · exact .inl (by rw [e0])
  · split
    · exact .inl (by rw [e0])
    · exact .inr (.inl ⟨_, e1 _⟩)
  · simp only [enterChild]
    split
    · exact .inl (by rw [e0])
    · exact .inr (.inl ⟨_, e1 _⟩)
    · exact .inr (.inr ⟨_, e2 _⟩)

/-- No transition changes the tables. -/
theorem dstep_sameTables (b : Bool) (s : State) : SameTables s (dstep b s) := by
  rcases dstep_cases b s with h | ⟨x, h⟩ | ⟨c, h⟩ <;> rw [h] <;> exact ⟨rfl, rfl, rfl, rfl, rfl, rfl⟩

/-- A walk is the walk of its first part, then, unless that failed, of the rest. -/
theorem walk_append (p q : Bits) : ∀ s : State, s.dec.state ≠ .err →
    walk (p ++ q) s = if (walk p s).dec.state = .err then walk p s else walk q (walk p s) := by
  induction p with
  | nil => intro s h; simp [walk, h]
  | cons b p ih =>
    intro s h
    simp only [List.cons_append, walk]
    by_cases hb : (dstep b s).dec.state = .err
    · simp [hb]
    · simp only [hb, if_false]; exact ih _ hb

/-! ### A table that holds a tree -/

theorem HoldsTree.congr {s t : State} (h : SameTables s t) : ∀ {T : Tree} {i : NodeIdx}, HoldsTree s T i → HoldsTree t T i
  | .leaf _, i, ⟨hk, hx⟩ =>
    ⟨(nodeKind_congr h.kind i).trans hk, (nodeSym_congr h.sym h.epoch i).trans hx⟩
  | .node _ _, i, ⟨hk, hl, hr⟩ => by
    refine ⟨(nodeKind_congr h.kind i).trans hk, ?_, ?_⟩
    · rw [nodeLeft_congr h.left h.epoch i]; exact HoldsTree.congr h hl
    · rw [nodeRight_congr h.right h.epoch i]; exact HoldsTree.congr h hr

/-- A node index holds at most one tree. -/
theorem HoldsTree.unique {s : State} : ∀ {T U : Tree} {i : NodeIdx}, HoldsTree s T i → HoldsTree s U i → T = U
  | .leaf _, .leaf _, _, ⟨_, hx⟩, ⟨_, hy⟩ => by rw [← hx, ← hy]
  | .leaf _, .node _ _, _, ⟨hk, _⟩, ⟨hk', _⟩ => by rw [hk] at hk'; cases hk'
  | .node _ _, .leaf _, _, ⟨hk, _⟩, ⟨hk', _⟩ => by rw [hk] at hk'; cases hk'
  | .node _ _, .node _ _, _, ⟨_, hl, hr⟩, ⟨_, hl', hr'⟩ => by rw [hl.unique hl', hr.unique hr']

/-- One bit at an internal node whose child is a leaf. -/
theorem dstep_to_leaf {s : State} {b : Bool} {x : Symbol} (hk : nodeKind s s.dec.cursor = .internal)
    (hc : HoldsTree s (.leaf x) (childOf s s.dec.cursor b)) : dstep b s = advance s 1 [x] s.dec.root := by
  have e : ∀ i, nodeKind (incDecBitCnt s) i = nodeKind s i := fun i => nodeKind_congr rfl i
  have es : ∀ i, nodeSym (incDecBitCnt s) i = nodeSym s i := fun i => nodeSym_congr rfl rfl i
  have ec : childOf (incDecBitCnt s) s.dec.cursor b = childOf s s.dec.cursor b := rfl
  obtain ⟨h1, h2⟩ := hc
  simp only [dstep, incDecBitCnt_fields, e, hk, enterChild, ec, h1, es, h2]
  simp [leafhit, incDecSymCnt, emitD, setCursor, incDecBitCnt, advance, inc32]

/-- One bit at an internal node whose child is internal. -/
theorem dstep_to_node {s : State} {b : Bool} {l r : Tree} (hk : nodeKind s s.dec.cursor = .internal)
    (hc : HoldsTree s (.node l r) (childOf s s.dec.cursor b)) :
    dstep b s = advance s 1 [] (childOf s s.dec.cursor b) := by
  have e : ∀ i, nodeKind (incDecBitCnt s) i = nodeKind s i := fun i => nodeKind_congr rfl i
  have ec : childOf (incDecBitCnt s) s.dec.cursor b = childOf s s.dec.cursor b := rfl
  simp only [dstep, incDecBitCnt_fields, e, hk, enterChild, ec, hc.1]
  simp [setCursor, incDecBitCnt, advance, inc32]

/-- The subtree that a bit selects. -/
def Tree.child (l r : Tree) (b : Bool) : Tree := if b then r else l

theorem HoldsTree.child {s : State} {l r : Tree} {i : NodeIdx} (h : HoldsTree s (.node l r) i) (b : Bool) :
    HoldsTree s (Tree.child l r b) (childOf s i b) := by
  cases b
  · exact h.2.1
  · exact h.2.2

theorem Tree.mem_paths_node {l r : Tree} {x : Symbol} {p : Bits} (h : (x, p) ∈ (Tree.node l r).paths) :
    ∃ b q, p = b :: q ∧ (x, q) ∈ (Tree.child l r b).paths := by
  simp only [Tree.paths, List.mem_append, List.mem_map, Prod.mk.injEq, Prod.exists] at h
  rcases h with ⟨y, q, hq, rfl, rfl⟩ | ⟨y, q, hq, rfl, rfl⟩
  · exact ⟨false, q, rfl, hq⟩
  · exact ⟨true, q, rfl, hq⟩

/-- From an internal node, the path to a leaf emits its symbol and returns to the root. -/
theorem walk_path : ∀ (T : Tree) (s : State) (x : Symbol) (p : Bits), (∃ l r, T = .node l r) →
    HoldsTree s T s.dec.cursor → s.dec.state = .run → (x, p) ∈ T.paths → walk p s = advance s p.length [x] s.dec.root := by
  intro T
  induction T with
  | leaf y => rintro s x p ⟨l, r, h⟩; cases h
  | node l r ihl ihr =>
    intro s x p _ hT hs hp
    obtain ⟨b, q, rfl, hq⟩ := Tree.mem_paths_node hp
    have hc := hT.child b
    have ih : ∀ (s : State) (x : Symbol) (p : Bits), (∃ l' r', Tree.child l r b = .node l' r') →
        HoldsTree s (Tree.child l r b) s.dec.cursor → s.dec.state = .run → (x, p) ∈ (Tree.child l r b).paths →
        walk p s = advance s p.length [x] s.dec.root := by
      cases b
      · exact ihl
      · exact ihr
    generalize Tree.child l r b = U at hc hq ih
    cases U with
    | leaf y =>
      simp only [Tree.paths, List.mem_singleton, Prod.mk.injEq] at hq
      obtain ⟨rfl, rfl⟩ := hq
      rw [walk, dstep_to_leaf hT.1 hc]
      simp [advance, hs, walk]
    | node l' r' =>
      have hst := advance_fields s 1 [] (childOf s s.dec.cursor b)
      rw [walk, dstep_to_node hT.1 hc]
      simp only [hst.1, hs, reduceCtorEq, if_false]
      rw [ih _ x q ⟨_, _, rfl⟩ (hst.2.2.1 ▸ hc.congr hst.2.2.2) (hst.1.trans hs) hq, advance_advance]
      simp only [hst.2.1, List.nil_append, List.length_cons, Nat.add_comm]

/-- From the root, the code of a leaf (R175: "0" where the root is a leaf) emits its symbol and returns to the root. -/
theorem walk_code {s : State} {T : Tree} {x : Symbol} {c : Bits} (hT : HoldsTree s T s.dec.root)
    (hc : s.dec.cursor = s.dec.root) (hs : s.dec.state = .run) (hx : (x, c) ∈ codeBook T) :
    walk c s = advance s c.length [x] s.dec.root := by
  cases T with
  | leaf y =>
    simp only [codeBook, List.mem_singleton, Prod.mk.injEq] at hx
    obtain ⟨rfl, rfl⟩ := hx
    have e : nodeKind (incDecBitCnt s) s.dec.root = .leaf := (nodeKind_congr rfl _).trans hT.1
    have es : nodeSym (incDecBitCnt s) s.dec.root = x := (nodeSym_congr rfl rfl _).trans hT.2
    have : dstep false s = advance s 1 [x] s.dec.root := by
      simp only [dstep, incDecBitCnt_fields, hc, e, es]
      simp [leafhit, incDecSymCnt, emitD, setCursor, incDecBitCnt, advance, inc32]
    rw [walk, this]
    simp [advance, hs, walk]
  | node l r => exact walk_path _ s x c ⟨l, r, rfl⟩ (hc ▸ hT) hs hx

/-- A sequence of codes decodes to their symbols. -/
theorem walk_codes {T : Tree} (L : List (Symbol × Bits)) (hL : ∀ p ∈ L, p ∈ codeBook T) : ∀ s : State,
    HoldsTree s T s.dec.root → s.dec.cursor = s.dec.root → s.dec.state = .run →
    walk (L.flatMap Prod.snd) s = advance s (L.flatMap Prod.snd).length (L.map Prod.fst) s.dec.root := by
  induction L with
  | nil => intro s _ hc _; simp only [List.flatMap_nil, walk, List.map_nil, List.length_nil, ← hc, advance_zero]
  | cons p L ih =>
    intro s hT hc hs
    have hf := advance_fields s p.2.length [p.1] s.dec.root
    have hp : (p.1, p.2) ∈ codeBook T := hL p List.mem_cons_self
    rw [List.flatMap_cons, walk_append _ _ _ (by rw [hs]; decide), walk_code hT hc hs hp]
    simp only [hf.1, hs, reduceCtorEq, if_false]
    rw [ih (fun q hq => hL q (List.mem_cons_of_mem _ hq)) _ (hf.2.1 ▸ hT.congr hf.2.2.2) (hf.2.2.1.trans hf.2.1.symm)
      (hf.1.trans hs), advance_advance]
    simp only [hf.2.1, List.map_cons, List.singleton_append, List.length_append]

/-- A code cut short leaves the cursor on a node below, no symbol emitted. -/
theorem walk_partial : ∀ (T : Tree) (s : State) (x : Symbol) (p q : Bits), HoldsTree s T s.dec.cursor →
    s.dec.state = .run → (x, p ++ q) ∈ T.paths → p ≠ [] → q ≠ [] →
    ∃ c U, walk p s = advance s p.length [] c ∧ HoldsTree s U c ∧ U.size < T.size := by
  intro T
  induction T with
  | leaf y =>
    intro s x p q _ _ h hp
    simp only [Tree.paths, List.mem_singleton, Prod.mk.injEq, List.append_eq_nil_iff] at h
    exact absurd h.2.1 hp
  | node l r ihl ihr =>
    intro s x p q hT hs hx hp hq
    obtain ⟨b, p', rfl⟩ := List.exists_cons_of_ne_nil hp
    obtain ⟨b', q', e, hq'⟩ := Tree.mem_paths_node hx
    obtain ⟨rfl, rfl⟩ := List.cons_eq_cons.1 e
    have hc := hT.child b
    have hsz : (Tree.child l r b).size < (Tree.node l r).size := by
      cases b <;> simp only [Tree.child, Tree.size, if_true, Bool.false_eq_true, if_false] <;> omega
    have ih : ∀ (s : State) (x : Symbol) (p q : Bits), HoldsTree s (Tree.child l r b) s.dec.cursor →
        s.dec.state = .run → (x, p ++ q) ∈ (Tree.child l r b).paths → p ≠ [] → q ≠ [] →
        ∃ c U, walk p s = advance s p.length [] c ∧ HoldsTree s U c ∧ U.size < (Tree.child l r b).size := by
      cases b
      · exact ihl
      · exact ihr
    generalize Tree.child l r b = V at hc hq' hsz ih
    cases V with
    | leaf y =>
      simp only [Tree.paths, List.mem_singleton, Prod.mk.injEq] at hq'
      exact absurd (List.append_eq_nil_iff.1 hq'.2).2 hq
    | node l' r' =>
      have hst := advance_fields s 1 [] (childOf s s.dec.cursor b)
      rw [walk, dstep_to_node hT.1 hc]
      simp only [hst.1, hs, reduceCtorEq, if_false]
      by_cases hp' : p' = []
      · subst hp'
        exact ⟨_, _, by simp [walk], hc, hsz⟩
      · obtain ⟨c, U, h1, h2, h3⟩ := ih _ x p' q (hst.2.2.1 ▸ hc.congr hst.2.2.2) (hst.1.trans hs) hq' hp' hq
        refine ⟨c, U, ?_, ?_, h3.trans hsz⟩
        · rw [h1, advance_advance]; simp [Nat.add_comm]
        · exact HoldsTree.congr (show SameTables (advance s 1 [] (childOf s s.dec.cursor b)) s from
            ⟨rfl, rfl, rfl, rfl, rfl, rfl⟩) h2

end Sys2Proof.Machine
end

