-- ==== Sys2Proof/Laws/Encoding.lean ====
section
/-! SUPPORT. Bit fields of a concatenation, and the other way round. -/

namespace Sys2Proof

theorem field_append_lo {n m : Nat} (a : BitVec n) (b : BitVec m) (lo len : Nat) (h : lo + len ≤ m) :
    (a ++ b).extractLsb' lo len = b.extractLsb' lo len := by
  ext i hi
  rw [BitVec.getElem_extractLsb', BitVec.getElem_extractLsb', BitVec.getLsbD_append, if_pos (by omega)]

theorem field_append_hi {n m : Nat} (a : BitVec n) (b : BitVec m) (lo len : Nat) (h : m ≤ lo) :
    (a ++ b).extractLsb' lo len = a.extractLsb' (lo - m) len := by
  ext i hi
  rw [BitVec.getElem_extractLsb', BitVec.getElem_extractLsb', BitVec.getLsbD_append, if_neg (by omega)]
  congr 1
  omega

theorem extract_self {n : Nat} (a : BitVec n) : a.extractLsb' 0 n = a := by
  ext i hi
  simp

/-- Two neighbouring fields are one. -/
theorem field_join {k : Nat} (w : BitVec k) (lo n m : Nat) :
    w.extractLsb' (lo + m) n ++ w.extractLsb' lo m = w.extractLsb' lo (n + m) := by
  ext i hi
  rw [BitVec.getElem_append]
  split
  · simp
  · simp only [BitVec.getElem_extractLsb']
    congr 1
    omega

/-- A DEC_BITS is well-formed when its count is 1 to 16 (R102). -/
theorem wf_decBits (n : Nat) (d : BitVec 16) : (Instr.decBits n d).wf = true ↔ 1 ≤ n ∧ n ≤ 16 := by
  unfold Instr.wf Config.bitsMax
  simp

/-- A legal word with its reserved field: what `ifZero` answers. -/
theorem ifZero_ok {n : Nat} {z : BitVec n} {i j : Instr} : ifZero z i = .ok j ↔ z = 0 ∧ i = j := by
  unfold ifZero
  split <;> simp_all

theorem ifZero_error {n : Nat} {z : BitVec n} {i : Instr} {e : Illegal} :
    ifZero z i = .error e ↔ z ≠ 0 ∧ e = .reservedNonzero := by
  unfold ifZero
  split
  · simp_all
  · rename_i hz
    constructor
    · rintro h; cases h; exact ⟨hz, rfl⟩
    · rintro ⟨-, rfl⟩; rfl

end Sys2Proof
end

