-- ==== Sys2Proof/Laws/Packer.lean ====
section
/-! SUPPORT. The packer: what appending bits does, in terms of the bytes of a bit string (`bytesOfBits`). -/

namespace Sys2Proof.Machine

/-- The byte m of `bytesOfBits` as the packer makes it. -/
theorem packByte_eq_sum (p : Bits) (h : p.length ≤ 8) :
    packByte p = BitVec.ofNat 8 (((List.range 8).map fun i => (p.getD i false).toNat * 2 ^ (7 - i)).sum) := by
  unfold packByte
  congr 1
  match p, h with
  | [], _ => rfl
  | [a], _ => simp [packFrom, List.range_succ]
  | [a, b], _ => simp [packFrom, List.range_succ]
  | [a, b, c], _ => simp [packFrom, List.range_succ]
  | [a, b, c, d], _ => simp [packFrom, List.range_succ]
  | [a, b, c, d, e], _ => simp [packFrom, List.range_succ]
  | [a, b, c, d, e, f], _ => simp [packFrom, List.range_succ]
  | [a, b, c, d, e, f, g], _ => simp [packFrom, List.range_succ]
  | [a, b, c, d, e, f, g, k], _ => simp [packFrom, List.range_succ]
  | a :: b :: c :: d :: e :: f :: g :: k :: l :: m, h => simp at h; omega

theorem bytesOfBits_nil : bytesOfBits [] = [] := rfl

/-- Up to eight bits, but not none, are one byte. -/
theorem bytesOfBits_short (p : Bits) (h : 1 ≤ p.length) (h8 : p.length ≤ 8) : bytesOfBits p = [packByte p] := by
  rw [packByte_eq_sum p h8]
  have : (p.length + 7) / 8 = 1 := by omega
  simp [bytesOfBits, this]

/-- Whole bytes split off in front. -/
theorem bytesOfBits_append (A B : Bits) (h : A.length % 8 = 0) : bytesOfBits (A ++ B) = bytesOfBits A ++ bytesOfBits B := by
  have hk : ((A ++ B).length + 7) / 8 = (A.length + 7) / 8 + (B.length + 7) / 8 := by
    rw [List.length_append]; omega
  simp only [bytesOfBits, hk, List.range_add, List.map_append, List.map_map]
  congr 1
  · refine List.map_congr_left fun m hm => ?_
    have hm := List.mem_range.1 hm
    congr 2
    refine List.map_congr_left fun i hi => ?_
    have hi := List.mem_range.1 hi
    rw [List.getD_append _ _ _ _ (by omega)]
  · refine List.map_congr_left fun m hm => ?_
    simp only [Function.comp]
    congr 2
    refine List.map_congr_left fun i hi => ?_
    have hi := List.mem_range.1 hi
    rw [List.getD_append_right _ _ _ _ (by omega)]
    congr 3
    omega

/-- The bits left in the packer after whole bytes. -/
def packerRest (E : Bits) : Bits := E.drop (8 * (E.length / 8))

/-- The whole bytes of a bit string. -/
def wholeBytes (E : Bits) : List Byte := bytesOfBits (E.take (8 * (E.length / 8)))

theorem packerRest_length (E : Bits) : (packerRest E).length = E.length % 8 := by
  simp only [packerRest, List.length_drop]; omega

theorem packerRest_of_short {E : Bits} (h : E.length ≤ 7) : packerRest E = E := by
  have : E.length / 8 = 0 := by omega
  simp [packerRest, this]

theorem wholeBytes_of_short {E : Bits} (h : E.length ≤ 7) : wholeBytes E = [] := by
  have : E.length / 8 = 0 := by omega
  simp [wholeBytes, this, bytesOfBits_nil]

theorem packerRest_append (A B : Bits) : packerRest (packerRest A ++ B) = packerRest (A ++ B) := by
  have h := packerRest_length A
  simp only [packerRest] at *
  have hd : (A.drop (8 * (A.length / 8)) ++ B).length / 8 + A.length / 8 = (A ++ B).length / 8 := by
    rw [List.length_append, List.length_append, h]; omega
  rw [← List.drop_append_of_le_length (by omega), List.drop_drop]
  congr 1
  rw [List.drop_append_of_le_length (by omega)]
  omega

theorem wholeBytes_append (A B : Bits) : wholeBytes A ++ wholeBytes (packerRest A ++ B) = wholeBytes (A ++ B) := by
  have h := packerRest_length A
  simp only [wholeBytes]
  rw [← bytesOfBits_append]
  · congr 1
    have hd : (packerRest A ++ B).length / 8 + A.length / 8 = (A ++ B).length / 8 := by
      rw [List.length_append, List.length_append, h]; omega
    conv_rhs => rw [← hd, Nat.mul_add, Nat.add_comm, List.take_add]
    have hle : 8 * (A.length / 8) ≤ A.length := by omega
    rw [List.take_append_of_le_length hle, List.drop_append_of_le_length hle]
    rfl
  · rw [List.length_take]; omega

/-- append (R131) said once: one bit in, one byte out when it is the eighth. -/
theorem append_eq (b : Bool) (s : State) (h : s.enc.pend.length ≤ 7) :
    append b s = { s with
      eout := s.eout ++ wholeBytes (s.enc.pend ++ [b])
      enc := { s.enc with pend := packerRest (s.enc.pend ++ [b]), bitCnt := s.enc.bitCnt + 1 } } := by
  by_cases h7 : s.enc.pend.length = 7
  · have hl : (s.enc.pend ++ [b]).length = 8 := by simp [h7]
    have hw : wholeBytes (s.enc.pend ++ [b]) = [packByte (s.enc.pend ++ [b])] := by
      simp only [wholeBytes, hl]
      rw [List.take_of_length_le (by omega), bytesOfBits_short _ (by omega) (by omega)]
    have hr : packerRest (s.enc.pend ++ [b]) = [] := by
      simp only [packerRest, hl]; exact List.drop_of_length_le (by omega)
    simp [append, h7, hw, hr, setPend, incEncBitCnt, emitE, inc32]
  · have hl : (s.enc.pend ++ [b]).length ≤ 7 := by simp; omega
    have h7' : ¬ s.enc.pend.length + 1 = 8 := by omega
    rw [wholeBytes_of_short hl, packerRest_of_short hl]
    simp [append, h7', setPend, incEncBitCnt, inc32]

/-- Appending a bit string, said once. -/
theorem appendAll_eq (bs : Bits) : ∀ (s : State), s.enc.pend.length ≤ 7 →
    appendAll bs s = { s with
      eout := s.eout ++ wholeBytes (s.enc.pend ++ bs)
      enc := { s.enc with
        pend := packerRest (s.enc.pend ++ bs), bitCnt := s.enc.bitCnt + BitVec.ofNat 32 bs.length } } := by
  induction bs with
  | nil =>
    intro s h
    simp [appendAll, packerRest_of_short h, wholeBytes_of_short h]
  | cons b bs ih =>
    intro s h
    have hr : (packerRest (s.enc.pend ++ [b])).length ≤ 7 := by rw [packerRest_length]; omega
    rw [appendAll, append_eq b s h, ih _ hr]
    have e1 : s.enc.pend ++ b :: bs = (s.enc.pend ++ [b]) ++ bs := by simp
    simp only [List.append_assoc, wholeBytes_append, packerRest_append, e1, List.length_cons]
    congr 2
    rw [BitVec.add_assoc]
    congr 1
    apply BitVec.eq_of_toNat_eq
    simp [BitVec.toNat_add, Nat.add_comm]

end Sys2Proof.Machine
end

