-- ==== Sys2Proof/Laws/Operands.lean ====
section
/-! SUPPORT. Bit strings packed into words, most significant bit first: reading bit `i` back (R71, R72, R94, R103). -/

namespace Sys2Proof.Machine

theorem sum_bits_succ (f : Nat → Bool) (n : Nat) :
    ((List.range (n + 1)).map fun i => (f i).toNat * 2 ^ (n - i)).sum =
      2 * ((List.range n).map fun i => (f i).toNat * 2 ^ (n - 1 - i)).sum + (f n).toNat := by
  rw [List.range_succ, List.map_append, List.sum_append]
  simp only [List.map_cons, List.map_nil, List.sum_cons, List.sum_nil, Nat.sub_self, Nat.pow_zero, Nat.mul_one,
    Nat.add_zero]
  congr 1
  rw [← List.sum_map_mul_left]
  congr 1
  refine List.map_congr_left fun i hi => ?_
  have := List.mem_range.1 hi
  rw [show n - i = (n - 1 - i) + 1 by omega, Nat.pow_succ]; ring

/-- A sum of weighted bits, the first at weight 2^(n−1), has those bits. -/
theorem testBit_sum_bits (f : Nat → Bool) : ∀ n j : Nat, j < n →
    (((List.range n).map fun i => (f i).toNat * 2 ^ (n - 1 - i)).sum).testBit j = f (n - 1 - j) := by
  intro n
  induction n with
  | zero => intro j h; omega
  | succ n ih =>
    intro j h
    rw [Nat.add_sub_cancel, sum_bits_succ]
    have hf : (f n).toNat ≤ 1 := by cases f n <;> simp
    cases j with
    | zero => rw [Nat.testBit_zero]; simp; cases f n <;> simp
    | succ j =>
      rw [Nat.testBit_succ]
      have hd : (2 * ((List.range n).map fun i => (f i).toNat * 2 ^ (n - 1 - i)).sum + (f n).toNat) / 2 =
          ((List.range n).map fun i => (f i).toNat * 2 ^ (n - 1 - i)).sum := by omega
      rw [hd, ih j (by omega)]
      congr 1; omega

/-- DATA[15 − j] is bit `j` of the bit string (R94, R103). -/
theorem dataOfBits_getMsbD (b : Bits) (j : Nat) (hj : j < 16) : (dataOfBits b).getMsbD j = b.getD j false := by
  have h := testBit_sum_bits (fun i => b.getD i false) 16 (15 - j) (by omega)
  have h2 : 15 - j < 16 := by omega
  simp only [dataOfBits, BitVec.getMsbD, BitVec.getLsbD_ofNat]
  rw [show 16 - 1 - j = 15 - j by omega, h, show 16 - 1 - (15 - j) = j by omega]
  simp [hj, h2]

/-- Bit 7 − i of a packed byte is pending bit `i` (R37, R71). -/
theorem packByte_getMsbD (p : Bits) (h : p.length ≤ 8) (i : Nat) (hi : i < 8) : (packByte p).getMsbD i = p.getD i false := by
  have hs := testBit_sum_bits (fun i => p.getD i false) 8 (7 - i) (by omega)
  have h2 : 7 - i < 8 := by omega
  rw [packByte_eq_sum p h]
  simp only [BitVec.getMsbD, BitVec.getLsbD_ofNat]
  rw [show 8 - 1 - i = 7 - i by omega, hs, show 8 - 1 - (7 - i) = i by omega]
  simp [hi, h2]

/-- dec.feed8 and a last partial byte (R261) present the bits that were packed. -/
theorem streamBits_packByte (p : Bits) (h : p.length ≤ 8) : streamBits p.length (packByte p ++ 0#8) = p := by
  apply List.ext_getElem
  · simp [streamBits]
  · intro i h1 h2
    have hi : i < 8 := by omega
    have e : (packByte p ++ 0#8).getMsbD i = (packByte p).getMsbD i := by
      simp only [BitVec.getMsbD, BitVec.getLsbD_append]
      simp [hi, show ¬ (15 - i < 8) by omega, show i < 16 by omega]
      congr 1; omega
    simp only [streamBits, List.getElem_map, List.getElem_range]
    rw [e, packByte_getMsbD p h i hi, List.getD_eq_getElem _ _ h2]

end Sys2Proof.Machine
end

