-- ==== Sys2Proof/Laws/Run.lean ====
section
/-! SUPPORT. Running: every command completes, what no command touches, and a run of commands as a fold of their effects. -/

namespace Sys2Proof.Machine

/-- No command faults or refuses (R220). -/
theorem exec_next (i : Instr) (s : State) : ∃ t, exec i s = .next t := by cases i <;> exact ⟨_, rfl⟩

/-- The state a command leads to. -/
def effect (i : Instr) (s : State) : State :=
  match exec i s with
  | .next t => t
  | .fault _ => s
  | .refused _ => s

theorem exec_eq_effect (i : Instr) (s : State) : exec i s = .next (effect i s) := by
  obtain ⟨t, h⟩ := exec_next i s
  simp only [effect, h]

theorem effect_of_exec {i : Instr} {s t : State} (h : exec i s = .next t) : effect i s = t := by
  simp only [effect, h]

/-- The host's side of the state. -/
def withHost (p : List HostAction) (r : Reply) (s : State) : State := { s with pending := p, reply := r }

theorem appendAll_withHost (p : List HostAction) (r : Reply) (bs : Bits) :
    ∀ s, appendAll bs (withHost p r s) = withHost p r (appendAll bs s) := by
  induction bs with
  | nil => intro s; rfl
  | cons b bs ih =>
    intro s
    have : append b (withHost p r s) = withHost p r (append b s) := by
      simp only [append, withHost, setPend_fields, incEncBitCnt_fields]
      split <;> rfl
    rw [appendAll, this, ih, appendAll]

theorem dstep_withHost (p : List HostAction) (r : Reply) (b : Bool) (s : State) :
    dstep b (withHost p r s) = withHost p r (dstep b s) := by
  have e : ∀ i, nodeKind (incDecBitCnt (withHost p r s)) i = nodeKind (incDecBitCnt s) i := fun _ => rfl
  have c : ∀ i, childOf (incDecBitCnt (withHost p r s)) i b = childOf (incDecBitCnt s) i b := fun _ => rfl
  have d : (incDecBitCnt (withHost p r s)).dec.cursor = (incDecBitCnt s).dec.cursor := rfl
  simp only [dstep, e, d, c]
  split
  · rfl
  · split <;> rfl
  · simp only [enterChild, e]
    split <;> rfl

theorem walk_withHost (p : List HostAction) (r : Reply) (bs : Bits) :
    ∀ s, walk bs (withHost p r s) = withHost p r (walk bs s) := by
  induction bs with
  | nil => intro s; rfl
  | cons b bs ih =>
    intro s
    simp only [walk, dstep_withHost, ih]
    show (if (dstep b s).dec.state = .err then _ else _) = _
    split <;> rfl

theorem encGate_withHost {p : List HostAction} {r : Reply} {s : State} {body : State → State}
    (h : body (withHost p r s) = withHost p r (body s)) : encGate (withHost p r s) body = withHost p r (encGate s body) := by
  have hs : (withHost p r s).enc.state = s.enc.state := rfl
  cases hc : s.enc.state <;> simp only [encGate, hs, hc, h] <;> rfl

theorem decGate_withHost {p : List HostAction} {r : Reply} {s : State} {body : State → State}
    (h : body (withHost p r s) = withHost p r (body s)) : decGate (withHost p r s) body = withHost p r (decGate s body) := by
  have hs : (withHost p r s).dec.state = s.dec.state := rfl
  cases hc : s.dec.state <;> simp only [decGate, hs, hc, h] <;> rfl

/-- A command neither reads nor writes the host's side. -/
theorem exec_withHost (i : Instr) (p : List HostAction) (r : Reply) (s : State) :
    exec i (withHost p r s) = .next (withHost p r (effect i s)) := by
  cases i
  case encStart =>
    simp only [effect, exec, execEncStart]
    show Host.Outcome.next (if anyValid (openEncSession s) = true then _ else _) = _
    split <;> rfl
  case encSym x =>
    refine congrArg Host.Outcome.next (encGate_withHost ?_)
    have e1 : cbLen (withHost p r s) x = cbLen s x := rfl
    have e2 : codeString (withHost p r s) x = codeString s x := rfl
    simp only [encodeSymbol, e1, e2, appendAll_withHost]
    split <;> rfl
  case encFlush =>
    refine congrArg Host.Outcome.next (encGate_withHost ?_)
    have e : (withHost p r s).enc.pend = s.enc.pend := rfl
    simp only [flushPacker, e]
    split <;> rfl
  case decStart =>
    simp only [effect, exec, execDecStart]
    show Host.Outcome.next (if nodeKind (openDecSession s) (openDecSession s).dec.root = .invalid then _ else _) = _
    split <;> rfl
  case decBits n d => exact congrArg Host.Outcome.next (decGate_withHost (walk_withHost p r _ s))
  case decEnd =>
    refine congrArg Host.Outcome.next (decGate_withHost ?_)
    have e1 : (withHost p r s).dec.cursor = s.dec.cursor := rfl
    have e2 : (withHost p r s).dec.root = s.dec.root := rfl
    simp only [checkTerminal, e1, e2]
    split <;> rfl
  all_goals rfl

theorem effect_withHost (i : Instr) (p : List HostAction) (r : Reply) (s : State) :
    effect i (withHost p r s) = withHost p r (effect i s) := effect_of_exec (exec_withHost i p r s)

/-- A command leaves the host's side as it was. -/
theorem effect_host (i : Instr) (s : State) : (effect i s).pending = s.pending ∧ (effect i s).reply = s.reply := by
  have h := effect_withHost i s.pending s.reply s
  have hs : withHost s.pending s.reply s = s := rfl
  rw [hs] at h
  rw [h]
  exact ⟨rfl, rfl⟩

theorem perform_nil (s : State) : perform [] s = .next { s with pending := [] } := rfl

/-- The first access of a run, if it answers a next state. -/
theorem perform_cons {a : HostAction} {acts : List HostAction} {s t : State}
    (h : performAction a { s with pending := acts, reply := .none } = .next t) (hp : t.pending = acts) :
    perform (a :: acts) s = perform acts t := by
  have hs : Sys2Proof.core.step { s with pending := a :: acts } = .next t := h
  have ht : { t with pending := acts } = t := by subst hp; rfl
  simp only [perform, List.length_cons, Host.Core.run, hs, ht]
  rfl

/-- A CMD write of a command's word. -/
theorem performAction_command {i : Instr} (hi : decode (encode i) = .ok i) (s : State) :
    performAction (.write cmdOffset 4 (encode i)) s = exec i s := by
  have h1 : admitted cmdOffset 4 = true := rfl
  have h2 : regOffset cmdOffset = cmdOffset := rfl
  simp only [performAction, hostWrite, h1, h2, if_true, execWord, hi]

/-- A run of commands is the fold of their effects; the run clears the host's side. -/
theorem runCommands_eq : ∀ (cmds : List Instr), (∀ i ∈ cmds, decode (encode i) = .ok i) → ∀ s : State,
    runCommands cmds s = .next (withHost [] (if cmds = [] then s.reply else .none) (cmds.foldl (fun t i => effect i t) s)) := by
  intro cmds
  induction cmds with
  | nil => intro _ s; rfl
  | cons i cmds ih =>
    intro h s
    have h1 := performAction_command (h i List.mem_cons_self) (withHost (commandWrites cmds) .none s)
    rw [exec_withHost] at h1
    have h2 : runCommands (i :: cmds) s = runCommands cmds (withHost (commandWrites cmds) .none (effect i s)) :=
      perform_cons h1 rfl
    rw [h2, ih (fun j hj => h j (List.mem_cons_of_mem _ hj))]
    have h3 : ∀ (l : List Instr) (u : State) (p : List HostAction) (r : Reply),
        l.foldl (fun t i => effect i t) (withHost p r u) = withHost p r (l.foldl (fun t i => effect i t) u) := by
      intro l
      induction l with
      | nil => intro u p r; rfl
      | cons j l ihl => intro u p r; rw [List.foldl_cons, List.foldl_cons, effect_withHost, ihl]
    rw [h3]
    simp [withHost]

end Sys2Proof.Machine
end

