-- ==== Sys2Proof/Laws/Session.lean ====
section
/-! SUPPORT. Sessions: a run of enc.sym commands in terms of the bits of their codes, and a run of dec.bits commands as one
walk of the automaton. -/

namespace Sys2Proof.Machine

/-- `s` after `k` more bits and `n` more symbols, which emitted the bytes `out` and left the bits `pend` in the packer. -/
def emitted (s : State) (out : List Byte) (pend : Bits) (k n : Nat) : State :=
  { s with
    eout := s.eout ++ out
    enc := { s.enc with pend := pend, bitCnt := s.enc.bitCnt + BitVec.ofNat 32 k,
                        symCnt := s.enc.symCnt + BitVec.ofNat 32 n } }

theorem emitted_emitted (s : State) (o o' : List Byte) (p p' : Bits) (k k' n n' : Nat) :
    emitted (emitted s o p k n) o' p' k' n' = emitted s (o ++ o') p' (k + k') (n + n') := by
  simp only [emitted, List.append_assoc, BitVec.ofNat_add, BitVec.add_assoc]

theorem encodedBits_emitted (s : State) (o : List Byte) (p : Bits) (k n : Nat) (S : List Symbol) :
    encodedBits (emitted s o p k n) S = encodedBits s S := rfl

/-- What a session's whole bytes and its last partial byte make together. -/
theorem bytesOfBits_split (E : Bits) : bytesOfBits E = wholeBytes E ++ bytesOfBits (packerRest E) := by
  simp only [wholeBytes, packerRest]
  rw [← bytesOfBits_append, List.take_append_drop]
  rw [List.length_take]; omega

/-- enc.sym of a symbol with a code, in a session (R138). -/
theorem effect_encSym {s : State} {x : Symbol} (hr : s.enc.state = .run) (hv : cbLen s x ≠ 0)
    (hp : s.enc.pend.length ≤ 7) :
    effect (.encSym x) s =
      emitted s (wholeBytes (s.enc.pend ++ encodedBits s [x])) (packerRest (s.enc.pend ++ encodedBits s [x]))
        (encodedBits s [x]).length 1 := by
  apply effect_of_exec
  have e : encodedBits s [x] = codeString s x (cbLen s x).toNat := by simp [encodedBits]
  simp only [exec, execEncSym, encGate, hr, encodeSymbol, hv, if_false, appendAll_eq _ s hp, ← e, emitted]
  simp [incEncSymCnt, inc32]

/-- enc.sym of each symbol of a sequence, all of which have a code (R142). -/
theorem fold_encSym (S : List Symbol) : ∀ s : State, (∀ x ∈ S, cbLen s x ≠ 0) → s.enc.state = .run →
    s.enc.pend.length ≤ 7 →
    (S.map Instr.encSym).foldl (fun t i => effect i t) s =
      emitted s (wholeBytes (s.enc.pend ++ encodedBits s S)) (packerRest (s.enc.pend ++ encodedBits s S))
        (encodedBits s S).length S.length := by
  induction S with
  | nil =>
    intro s _ _ hp
    simp [encodedBits, emitted, packerRest_of_short hp, wholeBytes_of_short hp]
  | cons x S ih =>
    intro s hv hr hp
    have hl := packerRest_length (s.enc.pend ++ encodedBits s [x])
    have e : encodedBits s (x :: S) = encodedBits s [x] ++ encodedBits s S := by simp [encodedBits]
    rw [List.map_cons, List.foldl_cons, effect_encSym hr (hv x List.mem_cons_self) hp]
    generalize hu : emitted s _ _ _ _ = u
    have hup : u.enc.pend = packerRest (s.enc.pend ++ encodedBits s [x]) := by rw [← hu]; rfl
    have hue : encodedBits u S = encodedBits s S := by rw [← hu]; rfl
    rw [ih u (fun y hy => by rw [← hu]; exact hv y (List.mem_cons_of_mem _ hy)) (by rw [← hu]; exact hr)
      (by rw [hup, packerRest_length]; omega), hup, hue, ← hu, emitted_emitted, wholeBytes_append, packerRest_append, e,
      List.append_assoc, List.length_append, List.length_cons, Nat.add_comm 1]

/-- A walk that begins in a session ends in it, or in ERR. -/
theorem walk_run_or_err (p : Bits) : ∀ s : State, s.dec.state = .run →
    (walk p s).dec.state = .run ∨ (walk p s).dec.state = .err := by
  induction p with
  | nil => intro s h; exact .inl h
  | cons b p ih =>
    intro s h
    rw [walk]
    by_cases hh : (dstep b s).dec.state = .err
    · simp [hh]
    · simp only [hh, if_false]
      refine ih _ ?_
      rcases dstep_cases b s with h' | ⟨x, h'⟩ | ⟨c, h'⟩
      · exact absurd (by rw [h']; rfl) hh
      · rw [h']; exact h
      · rw [h']; exact h

theorem streamBits_length (n : Nat) (d : BitVec 16) : (streamBits n d).length = n := by simp [streamBits]

theorem streamBits_add (n m : Nat) (d : BitVec 16) :
    streamBits (n + m) d = streamBits n d ++ streamBits m (d <<< n) := by
  simp only [streamBits, List.range_add, List.map_append, List.map_map]
  congr 1
  refine List.map_congr_left fun i _ => ?_
  simp [BitVec.getMsbD_shiftLeft, Nat.add_comm]

theorem streamBits_take {n m : Nat} (h : n ≤ m) (d : BitVec 16) : streamBits n d = (streamBits m d).take n := by
  simp only [streamBits, ← List.map_take, List.take_range, Nat.min_eq_left h]

/-- dec.feed8 presents the bits of its byte (R103). -/
theorem streamBits_byte (b : Byte) : streamBits 8 (b ++ 0#8) = (List.range 8).map fun i => b.getMsbD i := by
  refine List.map_congr_left fun i hi => ?_
  have hi := List.mem_range.1 hi
  simp only [BitVec.getMsbD, BitVec.getLsbD_append]
  simp [hi, show ¬ (15 - i < 8) by omega, show i < 16 by omega]
  congr 1; omega

theorem bitsOfBytes_cons (b : Byte) (bs : List Byte) : bitsOfBytes (b :: bs) = streamBits 8 (b ++ 0#8) ++ bitsOfBytes bs := by
  rw [streamBits_byte]; rfl

/-- The bytes a bit string becomes carry it, and padding after it (R71). -/
theorem bitsOfBytes_bytesOfBits : ∀ (k : Nat) (E : Bits), E.length ≤ k →
    (bitsOfBytes (bytesOfBits E)).take E.length = E := by
  intro k
  induction k with
  | zero => intro E h; rw [List.length_eq_zero_iff.1 (show E.length = 0 by omega)]; rfl
  | succ k ih =>
    intro E h
    have one : ∀ A : Bits, A.length ≤ 8 → (streamBits 8 (packByte A ++ 0#8)).take A.length = A := fun A h8 => by
      rw [← streamBits_take h8, streamBits_packByte A h8]
    by_cases h0 : E.length = 0
    · rw [List.length_eq_zero_iff.1 h0]; rfl
    by_cases h8 : 8 ≤ E.length
    · have hA : (E.take 8).length = 8 := by rw [List.length_take]; omega
      have hb : bytesOfBits E = packByte (E.take 8) :: bytesOfBits (E.drop 8) := by
        conv_lhs => rw [← List.take_append_drop 8 E]
        rw [bytesOfBits_append _ _ (by omega), bytesOfBits_short _ (by omega) (by omega)]; rfl
      have h1 := one (E.take 8) (by omega)
      rw [hA, List.take_of_length_le (by rw [streamBits_length])] at h1
      have h2 := ih (E.drop 8) (by rw [List.length_drop]; omega)
      rw [List.length_drop] at h2
      rw [hb, bitsOfBytes_cons, List.take_append, streamBits_length, h1, List.take_of_length_le (by omega), h2,
        List.take_append_drop]
    · rw [bytesOfBits_short _ (by omega) (by omega), bitsOfBytes_cons, List.take_append, streamBits_length,
        show E.length - 8 = 0 by omega, one E (by omega)]
      simp

/-- A run of dec.bits commands without an error is one walk over the bits they present (R72, R170). -/
theorem fold_decBits (chunks : List (Nat × BitVec 16)) : ∀ s : State, s.dec.state = .run →
    (walk (presentedBits chunks) s).dec.state = .run →
    (chunks.map fun c => Instr.decBits c.1 c.2).foldl (fun t i => effect i t) s = walk (presentedBits chunks) s := by
  induction chunks with
  | nil => intro s _ _; rfl
  | cons c cs ih =>
    intro s hr hw
    have e : presentedBits (c :: cs) = streamBits c.1 c.2 ++ presentedBits cs := by simp [presentedBits]
    rw [e, walk_append _ _ _ (by rw [hr]; decide)] at hw ⊢
    have he : effect (.decBits c.1 c.2) s = walk (streamBits c.1 c.2) s := by
      apply effect_of_exec; simp only [exec, execDecBits, decGate, hr]
    by_cases h : (walk (streamBits c.1 c.2) s).dec.state = .err
    · simp [h] at hw
    · rw [if_neg h] at hw ⊢
      rw [List.map_cons, List.foldl_cons, he]
      exact ih _ ((walk_run_or_err _ s hr).resolve_right h) hw

end Sys2Proof.Machine
end

