-- ==== Sys2Proof/Laws/Frames.lean ====
section
/-! SUPPORT. Frames: what the session commands of each engine can change, the engine states they can lead to, and, said once,
everything one step can be. -/

namespace Sys2Proof.Machine

/-- From `s` to `t` nothing changed but the encoder's session state and the bytes appended to EOUT. -/
structure EncSession (s t : State) : Prop where
  frame : t = { s with eout := t.eout, enc := { t.enc with len := s.enc.len, code := s.enc.code } }
  grows : ∃ o, t.eout = s.eout ++ o

/-- From `s` to `t` nothing changed but the decoder's session state, its cursor and the symbols appended to DOUT. -/
structure DecSession (s t : State) : Prop where
  frame : t = { s with dout := t.dout, dec := { t.dec with
    root := s.dec.root, kind := s.dec.kind, left := s.dec.left, right := s.dec.right, sym := s.dec.sym } }
  grows : ∃ o, t.dout = s.dout ++ o

theorem EncSession.refl (s : State) : EncSession s s := ⟨rfl, [], by simp⟩

theorem DecSession.refl (s : State) : DecSession s s := ⟨rfl, [], by simp⟩

theorem EncSession.trans {s t u : State} (h : EncSession s t) (k : EncSession t u) : EncSession s u := by
  obtain ⟨o, ho⟩ := h.grows
  obtain ⟨o', ho'⟩ := k.grows
  refine ⟨?_, o ++ o', by rw [ho', ho, List.append_assoc]⟩
  have hf := h.frame
  have kf := k.frame
  rw [hf] at kf
  exact kf

theorem DecSession.trans {s t u : State} (h : DecSession s t) (k : DecSession t u) : DecSession s u := by
  obtain ⟨o, ho⟩ := h.grows
  obtain ⟨o', ho'⟩ := k.grows
  refine ⟨?_, o ++ o', by rw [ho', ho, List.append_assoc]⟩
  have hf := h.frame
  have kf := k.frame
  rw [hf] at kf
  exact kf

theorem appendAll_session (bs : Bits) : ∀ s : State, EncSession s (appendAll bs s) := by
  induction bs with
  | nil => exact EncSession.refl
  | cons b bs ih =>
    intro s
    have h : EncSession s (append b s) := by
      simp only [append]
      split
      · exact ⟨rfl, _, rfl⟩
      · exact ⟨rfl, [], (List.append_nil _).symm⟩
    exact h.trans (ih _)

theorem walk_session (bs : Bits) : ∀ s : State, DecSession s (walk bs s) := by
  induction bs with
  | nil => exact DecSession.refl
  | cons b bs ih =>
    intro s
    have h : DecSession s (dstep b s) := by
      rcases dstep_cases b s with h | ⟨x, h⟩ | ⟨c, h⟩ <;> rw [h] <;> exact ⟨rfl, _, rfl⟩
    rw [walk]
    split
    · exact h
    · exact h.trans (ih _)

/-! ### The gates -/

/-- The encoder's gate said once (R132). -/
theorem encGate_cases (s : State) (f : State → State) :
    (s.enc.state = .err ∧ encGate s f = s) ∨
    ((s.enc.state = .idle ∨ s.enc.state = .done) ∧ encGate s f = raiseE .sequenceError s) ∨
    (s.enc.state = .run ∧ encGate s f = f s) := by
  cases h : s.enc.state <;> simp [encGate, h]

/-- The decoder's gate said once (R169). -/
theorem decGate_cases (s : State) (f : State → State) :
    (s.dec.state = .err ∧ decGate s f = s) ∨
    ((s.dec.state = .idle ∨ s.dec.state = .done) ∧ decGate s f = raiseD .sequenceError s) ∨
    (s.dec.state = .run ∧ decGate s f = f s) := by
  cases h : s.dec.state <;> simp [decGate, h]

theorem encGate_session {s : State} {f : State → State} (h : EncSession s (f s)) : EncSession s (encGate s f) := by
  rcases encGate_cases s f with ⟨-, h'⟩ | ⟨-, h'⟩ | ⟨-, h'⟩ <;> rw [h']
  · exact EncSession.refl s
  · exact ⟨rfl, [], (List.append_nil _).symm⟩
  · exact h

theorem decGate_session {s : State} {f : State → State} (h : DecSession s (f s)) : DecSession s (decGate s f) := by
  rcases decGate_cases s f with ⟨-, h'⟩ | ⟨-, h'⟩ | ⟨-, h'⟩ <;> rw [h']
  · exact DecSession.refl s
  · exact ⟨rfl, [], (List.append_nil _).symm⟩
  · exact h

/-! ### The session commands of the encoder -/

theorem encStart_session (s : State) : EncSession s (effect .encStart s) ∧
    ((effect .encStart s).enc.state = .run ∨ (effect .encStart s).enc.state = .err) := by
  have he : effect .encStart s = if anyValid (openEncSession s) then setEncState .run (openEncSession s)
    else raiseE .emptyAlphabet (openEncSession s) := effect_of_exec rfl
  rw [he]
  split
  · exact ⟨⟨rfl, [], (List.append_nil _).symm⟩, .inl rfl⟩
  · exact ⟨⟨rfl, [], (List.append_nil _).symm⟩, .inr rfl⟩

theorem effect_encSym_gate (x : Symbol) (s : State) : effect (.encSym x) s = encGate s (encodeSymbol x) :=
  effect_of_exec rfl

theorem effect_encFlush_gate (s : State) : effect .encFlush s = encGate s flushPacker := effect_of_exec rfl

theorem encSym_session (x : Symbol) (s : State) : EncSession s (effect (.encSym x) s) := by
  rw [effect_encSym_gate]
  refine encGate_session ?_
  simp only [encodeSymbol]
  split
  · exact ⟨rfl, [], (List.append_nil _).symm⟩
  · exact (appendAll_session _ s).trans ⟨rfl, [], (List.append_nil _).symm⟩

theorem appendAll_state (bs : Bits) : ∀ s : State,
    (appendAll bs s).enc.state = s.enc.state ∧ (appendAll bs s).enc.err = s.enc.err := by
  induction bs with
  | nil => exact fun _ => ⟨rfl, rfl⟩
  | cons b bs ih =>
    intro s
    have h : (append b s).enc.state = s.enc.state ∧ (append b s).enc.err = s.enc.err := by
      simp only [append]; split <;> exact ⟨rfl, rfl⟩
    exact ⟨(ih _).1.trans h.1, (ih _).2.trans h.2⟩

theorem encSym_state (x : Symbol) (s : State) :
    (effect (.encSym x) s).enc.state = s.enc.state ∨ (effect (.encSym x) s).enc.state = .err := by
  rw [effect_encSym_gate]
  rcases encGate_cases s (encodeSymbol x) with ⟨-, h'⟩ | ⟨-, h'⟩ | ⟨-, h'⟩ <;> rw [h']
  · exact .inl rfl
  · exact .inr rfl
  · simp only [encodeSymbol]
    split
    · exact .inr rfl
    · exact .inl (appendAll_state _ s).1

theorem encFlush_session (s : State) : EncSession s (effect .encFlush s) := by
  rw [effect_encFlush_gate]
  refine encGate_session ?_
  simp only [flushPacker]
  split
  · exact ⟨rfl, _, rfl⟩
  · exact ⟨rfl, [], (List.append_nil _).symm⟩

theorem encFlush_state (s : State) :
    (effect .encFlush s).enc.state = .done ∨ (effect .encFlush s).enc.state = .err := by
  rw [effect_encFlush_gate]
  rcases encGate_cases s flushPacker with ⟨h, h'⟩ | ⟨-, h'⟩ | ⟨-, h'⟩ <;> rw [h']
  · exact .inr h
  · exact .inr rfl
  · exact .inl rfl

/-! ### The session commands of the decoder -/

theorem decStart_session (s : State) : DecSession s (effect .decStart s) ∧
    ((effect .decStart s).dec.state = .run ∨ (effect .decStart s).dec.state = .err) := by
  have he : effect .decStart s = if nodeKind (openDecSession s) (openDecSession s).dec.root = .invalid then
    raiseD .emptyAlphabet (openDecSession s) else setDecState .run (openDecSession s) := effect_of_exec rfl
  rw [he]
  split
  · exact ⟨⟨rfl, [], (List.append_nil _).symm⟩, .inr rfl⟩
  · exact ⟨⟨rfl, [], (List.append_nil _).symm⟩, .inl rfl⟩

theorem effect_decBits_gate (n : Nat) (d : BitVec 16) (s : State) :
    effect (.decBits n d) s = decGate s (walk (streamBits n d)) := effect_of_exec rfl

theorem effect_decEnd_gate (s : State) : effect .decEnd s = decGate s checkTerminal := effect_of_exec rfl

theorem decBits_session (n : Nat) (d : BitVec 16) (s : State) : DecSession s (effect (.decBits n d) s) := by
  rw [effect_decBits_gate]
  exact decGate_session (walk_session _ s)

theorem decBits_state (n : Nat) (d : BitVec 16) (s : State) :
    (effect (.decBits n d) s).dec.state = s.dec.state ∨ (effect (.decBits n d) s).dec.state = .err := by
  rw [effect_decBits_gate]
  rcases decGate_cases s (walk (streamBits n d)) with ⟨-, h'⟩ | ⟨-, h'⟩ | ⟨h, h'⟩ <;> rw [h']
  · exact .inl rfl
  · exact .inr rfl
  · rw [h]; exact walk_run_or_err _ s h

/-- dec.end changes the decoder's state and error code alone. -/
theorem decEnd_frame (s : State) : effect .decEnd s =
    { s with dec := { s.dec with state := (effect .decEnd s).dec.state, err := (effect .decEnd s).dec.err } } := by
  rw [effect_decEnd_gate]
  rcases decGate_cases s checkTerminal with ⟨-, h'⟩ | ⟨-, h'⟩ | ⟨-, h'⟩ <;> rw [h']
  · rfl
  · simp only [checkTerminal]; split <;> rfl

theorem decEnd_session (s : State) : DecSession s (effect .decEnd s) := by
  rw [decEnd_frame]; exact ⟨rfl, [], (List.append_nil _).symm⟩

theorem decEnd_state (s : State) : (effect .decEnd s).dec.state = .done ∨ (effect .decEnd s).dec.state = .err := by
  rw [effect_decEnd_gate]
  rcases decGate_cases s checkTerminal with ⟨h, h'⟩ | ⟨-, h'⟩ | ⟨-, h'⟩ <;> rw [h']
  · exact .inr h
  · exact .inr rfl
  · simp only [checkTerminal]
    split
    · exact .inl rfl
    · exact .inr rfl

/-! ### Every command -/

/-- A decoder command leaves the encoder as it was (R39). -/
theorem effect_enc_of_decoder {i : Instr} (h : isDecoderCommand i = true) (s : State) : (effect i s).enc = s.enc := by
  have D : ∀ {t : State}, DecSession s t → t.enc = s.enc := fun h => by rw [h.frame]
  cases i
  case decStart => exact D (decStart_session s).1
  case decBits n d => exact D (decBits_session n d s)
  case decEnd => exact D (decEnd_session s)
  all_goals first | rfl | cases h

theorem fold_enc_of_decoder (cmds : List Instr) : ∀ s : State, (∀ i ∈ cmds, isDecoderCommand i = true) →
    (cmds.foldl (fun t i => effect i t) s).enc = s.enc := by
  induction cmds with
  | nil => intro s _; rfl
  | cons i cmds ih =>
    intro s h
    rw [List.foldl_cons, ih _ fun j hj => h j (List.mem_cons_of_mem _ hj), effect_enc_of_decoder (h i List.mem_cons_self)]

/-- Every command keeps the canonical form of the table RAMs (log 4). -/
theorem effect_wf (i : Instr) (s : State) (h : Memory.wf s = true) : Memory.wf (effect i s) = true := by
  have E : ∀ {t}, EncSession s t → Memory.wf t = true := by
    intro t h'
    rw [h'.frame, ← h]
    exact Memory.wf_congr rfl rfl rfl rfl rfl rfl
  have D : ∀ {t}, DecSession s t → Memory.wf t = true := by
    intro t h'
    rw [h'.frame, ← h]
    exact Memory.wf_congr rfl rfl rfl rfl rfl rfl
  cases i
  case encSym x => exact E (encSym_session x s)
  case encFlush => exact E (encFlush_session s)
  case encStart => exact E (encStart_session s).1
  case decBits n d => exact D (decBits_session n d s)
  case decEnd => exact D (decEnd_session s)
  case decStart => exact D (decStart_session s).1
  case ctlSrst => exact wf_resetState s
  case encClr => exact wf_clearCbLens h
  case encSetlen x l => exact wf_setCbLen x l h
  case encLdcode x c d => exact wf_setCodeChunk x c d h
  case decClr => exact wf_clearNodeKinds h
  case decLdint i l r => exact wf_setNodeChildren i l r (wf_setNodeKind i _ h)
  case decLdleaf i x => exact wf_setNodeSym i x (wf_setNodeKind i _ h)
  all_goals exact h

/-- A command appends to the streams at most; the host's places in them stay (R49, R68). -/
theorem effect_streams (i : Instr) (s : State) :
    ∃ e d, (effect i s).eout = s.eout ++ e ∧ (effect i s).dout = s.dout ++ d ∧
      (effect i s).eoutTaken = s.eoutTaken ∧ (effect i s).doutTaken = s.doutTaken := by
  have E : ∀ {t}, EncSession s t → ∃ e d, t.eout = s.eout ++ e ∧ t.dout = s.dout ++ d ∧
      t.eoutTaken = s.eoutTaken ∧ t.doutTaken = s.doutTaken := by
    intro t h; obtain ⟨o, ho⟩ := h.grows
    have hf := h.frame
    refine ⟨o, [], ho, ?_, ?_, ?_⟩ <;> rw [hf]; simp
  have D : ∀ {t}, DecSession s t → ∃ e d, t.eout = s.eout ++ e ∧ t.dout = s.dout ++ d ∧
      t.eoutTaken = s.eoutTaken ∧ t.doutTaken = s.doutTaken := by
    intro t h; obtain ⟨o, ho⟩ := h.grows
    have hf := h.frame
    refine ⟨[], o, ?_, ho, ?_, ?_⟩ <;> rw [hf]; simp
  cases i
  case encSym x => exact E (encSym_session x s)
  case encFlush => exact E (encFlush_session s)
  case encStart => exact E (encStart_session s).1
  case decBits n d => exact D (decBits_session n d s)
  case decEnd => exact D (decEnd_session s)
  case decStart => exact D (decStart_session s).1
  all_goals exact ⟨[], [], (List.append_nil _).symm, (List.append_nil _).symm, rfl, rfl⟩

/-! ### One step -/

/-- Everything a step that answers a next state can be: idle; a legal command; an illegal word; a read, an ignored write or
an empty port; an element delivered; a hardware reset. -/
theorem step_cases {s t : State} (h : step s = .next t) :
    (s.pending = [] ∧ t = s) ∨
    (∃ a rest, s.pending = a :: rest ∧
      ((∃ addr w i, a = .write addr 4 w ∧ addr % 64 = 0x08 ∧ decode w = .ok i ∧
        t = effect i { s with pending := rest, reply := .none }) ∨
       (∃ addr w e, a = .write addr 4 w ∧ addr % 64 = 0x08 ∧ decode w = .error e ∧
        t = raiseIllegal { s with pending := rest, reply := .none }) ∨
       (∃ v, t = { s with pending := rest, reply := v }) ∨
       (∃ v, s.eoutTaken < s.eout.length ∧ t = { s with pending := rest, reply := v, eoutTaken := s.eoutTaken + 1 }) ∨
       (∃ v, s.doutTaken < s.dout.length ∧ t = { s with pending := rest, reply := v, doutTaken := s.doutTaken + 1 }) ∨
       (a = .hardwareReset ∧ t = hardReset { s with pending := rest, reply := .none }))) := by
  simp only [step, performNext] at h
  cases hp : s.pending with
  | nil => rw [hp] at h; exact .inl ⟨rfl, by cases h; rfl⟩
  | cons a rest =>
    rw [hp] at h
    refine .inr ⟨a, rest, rfl, ?_⟩
    cases a with
    | read addr size =>
      simp only [performAction, hostRead] at h
      split at h
      · cases h; exact .inr (.inr (.inl ⟨_, rfl⟩))
      · cases h
    | write addr size v =>
      simp only [performAction, hostWrite] at h
      split at h
      · rename_i hadm
        simp only [admitted, Bool.and_eq_true, decide_eq_true_eq] at hadm
        obtain ⟨rfl, -⟩ := hadm
        split at h
        · rename_i hc
          simp only [execWord] at h
          split at h
          · rename_i i hi
            exact .inl ⟨addr, v, i, rfl, hc, hi, (effect_of_exec h).symm⟩
          · rename_i e he
            cases h; exact .inr (.inl ⟨addr, v, e, rfl, hc, he, rfl⟩)
        · cases h; exact .inr (.inr (.inl ⟨_, rfl⟩))
      · cases h
    | takeE =>
      simp only [performAction, hostTakeE] at h
      split at h
      · rename_i b hb
        cases h; exact .inr (.inr (.inr (.inl ⟨_, (List.getElem?_eq_some_iff.1 hb).1, rfl⟩)))
      · cases h; exact .inr (.inr (.inl ⟨_, rfl⟩))
    | takeD =>
      simp only [performAction, hostTakeD] at h
      split at h
      · rename_i b hb
        cases h; exact .inr (.inr (.inr (.inr (.inl ⟨_, (List.getElem?_eq_some_iff.1 hb).1, rfl⟩))))
      · cases h; exact .inr (.inr (.inl ⟨_, rfl⟩))
    | hardwareReset => cases h; exact .inr (.inr (.inr (.inr (.inr ⟨rfl, rfl⟩))))

end Sys2Proof.Machine
end

