-- ==== Sys2Proof/Laws/Loading.lean ====
section
/-! SUPPORT. Loading the tables: each loading command writes one place, so commands that write different places leave what they
wrote whatever their order. -/

namespace Sys2Proof.Machine

/-- What one loading command writes. -/
inductive Place where
  | chunk (sym : Symbol) (chunk : BitVec 4)
  | len (sym : Symbol)
  | node (idx : NodeIdx)
  | root
  deriving DecidableEq, Repr

/-- The place a command writes, if it is a loading command. -/
def placeOf : Instr → Option Place
  | .encLdcode x c _ => some (.chunk x c)
  | .encSetlen x _ => some (.len x)
  | .decLdint i _ _ => some (.node i)
  | .decLdleaf i _ => some (.node i)
  | .decSetroot _ => some .root
  | _ => none

/-- The state holds what a loading command writes. -/
def Loaded (s : State) : Instr → Prop
  | .encLdcode x c d => ∀ j, j < 16 → codeBit s x (16 * c.toNat + j) = d.getMsbD j
  | .encSetlen x l => cbLen s x = l
  | .decLdint i l r => nodeKind s i = .internal ∧ nodeLeft s i = l ∧ nodeRight s i = r
  | .decLdleaf i x => nodeKind s i = .leaf ∧ nodeSym s i = x
  | .decSetroot i => s.dec.root = i ∧ s.dec.cursor = i
  | _ => True

/-- The states that differ in the tables, the root and the cursor alone. -/
def TablesOnly (s t : State) : Prop :=
  t = { s with
    enc := { s.enc with len := t.enc.len, code := t.enc.code }
    dec := { s.dec with kind := t.dec.kind, left := t.dec.left, right := t.dec.right, sym := t.dec.sym,
                        root := t.dec.root, cursor := t.dec.cursor } }

theorem TablesOnly.trans {s t u : State} (h : TablesOnly s t) (k : TablesOnly t u) : TablesOnly s u := by
  unfold TablesOnly at *; rw [h] at k; exact k

theorem tablesOnly_effect {i : Instr} {p : Place} (h : placeOf i = some p) (s : State) : TablesOnly s (effect i s) := by
  cases i <;> try cases h
  all_goals rfl

/-- A loading command leaves what it writes. -/
theorem loaded_effect {i : Instr} {p : Place} (h : placeOf i = some p) (s : State) : Loaded (effect i s) i := by
  cases i <;> try cases h
  case encLdcode x c d =>
    intro j hj
    have hc := c.isLt
    exact (codeBit_setCodeChunk x x hc (by omega) d s).trans (by
      rw [if_pos ⟨rfl, by omega⟩, show (16 * c.toNat + j) % 16 = j by omega])
  case encSetlen x l => exact (cbLen_setCbLen x x l s).trans (if_pos rfl)
  case decLdint i l r =>
    exact ⟨(nodeKind_setNodeKind i i .internal s).trans (if_pos rfl), (nodeLeft_setNodeChildren i l r i _).trans (if_pos rfl),
      (nodeRight_setNodeChildren i l r i _).trans (if_pos rfl)⟩
  case decLdleaf i x =>
    exact ⟨(nodeKind_setNodeKind i i .leaf s).trans (if_pos rfl), (nodeSym_setNodeSym i i x _).trans (if_pos rfl)⟩
  case decSetroot i => exact ⟨rfl, rfl⟩

/-- What a command wrote stays under a command that writes another place. -/
theorem loaded_keep {i j : Instr} {p q : Place} (hi : placeOf i = some p) (hj : placeOf j = some q) (hne : p ≠ q) {s : State}
    (h : Loaded s i) : Loaded (effect j s) i := by
  cases i <;> cases hi <;> cases j <;> cases hj <;> try exact h
  case encLdcode.refl.encLdcode.refl x c d y e f =>
    intro k hk
    have hc := c.isLt
    have he := e.isLt
    refine (codeBit_setCodeChunk y x he (by omega) f s).trans ?_
    rw [if_neg ?_]
    · exact h k hk
    · rintro ⟨rfl, hh⟩
      exact hne (by rw [BitVec.eq_of_toNat_eq (show c.toNat = e.toNat by omega)])
  case encSetlen.refl.encSetlen.refl x l y m =>
    exact ((cbLen_setCbLen y x m s).trans (if_neg fun hh => hne (by rw [hh]))).trans h
  case decLdint.refl.decLdint.refl i l r j l' r' =>
    have hh : i ≠ j := fun hh => hne (by rw [hh])
    exact ⟨((nodeKind_setNodeKind j i .internal s).trans (if_neg hh)).trans h.1,
      ((nodeLeft_setNodeChildren j l' r' i _).trans (if_neg hh)).trans h.2.1,
      ((nodeRight_setNodeChildren j l' r' i _).trans (if_neg hh)).trans h.2.2⟩
  case decLdint.refl.decLdleaf.refl i l r j x =>
    have hh : i ≠ j := fun hh => hne (by rw [hh])
    exact ⟨((nodeKind_setNodeKind j i .leaf s).trans (if_neg hh)).trans h.1, h.2⟩
  case decLdleaf.refl.decLdint.refl i x j l r =>
    have hh : i ≠ j := fun hh => hne (by rw [hh])
    exact ⟨((nodeKind_setNodeKind j i .internal s).trans (if_neg hh)).trans h.1, h.2⟩
  case decLdleaf.refl.decLdleaf.refl i x j y =>
    have hh : i ≠ j := fun hh => hne (by rw [hh])
    exact ⟨((nodeKind_setNodeKind j i .leaf s).trans (if_neg hh)).trans h.1,
      ((nodeSym_setNodeSym j i y _).trans (if_neg hh)).trans h.2⟩
  case decSetroot.refl.decSetroot.refl => exact absurd rfl hne

/-- Loading commands that write different places leave what each of them writes, and change the tables alone. -/
theorem fold_loaded (cmds : List Instr) : ∀ s : State, (∀ i ∈ cmds, placeOf i ≠ none) → (cmds.filterMap placeOf).Nodup →
    (∀ i ∈ cmds, Loaded (cmds.foldl (fun t i => effect i t) s) i) ∧
    (∀ i p, placeOf i = some p → p ∉ cmds.filterMap placeOf → Loaded s i →
      Loaded (cmds.foldl (fun t i => effect i t) s) i) ∧
    TablesOnly s (cmds.foldl (fun t i => effect i t) s) := by
  induction cmds with
  | nil => intro s _ _; exact ⟨by simp, fun _ _ _ _ h => h, rfl⟩
  | cons i cmds ih =>
    intro s hp hn
    obtain ⟨p, hi⟩ := Option.ne_none_iff_exists'.1 (hp i List.mem_cons_self)
    rw [List.filterMap_cons_some hi] at hn ⊢
    obtain ⟨hn1, hn2⟩ := List.nodup_cons.1 hn
    obtain ⟨h1, h2, h3⟩ := ih (effect i s) (fun j hj => hp j (List.mem_cons_of_mem _ hj)) hn2
    refine ⟨?_, ?_, (tablesOnly_effect hi s).trans h3⟩
    · intro j hj
      rcases List.mem_cons.1 hj with rfl | hj
      · exact h2 _ p hi hn1 (loaded_effect hi s)
      · exact h1 j hj
    · intro j q hj hq hl
      obtain ⟨hq1, hq2⟩ := not_or.1 (fun h => hq (List.mem_cons.2 h))
      exact h2 j q hj hq2 (loaded_keep hj hi hq1 hl)

/-- Any order of the commands does. -/
theorem fold_loaded_perm {cmds load : List Instr} (hl : load.Perm cmds) (s : State) (hp : ∀ i ∈ cmds, placeOf i ≠ none)
    (hn : (cmds.filterMap placeOf).Nodup) :
    (∀ i ∈ cmds, Loaded (load.foldl (fun t i => effect i t) s) i) ∧
      TablesOnly s (load.foldl (fun t i => effect i t) s) := by
  obtain ⟨h1, -, h3⟩ := fold_loaded load s (fun i hi => hp i (hl.mem_iff.1 hi)) ((hl.filterMap placeOf).nodup_iff.2 hn)
  exact ⟨fun i hi => h1 i (hl.mem_iff.2 hi), h3⟩

/-- A loading command can be encoded. -/
theorem wf_of_placeOf {i : Instr} (h : placeOf i ≠ none) : i.wf = true := by
  cases i <;> first | rfl | exact absurd rfl h

/-! ### The places of a tree -/

/-- A state that holds what the commands of a tree write holds the tree. -/
theorem holdsTree_of_loaded {s : State} (num : Bits → NodeIdx) :
    ∀ {T : Tree} {p : Bits}, (∀ i ∈ loadFrom num p T, Loaded s i) → HoldsTree s T (num p)
  | .leaf _, _, h => h _ List.mem_cons_self
  | .node l r, p, h => by
    obtain ⟨h1, h2, h3⟩ := h (.decLdint (num p) (num (p ++ [false])) (num (p ++ [true]))) List.mem_cons_self
    refine ⟨h1, ?_, ?_⟩
    · rw [h2]; exact holdsTree_of_loaded num fun i hi => h i (List.mem_cons_of_mem _ (List.mem_append_left _ hi))
    · rw [h3]; exact holdsTree_of_loaded num fun i hi => h i (List.mem_cons_of_mem _ (List.mem_append_right _ hi))

/-- The commands of a tree are the decoder's. -/
theorem isDecoderCommand_loadTree (num : Bits → NodeIdx) (T : Tree) : ∀ i ∈ loadTree num T, isDecoderCommand i = true := by
  have h : ∀ (T : Tree) (p : Bits), ∀ i ∈ loadFrom num p T, isDecoderCommand i = true := by
    intro T
    induction T with
    | leaf x => intro p i hi; rw [List.mem_singleton.1 hi]; rfl
    | node l r ihl ihr =>
      intro p i hi
      rcases List.mem_cons.1 hi with rfl | hi
      · rfl
      · exact (List.mem_append.1 hi).elim (ihl _ i) (ihr _ i)
  intro i hi
  rcases List.mem_append.1 hi with hi | hi
  · exact h T [] i hi
  · rw [List.mem_singleton.1 hi]; rfl

/-- The commands of a tree write its nodes. -/
theorem places_loadFrom (num : Bits → NodeIdx) (T : Tree) : ∀ p : Bits,
    (loadFrom num p T).map placeOf = (T.positions.map fun q => some (Place.node (num (p ++ q)))) := by
  induction T with
  | leaf x => intro p; simp [loadFrom, Tree.positions, placeOf]
  | node l r ihl ihr =>
    intro p
    simp only [loadFrom, Tree.positions, List.map_cons, List.map_append, List.map_map, ihl, ihr, placeOf, List.append_nil]
    congr 2 <;> exact List.map_congr_left fun q _ => by simp

theorem places_loadTree (num : Bits → NodeIdx) (T : Tree) :
    (loadTree num T).map placeOf = (((T.positions.map num).map Place.node) ++ [Place.root]).map some := by
  simp [loadTree, places_loadFrom, placeOf, Function.comp_def]

/-- What `filterMap` makes of commands that all have a place. -/
theorem filterMap_placeOf {cmds : List Instr} {places : List Place} (h : cmds.map placeOf = places.map some) :
    cmds.filterMap placeOf = places ∧ ∀ i ∈ cmds, placeOf i ≠ none := by
  constructor
  · have e : cmds.filterMap placeOf = (cmds.map placeOf).filterMap id := by rw [List.filterMap_map]; rfl
    rw [e, h]
    simp
  · intro i hi hn
    have : none ∈ places.map some := by rw [← h, ← hn]; exact List.mem_map_of_mem hi
    simp at this

theorem nodup_loadTree {num : Bits → NodeIdx} {T : Tree} (hn : (T.positions.map num).Nodup) :
    ((loadTree num T).filterMap placeOf).Nodup := by
  rw [(filterMap_placeOf (places_loadTree num T)).1]
  refine List.nodup_append.2 ⟨hn.map fun a b h => by cases h; rfl, by simp, ?_⟩
  intro p hp q hq
  obtain ⟨i, -, rfl⟩ := List.mem_map.1 hp
  rw [List.mem_singleton.1 hq]
  intro h; cases h

/-! ### The places of a codebook -/

/-- The places of one code: its chunks and its length. -/
def codePlaces (x : Symbol) (c : Bits) : List Place :=
  ((List.range ((c.length + 15) / 16)).map fun k => Place.chunk x (BitVec.ofNat 4 k)) ++ [.len x]

theorem places_encCode (x : Symbol) (c : Bits) : (encCode x c).map placeOf = (codePlaces x c).map some := by
  simp [encCode, codePlaces, placeOf, Function.comp_def]

theorem places_loadCodeBook (book : List (Symbol × Bits)) :
    (loadCodeBook book).map placeOf = (book.flatMap fun p => codePlaces p.1 p.2).map some := by
  simp only [loadCodeBook, List.map_flatMap, places_encCode]

theorem nodup_codePlaces {x : Symbol} {c : Bits} (h : c.length ≤ 255) : (codePlaces x c).Nodup := by
  refine List.nodup_append.2 ⟨List.Nodup.map_on ?_ List.nodup_range, by simp, ?_⟩
  · intro a ha b hb hab
    have h1 := List.mem_range.1 ha
    have h2 := List.mem_range.1 hb
    have := congrArg BitVec.toNat (Place.chunk.inj hab).2
    simp only [BitVec.toNat_ofNat] at this
    omega
  · intro p hp q hq
    obtain ⟨k, -, rfl⟩ := List.mem_map.1 hp
    rw [List.mem_singleton.1 hq]
    intro h; cases h

/-- The entry a place belongs to. -/
theorem mem_codePlaces {x : Symbol} {c : Bits} {p : Place} (h : p ∈ codePlaces x c) : (∃ k, p = .chunk x k) ∨ p = .len x := by
  rcases List.mem_append.1 h with h | h
  · obtain ⟨k, -, rfl⟩ := List.mem_map.1 h; exact .inl ⟨_, rfl⟩
  · exact .inr (List.mem_singleton.1 h)

theorem nodup_loadCodeBook {book : List (Symbol × Bits)} (hn : (book.map Prod.fst).Nodup)
    (hl : ∀ p ∈ book, p.2.length ≤ 255) : ((loadCodeBook book).filterMap placeOf).Nodup := by
  rw [(filterMap_placeOf (places_loadCodeBook book)).1]
  refine List.nodup_flatMap.2 ⟨fun p hp => nodup_codePlaces (hl p hp), ?_⟩
  refine (List.pairwise_map.1 hn).imp fun {p q} hpq => ?_
  intro a ha hb
  rcases mem_codePlaces ha with ⟨k, rfl⟩ | rfl <;> rcases mem_codePlaces hb with ⟨m, h⟩ | h <;> injection h <;>
    exact hpq ‹_›

/-- The commands of a tree and those of a codebook write different places. -/
theorem nodup_loadTree_loadCodeBook {num : Bits → NodeIdx} {T : Tree} {book : List (Symbol × Bits)}
    (hT : (T.positions.map num).Nodup) (hn : (book.map Prod.fst).Nodup) (hl : ∀ p ∈ book, p.2.length ≤ 255) :
    ((loadTree num T ++ loadCodeBook book).filterMap placeOf).Nodup := by
  rw [List.filterMap_append]
  refine List.nodup_append.2 ⟨nodup_loadTree hT, nodup_loadCodeBook hn hl, ?_⟩
  rw [(filterMap_placeOf (places_loadTree num T)).1, (filterMap_placeOf (places_loadCodeBook book)).1]
  intro p hp q hq h
  subst h
  obtain ⟨e, -, he⟩ := List.mem_flatMap.1 hq
  rcases List.mem_append.1 hp with hp | hp
  · obtain ⟨i, -, rfl⟩ := List.mem_map.1 hp
    rcases mem_codePlaces he with ⟨k, h⟩ | h <;> cases h
  · rw [List.mem_singleton.1 hp] at he
    rcases mem_codePlaces he with ⟨k, h⟩ | h <;> cases h

/-- A state that holds what enc.code writes holds the code (R103). -/
theorem holdsCode_of_loaded {s : State} {x : Symbol} {c : Bits} (h255 : c.length ≤ 255)
    (h : ∀ i ∈ encCode x c, Loaded s i) : HoldsCode s x c := by
  have hl : cbLen s x = BitVec.ofNat 8 c.length := h (.encSetlen x (BitVec.ofNat 8 c.length)) (by simp [encCode])
  have hn : (cbLen s x).toNat = c.length := by rw [hl]; simp; omega
  refine ⟨hn, ?_⟩
  rw [hn]
  refine List.ext_getElem (by simp [codeString]) fun i h1 h2 => ?_
  simp only [codeString, List.getElem_map, List.getElem_range]
  have hk : i / 16 < (c.length + 15) / 16 := by omega
  have hc := h (.encLdcode x (BitVec.ofNat 4 (i / 16)) (dataOfBits ((c.drop (16 * (i / 16))).take 16)))
    (by simp only [encCode, List.mem_append, List.mem_map, List.mem_range]; exact .inl ⟨_, hk, rfl⟩) (i % 16) (by omega)
  rw [show (BitVec.ofNat 4 (i / 16)).toNat = i / 16 by simp; omega, show 16 * (i / 16) + i % 16 = i by omega] at hc
  rw [hc, dataOfBits_getMsbD _ _ (by omega), List.getD_eq_getElem?_getD, List.getElem?_take_of_lt (by omega),
    List.getElem?_drop, show 16 * (i / 16) + i % 16 = i by omega, List.getElem?_eq_getElem h2]
  rfl

end Sys2Proof.Machine
end

