-- ==== Sys2Proof/Laws/PerInstr.lean ====
section
/-! SUPPORT. A family of statements about every command as syntax, one lemma per constructor: the word `encode` gives stands
in the command's row of spec/opcode_table.json (R101). -/

namespace Sys2Proof.Laws.EncodedInItsRow

/-- The word of the command matches the mask and the pattern of its row of the opcode table. -/
def Statement (i : Instr) : Prop := encode i &&& (opcodeRow i).mask = (opcodeRow i).pattern

/-- Masked with a constant, a word of fields is compared bit by bit. -/
theorem of_bits {w m p : Word} (h : ∀ k, k < 32 → (w.getLsbD k && m.getLsbD k) = p.getLsbD k) : w &&& m = p := by
  apply BitVec.eq_of_getLsbD_eq
  intro k hk
  rw [BitVec.getLsbD_and]
  exact h k hk

theorem ctlNop : Statement .ctlNop := by unfold Statement; decide
theorem ctlClrill : Statement .ctlClrill := by unfold Statement; decide
theorem ctlSrst : Statement .ctlSrst := by unfold Statement; decide
theorem encClr : Statement .encClr := by unfold Statement; decide
theorem encStart : Statement .encStart := by unfold Statement; decide
theorem encFlush : Statement .encFlush := by unfold Statement; decide
theorem decClr : Statement .decClr := by unfold Statement; decide
theorem decStart : Statement .decStart := by unfold Statement; decide
theorem decEnd : Statement .decEnd := by unfold Statement; decide

theorem encLdcode (sym : Symbol) (chunk : BitVec 4) (data : BitVec 16) : Statement (.encLdcode sym chunk data) := by
  refine of_bits fun k hk => ?_
  simp only [encode, opcodeRow, BitVec.getLsbD_append]
  interval_cases k <;> simp
theorem encSetlen (sym : Symbol) (len : BitVec 8) : Statement (.encSetlen sym len) := by
  refine of_bits fun k hk => ?_
  simp only [encode, opcodeRow, BitVec.getLsbD_append]
  interval_cases k <;> simp
theorem encSym (sym : Symbol) : Statement (.encSym sym) := by
  refine of_bits fun k hk => ?_
  simp only [encode, opcodeRow, BitVec.getLsbD_append]
  interval_cases k <;> simp
theorem decLdint (idx left right : NodeIdx) : Statement (.decLdint idx left right) := by
  refine of_bits fun k hk => ?_
  simp only [encode, opcodeRow, BitVec.getLsbD_append]
  interval_cases k <;> simp
theorem decLdleaf (idx : NodeIdx) (sym : Symbol) : Statement (.decLdleaf idx sym) := by
  refine of_bits fun k hk => ?_
  simp only [encode, opcodeRow, BitVec.getLsbD_append]
  interval_cases k <;> simp
theorem decSetroot (idx : NodeIdx) : Statement (.decSetroot idx) := by
  refine of_bits fun k hk => ?_
  simp only [encode, opcodeRow, BitVec.getLsbD_append]
  interval_cases k <;> simp
theorem decBits (n : Nat) (data : BitVec 16) : Statement (.decBits n data) := by
  refine of_bits fun k hk => ?_
  simp only [encode, opcodeRow, BitVec.getLsbD_append]
  interval_cases k <;> simp

end Sys2Proof.Laws.EncodedInItsRow
end

