-- ==== Sys2Proof/Tests/Slice0.lean ====
section
/-! SUPPORT. Tests. Expected values are the spec's own test vectors (spec/95_test_vectors.md; its ids stand in the comments)
or words written out by hand from the formats of R91 and R92. After them, a witness for the hypotheses of each obligation. -/

namespace Sys2Proof.Machine

/-! ### Well-formedness: a count of 0 or 17 is refused (R102) -/

theorem test_wf_refuses_count_0 : (Instr.decBits 0 0).wf = false := by decide
theorem test_wf_refuses_count_17 : (Instr.decBits 17 0).wf = false := by decide
theorem test_wf_accepts_counts_1_and_16 : (Instr.decBits 1 0).wf = true ∧ (Instr.decBits 16 0xFFFF).wf = true := by decide

/-! ### Decoding: words written field by field, most significant first -/

theorem test_decode_control : decode 0b0000_000000000000000000000000_0000#32 = .ok .ctlNop ∧
    decode 0b0000_000000000000000000000000_0001#32 = .ok .ctlClrill ∧
    decode 0b0000_000000000000000000000000_0010#32 = .ok .ctlSrst := by decide
theorem test_decode_encoder_plain : decode 0b0001_0000000000000000000000000000#32 = .ok .encClr ∧
    decode 0b0100_0000000000000000000000000000#32 = .ok .encStart ∧
    decode 0b0110_0000000000000000000000000000#32 = .ok .encFlush := by decide
theorem test_decode_ldcode :
    decode 0b0010_10110011_0101_1000000000000001#32 = .ok (.encLdcode 0b10110011 0b0101 0b1000000000000001) := by decide
theorem test_decode_setlen : decode 0b0011_10110011_000000000000_01111111#32 = .ok (.encSetlen 0b10110011 0b01111111) := by
  decide
theorem test_decode_sym : decode 0b0101_00000000000000000000_10110011#32 = .ok (.encSym 0b10110011) := by decide
theorem test_decode_decoder_plain : decode 0b1000_0000000000000000000000000000#32 = .ok .decClr ∧
    decode 0b1100_0000000000000000000000000000#32 = .ok .decStart ∧
    decode 0b1110_0000000000000000000000000000#32 = .ok .decEnd := by decide
theorem test_decode_ldint : decode 0b1001_0_100000001_010000010_001000100#32 =
    .ok (.decLdint 0b100000001 0b010000010 0b001000100) := by decide
theorem test_decode_ldleaf : decode 0b1010_0_100000001_0000000000_10110011#32 = .ok (.decLdleaf 0b100000001 0b10110011) := by
  decide
theorem test_decode_setroot : decode 0b1011_0000000000000000000_100000001#32 = .ok (.decSetroot 0b100000001) := by decide
theorem test_decode_bits : decode 0b1101_00000000_1111_1000000000000001#32 = .ok (.decBits 16 0b1000000000000001) ∧
    decode 0b1101_00000000_0000_0000000000000001#32 = .ok (.decBits 1 1) := by decide

/-- Section 2.9: every word of the table of illegal words. -/
theorem test_illegal_words : ([0x70000000, 0xF0000000, 0xFFFFFFFF, 0x00000003, 0x0000000F, 0x00000010, 0x08000000,
    0x10000001, 0x40000001, 0x60000001, 0x80000001] : List Word).all (fun w => (decode w).toOption.isNone) = true := by decide
theorem test_illegal_words_2 : ([0xC0000001, 0xE0000001, 0x30000100, 0x50000100, 0x58000000, 0x98000000,
    0xA0000100, 0xA8000000, 0xB0000200, 0xD0100000, 0x9FFFFFFF] : List Word).all (fun w => (decode w).toOption.isNone) = true := by decide
/-- Section 2.9, "for contrast". -/
theorem test_legal_words : decode 0x2FFFFFFF = .ok (.encLdcode 0xFF 15 0xFFFF) ∧
    decode 0x97FFFFFF = .ok (.decLdint 511 511 511) := by decide
/-- M9: byte 0 at the lowest address. -/
theorem test_lanes : lanes 0x36100001 = [0x01, 0x00, 0x10, 0x36] := by decide
theorem test_decodeTableWord : decodeTableWord 32 0x36100001 = some (.encSetlen 0x61 1) ∧
    decodeTableWord 32 0x70000000 = none := by decide
theorem test_decodeBytes_truncated : decodeBytes [0x01, 0x00, 0x10] = .error .truncated := by decide

/-! ### One step -/

/-- The next state of a step, if it answers one. -/
def nextOf (o : Host.Outcome State Fault Refusal) : Option State :=
  match o with
  | .next t => some t
  | .fault _ => none
  | .refused _ => none

/-- The state one command word leads to. -/
def after (w : Word) (s : State) : Option State := nextOf (step (queueCommand w s))

/-- The state one access of the host leads to. -/
def afterAccess (a : HostAction) (s : State) : Option State := nextOf (step { s with pending := [a] })

/-- The codebook 'a' = "0", 'b' = "10" of section 2.4, in an encoder in state `st`. -/
def encIn (st : EngState) (pend : Bits) (bits syms : Word) : State :=
  { State.reset with enc := { Enc.reset with
    state := st, pend := pend, bitCnt := bits, symCnt := syms, len := [(0x61, 1), (0x62, 2)],
    code := [(16 * 0x61, 0x0000), (16 * 0x62, 0x8000)] } }

/-- The tree T2 of section 2.6, in a decoder in state `st`. -/
def decIn (st : EngState) (cursor : NodeIdx) : State :=
  { State.reset with dec := { Dec.reset with
    state := st, cursor := cursor, kind := [(0, .internal), (1, .leaf), (2, .leaf)], left := [(0, 1)], right := [(0, 2)],
    sym := [(1, 0x61), (2, 0x62)] } }

/-- `s` with ILL set. -/
def illegal (s : State) : State := { s with ill := true }

/-- C-1. -/
theorem test_nop : after 0x00000000 State.reset = some State.reset := by decide
/-- C-2, C-3. -/
theorem test_illegal_sets_ill : (after 0x00000010 State.reset).map statusReg = some 0x00003000 ∧
    (after 0x00000003 State.reset).map statusReg = some 0x00003000 := by decide
/-- C-4. -/
theorem test_clrill : (after 0x00000001 (illegal State.reset)).map statusReg = some 0x00001000 := by decide
/-- C-5. -/
theorem test_nop_keeps_ill : (after 0x00000000 (illegal State.reset)).map statusReg = some 0x00003000 := by decide
/-- C-6. -/
theorem test_srst : (after 0x00000002 (encIn .run [false, false, false] 3 3)).map
    (fun t => (statusReg t, t.enc.bitCnt, encPackReg t, cbLen t 0x61)) = some (0x00001000, 0, 0, 0) := by decide
/-- E-T7, the first command. -/
theorem test_encClr : (after 0x10000000 (encIn .run [false] 1 1)).map (fun t => (statusReg t, cbLen t 0x61, encPackReg t)) =
    some (0x00001001, 0, 0x00000100) := by decide
/-- E-T1. -/
theorem test_ldcode : (after 0x26208000 State.reset).map (fun t => (codeBit t 0x62 0, codeBit t 0x62 1, codeBit t 0x62 15, cbLen t 0x62)) =
    some (true, false, false, 0) := by decide
/-- E-T3: code bits 240 to 255. -/
theorem test_ldcode_last_chunk : (after 0x241FFFFF State.reset).map
    (fun t => ((List.range 16).map fun j => codeBit t 0x41 (240 + j), t.ill)) = some (List.replicate 16 true, false) := by
  decide
/-- E-T2. -/
theorem test_setlen : (after 0x36200002 State.reset).map (fun t => cbLen t 0x62) = some 2 := by decide
/-- E-T5, the second command: the canonical form takes the entry off. -/
theorem test_setlen_0 : (after 0x36100000 (encIn .idle [] 0 0)).map (fun t => t.enc.len) = some [(0x62, 2)] := by decide
/-- E-S3. -/
theorem test_encStart_empty : (after 0x40000000 State.reset).map statusReg = some 0x00001013 := by decide +kernel
/-- E-S14. -/
theorem test_encStart_discards : (after 0x40000000 (encIn .run [false, false, false] 3 3)).map
    (fun t => (statusReg t, encPackReg t, t.enc.bitCnt, t.eout)) = some (0x00001001, 0, 0, []) := by decide
/-- E-S10. -/
theorem test_encSym_fills_byte : (after 0x50000062 (encIn .run [true, false, true, false, true, false, false] 7 4)).map
    (fun t => (t.eout, encPackReg t, t.enc.bitCnt, t.enc.symCnt)) = some ([0xA9], 0x00000100, 9, 5) := by decide
/-- E-S15. -/
theorem test_encSym_wraps : (after 0x50000061 (encIn .run [] 0xFFFFFFFF 0)).map (fun t => (t.enc.bitCnt, t.enc.symCnt)) =
    some (0, 1) := by decide
/-- E-S12. -/
theorem test_encFlush_pads : (after 0x60000000 (encIn .run (List.replicate 7 true) 255 1)).map
    (fun t => (t.eout, t.enc.bitCnt, statusReg t)) = some ([0xFE], 255, 0x00001002) := by decide
/-- E-S8. -/
theorem test_encFlush_twice : (after 0x60000000 (encIn .done [] 0 0)).map statusReg = some 0x00001043 := by decide
/-- D-B5, its dec.clr: the cursor's node becomes INVALID, the session stays. -/
theorem test_decClr : (after 0x80000000 (decIn .run 0)).map (fun t => (statusReg t, nodeKind t 0, nodeKind t 2)) =
    some (0x00001004, .invalid, .invalid) := by decide
/-- D-T1. -/
theorem test_ldint : (after 0x90000202 State.reset).map (fun t => (nodeKind t 0, nodeLeft t 0, nodeRight t 0)) =
    some (.internal, 1, 2) := by decide
/-- D-T2. -/
theorem test_ldleaf : (after 0xA0040061 State.reset).map (fun t => (nodeKind t 1, nodeSym t 1)) = some (.leaf, 0x61) := by
  decide
/-- D-T3. -/
theorem test_setroot : (after 0xB00001FF State.reset).map (fun t => (decPtrReg t, statusReg t)) =
    some (0x01FF01FF, 0x00001000) := by decide
/-- D-S1. -/
theorem test_decStart_empty : (after 0xC0000000 State.reset).map statusReg = some 0x0000110C := by decide
/-- D-S4, its dec.start. -/
theorem test_decStart : (after 0xC0000000 (decIn .idle 0)).map statusReg = some 0x00001004 := by decide
/-- D-B1. -/
theorem test_decBits_16 : (after 0xD00F5555 (decIn .run 0)).map (fun t => (t.dout, t.dec.bitCnt, t.dec.symCnt)) =
    some ([0x61, 0x62, 0x61, 0x62, 0x61, 0x62, 0x61, 0x62, 0x61, 0x62, 0x61, 0x62, 0x61, 0x62, 0x61, 0x62], 16, 16) := by
  decide
/-- D-B3: node 2 INVALID. -/
theorem test_decBits_corrupt : (after 0xD0024000 (setNodeKind 2 .invalid (decIn .run 0))).map
    (fun t => (t.dout, t.dec.bitCnt, t.dec.symCnt, decPtrReg t, statusReg t)) = some ([0x61], 2, 1, 0, 0x0000130C) := by
  decide
/-- D-S4, its dec.end. -/
theorem test_decEnd : (after 0xE0000000 (decIn .run 0)).map statusReg = some 0x00001008 := by decide
/-- D-E1, its dec.end: the cursor off the root. -/
theorem test_decEnd_corrupt : (after 0xE0000000 (decIn .run 4)).map statusReg = some 0x0000030C := by decide

/-- M1, M2, M4, M5. -/
theorem test_reads : ∀ p ∈ ([(0x00, 0x48554646), (0x04, 0x01FFFFFF), (0x0C, 0x00001000), (0x28, 0), (0x3C, 0)] : List (Nat × Word)),
    (afterAccess (.read p.1 4) State.reset).map State.reply = some (.data p.2) := by decide
/-- M6, M7: a write outside CMD. -/
theorem test_ignored_writes : afterAccess (.write 0x0C 4 0xFFFFFFFF) State.reset = some State.reset ∧
    afterAccess (.write 0x2C 4 0x12345678) State.reset = some State.reset := by decide
/-- M8. -/
theorem test_bus_errors : step { State.reset with pending := [.read 0x02 4] } = .refused .busError ∧
    step { State.reset with pending := [.write 0x08 1 0] } = .refused .busError ∧
    step { State.reset with pending := [.write 0x09 4 0x40000000] } = .refused .busError := ⟨rfl, rfl, rfl⟩
/-- R68: the port gives the first element not taken yet, then nothing. -/
theorem test_takeE : (afterAccess .takeE { State.reset with eout := [0xA9, 0x00], eoutTaken := 1 }).map State.reply =
    some (.element 0x00) ∧ (afterAccess .takeE { State.reset with eout := [0xA9], eoutTaken := 1 }).map State.reply =
    some .none := by decide
/-- R251: a hardware reset empties the streams. -/
theorem test_hardwareReset : (afterAccess .hardwareReset { decIn .run 4 with dout := [0x61] }).map
    (fun t => (statusReg t, nodeKind t 0, t.dout)) = some (0x00001000, .invalid, []) := by decide
/-- No access to come: the block waits (log 1). -/
theorem test_idle : nextOf (step State.reset) = some State.reset := by decide
theorem test_withFetchWord : (nextOf (step (State.reset.withFetchWord 32 0x36100001))).map (fun t => cbLen t 0x61) = some 1 := by
  decide

/-! ### The assembler (R102, R103) and the host's tables -/

/-- The lines of program P1 that load 'b' = "1", and their words. -/
theorem test_assemble_code : (assembleLine "enc.code 'b', \"1\" ; load b".toList).map (fun l => l.map encode) =
    some [0x26208000, 0x36200001] := by decide
/-- Hexadecimal, binary and decimal. -/
theorem test_assemble_numbers : (assembleLine "dec.bits 0b11, 0x5FFF".toList).map (fun l => l.map encode) = some [0xD0025FFF] ∧
    (assembleLine "dec.ldint 0, 1, 2".toList).map (fun l => l.map encode) = some [0x90000202] := by decide
theorem test_assemble_rejects : assembleLine "dec.bits 0, 0".toList = none ∧ assembleLine "enc.sym 256".toList = none := by
  decide
/-- R103: dec.feed8 and dec.feed16. -/
theorem test_feeds : (decFeed8 0xA9).map encode = [0xD007A900] ∧ (decFeed16 0xA9 0x5C).map encode = [0xD00FA95C] := by decide
/-- W6: counts a 4, b 2, c 1, d 1 give code lengths 1, 2, 3, 3. -/
theorem test_build_lengths : (build (fun _ => 0) [(0x61, 4), (0x62, 2), (0x63, 1), (0x64, 1)]).toOption.map
    (fun t => [0x61, 0x62, 0x63, 0x64].map fun x => (codeIn (codeBook t) x).length) = some [1, 2, 3, 3] := by decide
/-- W4: one symbol, one code bit (R205). -/
theorem test_build_single : (build (fun _ => 0) [(0x61, 4)]).toOption.map codeBook = some [(0x61, [false])] := by decide

/-! ### Witnesses: a state and operands that meet the hypotheses of each obligation, clause by clause

Each is named after its obligation. -/

theorem witness_DecodeOfEncodeIsTheCommand : (Instr.decBits 1 0).wf = true ∧ (Instr.decBits 16 0xFFFF).wf = true ∧
    (Instr.decLdint 511 0 511).wf = true := by decide
theorem witness_LegalWordsEncodeBack : decode 0x97FFFFFF = .ok (.decLdint 511 511 511) := by decide
theorem witness_LegalWordsMatchOneTableRow : opcodeRow .encStart ∈ opcodeTable ∧
    (0x40000000 : Word) &&& (opcodeRow .encStart).mask = (opcodeRow .encStart).pattern ∧
    decode 0x40000000 = .ok .encStart := by decide
/-- One word for each alternative of the rule, at the boundaries of its fields. -/
theorem witness_UnallocatedAndReservedWordsOnlySetIll :
    field 0x70000000 28 4 = 0x7 ∧ field 0xFFFFFFFF 28 4 = 0xF ∧ field 0x00000010 4 24 ≠ 0 ∧
    3 ≤ (field 0x00000003 0 4).toNat ∧ field 0x10000001 0 28 ≠ 0 ∧ field 0x30000100 8 12 ≠ 0 ∧ field 0x58000000 8 20 ≠ 0 ∧
    field 0x98000000 27 1 ≠ 0 ∧ field 0xA8000000 27 1 ≠ 0 ∧ field 0xA0000100 8 10 ≠ 0 ∧ field 0xB0000200 9 19 ≠ 0 ∧
    field 0xD0100000 20 8 ≠ 0 := by decide
/-- The state whose host does `a` next. -/
def hostDoes (a : HostAction) : State := { State.reset with pending := [a] }

theorem witness_StepRunsTheDecodedCommand : regOffset 0x4008 = 0x08 ∧
    (hostDoes (.write 0x4008 4 0x40000000)).pending = .write 0x4008 4 0x40000000 :: [] ∧
    decode 0x40000000 = .ok .encStart ∧ decode 0x40000001 = .error .reservedNonzero := by decide
theorem witness_ByteLanesAreLittleEndian : decode 0x36100001 = .ok (.encSetlen 0x61 1) ∧
    decode 0x30000100 = .error .reservedNonzero ∧ (0 < 4 ∧ 3 < 4) := by decide
theorem witness_RegisterReadsReturnTheMap : (hostDoes (.read 0x403C 4)).pending = .read 0x403C 4 :: [] ∧ 0x403C % 4 = 0 ∧
    0x28 ≤ 0x403C % 64 ∧ 0x40 % 64 = 0x00 ∧ 0x24 % 64 = 0x24 ∧ 0x24 % 4 = 0 := by decide
/-- One address for each other register. -/
theorem witness_RegisterReadsReturnTheMap_2 : 0x04 % 64 = 0x04 ∧ 0x08 % 64 = 0x08 ∧ 0x0C % 64 = 0x0C ∧ 0x10 % 64 = 0x10 ∧
    0x14 % 64 = 0x14 ∧ 0x18 % 64 = 0x18 ∧ 0x1C % 64 = 0x1C ∧ 0x20 % 64 = 0x20 := by decide
theorem witness_PointerAndPackRegistersShowTheirFields : (encIn .run (List.replicate 7 true) 7 7).enc.pend.length ≤ 7 := by
  decide
theorem witness_WritesOutsideCommandAreIgnored : (hostDoes (.write 0x0C 4 1)).pending = .write 0x0C 4 1 :: [] ∧
    0x0C % 4 = 0 ∧ 0x0C % 64 ≠ 0x08 := by decide
theorem witness_OnlyBusErrorsStopAStep : step (hostDoes (.read 2 4)) = .refused .busError ∧
    step (hostDoes (.write 8 1 0)) = .refused .busError := ⟨rfl, rfl⟩
theorem witness_OnlyTheOffsetIsDecoded : 0x40 % 64 = 0 := by decide
theorem witness_StreamPortsDeliverInOrder : ({ State.reset with eout := [0xA9, 0x00] }).eoutTaken + 1 < [0xA9, 0x00].length ∧
    ({ State.reset with dout := [0x61] }).doutTaken + 0 < [0x61].length ∧
    State.reset.eout.length ≤ State.reset.eoutTaken ∧ State.reset.dout.length ≤ State.reset.doutTaken := by decide
theorem witness_HardwareResetResets : (hostDoes .hardwareReset).pending = .hardwareReset :: [] := by decide
/-- The `EncodedAs` clauses: for each opcode a word with its reserved field zero, and one with a bit set in it. -/
theorem witness_EncodedAs : field 0x10000000 28 4 = 0x1 ∧ field 0x1FFFFFFF 28 4 = 0x1 ∧ field 0x2FFFFFFF 28 4 = 0x2 ∧
    field 0x36100001 28 4 = 0x3 ∧ field 0x30000100 28 4 = 0x3 ∧ field 0x40000000 28 4 = 0x4 ∧ field 0x40000001 28 4 = 0x4 ∧
    field 0x50000061 28 4 = 0x5 ∧ field 0x50000100 28 4 = 0x5 ∧ field 0x60000000 28 4 = 0x6 ∧ field 0x60000001 28 4 = 0x6 := by
  decide
theorem witness_EncodedAs_2 : field 0x80000000 28 4 = 0x8 ∧ field 0x80000001 28 4 = 0x8 ∧ field 0x90000202 28 4 = 0x9 ∧
    field 0x98000000 28 4 = 0x9 ∧ field 0xA0040061 28 4 = 0xA ∧ field 0xA8000000 28 4 = 0xA ∧ field 0xB00001FF 28 4 = 0xB ∧
    field 0xB0000200 28 4 = 0xB ∧ field 0xC0000000 28 4 = 0xC ∧ field 0xD00F5555 28 4 = 0xD ∧ field 0xD0100000 28 4 = 0xD ∧
    field 0xE0000000 28 4 = 0xE := by decide
theorem witness_LdcodeWritesSixteenCodeBits : (15 < 16 ∧ 255 < 256) ∧
    ¬((0x61 : Symbol) = 0x61 ∧ 239 / 16 = (15#4).toNat) := by decide
theorem witness_EncStartOpensOrRaisesEmptyAlphabet :
    (∃ x, cbLen (encIn .idle [] 0 0) x ≠ 0) ∧ (∀ x, cbLen State.reset x = 0) := ⟨⟨0x61, by decide⟩, fun _ => rfl⟩
theorem witness_EncSymAppendsTheCode : (encIn .run (List.replicate 7 true) 7 7).enc.state = .run ∧
    cbLen (encIn .run (List.replicate 7 true) 7 7) 0x62 ≠ 0 ∧ (encIn .run (List.replicate 7 true) 7 7).enc.pend.length ≤ 7 ∧
    cbLen (encIn .run [] 0 0) 0x63 = 0 ∧ (encIn .idle [] 0 0).enc.state = .idle ∧ (encIn .done [] 0 0).enc.state = .done ∧
    (encIn .err [] 0 0).enc.state = .err := by decide
theorem witness_EncFlushEmitsThePartialByte : (encIn .run [] 0 0).enc.state = .run ∧ (encIn .run [] 0 0).enc.pend.length ≤ 7 ∧
    (encIn .run (List.replicate 7 true) 7 7).enc.pend.length ≤ 7 ∧ (encIn .done [] 0 0).enc.state = .done ∧
    (encIn .err [] 0 0).enc.state = .err := by decide
theorem witness_EncoderSessionOutputLaw : (∀ x ∈ ([0x61, 0x62, 0x62] : List Symbol), cbLen (encIn .err [] 0 0) x ≠ 0) ∧
    (∃ x, cbLen (encIn .idle [] 0 0) x ≠ 0) := ⟨by decide, 0x61, by decide⟩
theorem witness_DecStartOpensOrRaisesEmptyAlphabet : nodeKind (decIn .err 2) (decIn .err 2).dec.root ≠ .invalid ∧
    nodeKind State.reset State.reset.dec.root = .invalid := by decide
/-- T2, then the root a leaf, then node 2 INVALID, then node 0 its own left child (D-B8). -/
theorem witness_OneBitMakesOneTransition : (decIn .run 4).dec.state = .run ∧
    nodeKind (decIn .run 4) (decIn .run 4).dec.cursor = .invalid ∧
    nodeKind (decIn .run 1) (decIn .run 1).dec.cursor = .leaf ∧
    (0x0000 : BitVec 16).getLsbD 15 = false ∧ (0x8000 : BitVec 16).getLsbD 15 = true ∧
    nodeKind (decIn .run 0) (decIn .run 0).dec.cursor = .internal ∧
    nodeKind (decIn .run 0) (nodeRight (decIn .run 0) 0) = .leaf ∧
    nodeKind (setNodeKind 2 .invalid (decIn .run 0)) (nodeRight (setNodeKind 2 .invalid (decIn .run 0)) 0) = .invalid ∧
    nodeKind (setNodeChildren 0 0 1 (decIn .run 0)) (nodeLeft (setNodeChildren 0 0 1 (decIn .run 0)) 0) = .internal := by
  decide
theorem witness_DecBitsConsumesItsBitsInOrder : (1 ≤ 15 ∧ 1 ≤ 1 ∧ 15 + 1 ≤ 16) ∧ (1 ≤ 3 ∧ 3 ≤ 16) ∧ (1 ≤ 1 ∧ 16 ≤ 16) ∧
    (∀ i, i < 3 → (0x5FFF : BitVec 16).getMsbD i = (0x4000 : BitVec 16).getMsbD i) ∧ (decIn .idle 0).dec.state = .idle ∧
    (decIn .done 0).dec.state = .done ∧ (decIn .err 0).dec.state = .err := by decide
theorem witness_DecEndChecksTheTerminalCondition : (decIn .run 0).dec.state = .run ∧
    (decIn .run 0).dec.cursor = (decIn .run 0).dec.root ∧ (decIn .run 2).dec.cursor ≠ (decIn .run 2).dec.root ∧
    (decIn .idle 0).dec.state = .idle ∧ (decIn .done 0).dec.state = .done ∧ (decIn .err 0).dec.state = .err := by decide

/-- The tree T2. -/
def treeT2 : Tree := .node (.leaf 0x61) (.leaf 0x62)

/-- "ab" in T2: bits 0, 1 (D-B1's first two). -/
theorem witness_DecodeLaw : HoldsTree (decIn .idle 2) treeT2 (decIn .idle 2).dec.root ∧
    (∀ p ∈ ([(0x61, [false]), (0x62, [true])] : List (Symbol × Bits)), p ∈ codeBook treeT2) ∧
    (∀ c ∈ ([(1, 0x0000), (1, 0x8000)] : List (Nat × BitVec 16)), 1 ≤ c.1 ∧ c.1 ≤ 16) ∧
    presentedBits [(1, 0x0000), (1, 0x8000)] = List.flatMap Prod.snd [((0x61 : Symbol), [false]), (0x62, [true])] :=
  ⟨⟨rfl, ⟨rfl, rfl⟩, ⟨rfl, rfl⟩⟩, by decide, by decide, by decide⟩
/-- R205: the law also covers a root that is a leaf. -/
theorem witness_DecodeLaw_leaf : HoldsTree (setRoot 1 (decIn .idle 0)) (.leaf 0x61) (setRoot 1 (decIn .idle 0)).dec.root ∧
    (0x61, [false]) ∈ codeBook (.leaf 0x61) := ⟨⟨rfl, rfl⟩, by decide⟩

/-- The tree with codes 'a' = "0", 'b' = "10", 'c' = "11", and a decoder that holds it. -/
def tree3 : Tree := .node (.leaf 0x61) (.node (.leaf 0x62) (.leaf 0x63))
def dec3 : State :=
  { State.reset with dec := { Dec.reset with
    kind := [(0, .internal), (1, .leaf), (2, .internal), (3, .leaf), (4, .leaf)], left := [(0, 1), (2, 3)],
    right := [(0, 2), (2, 4)], sym := [(1, 0x61), (3, 0x62), (4, 0x63)] } }

/-- "a" and the first bit of "10". -/
theorem witness_TruncatedStreamIsCorrupt : HoldsTree dec3 tree3 dec3.dec.root ∧
    (∀ c ∈ ([(0x61, [false])] : List (Symbol × Bits)), c ∈ codeBook tree3) ∧ (0x62, [true] ++ [false]) ∈ codeBook tree3 ∧
    ([true] : Bits) ≠ [] ∧ ([false] : Bits) ≠ [] ∧ (∀ c ∈ ([(2, 0x4000)] : List (Nat × BitVec 16)), 1 ≤ c.1 ∧ c.1 ≤ 16) ∧
    presentedBits [(2, 0x4000)] = List.flatMap Prod.snd [((0x61 : Symbol), [false])] ++ [true] :=
  ⟨⟨rfl, ⟨rfl, rfl⟩, rfl, ⟨rfl, rfl⟩, ⟨rfl, rfl⟩⟩, by decide, by decide, by decide, by decide, by decide, by decide⟩

theorem witness_EnginesDoNotTouchEachOther :
    exec (.encSetlen 0x61 1) State.reset = .next (setCbLen 0x61 1 State.reset) ∧ isEncoderCommand (.encSetlen 0x61 1) = true ∧
    exec .decClr State.reset = .next (clearNodeKinds State.reset) ∧ isDecoderCommand .decClr = true := ⟨rfl, rfl, rfl, rfl⟩
/-- Two states that differ in the decoder and in ILL. -/
theorem witness_EncoderReadsOnlyItsOwnState : isEncoderCommand (.encSym 0x61) = true ∧
    State.reset.enc = (illegal (decIn .run 2)).enc ∧
    (∀ x k, k < 256 → codeBit State.reset x k = codeBit (illegal (decIn .run 2)) x k) := ⟨rfl, rfl, fun _ _ _ => rfl⟩
theorem witness_DecoderReadsOnlyItsOwnState : isDecoderCommand (.decBits 1 0) = true ∧
    State.reset.dec = (illegal (encIn .run [] 0 0)).dec ∧
    (∀ k, nodeLeft State.reset k = nodeLeft (illegal (encIn .run [] 0 0)) k ∧
      nodeRight State.reset k = nodeRight (illegal (encIn .run [] 0 0)) k ∧
      nodeSym State.reset k = nodeSym (illegal (encIn .run [] 0 0)) k) := ⟨rfl, rfl, fun _ => ⟨rfl, rfl, rfl⟩⟩
theorem witness_FirstEngineErrorIsKept : exec .encFlush (encIn .err [true] 1 1) = .next (encIn .err [true] 1 1) ∧
    (encIn .err [true] 1 1).enc.state = .err ∧ Instr.encFlush ≠ .encStart ∧ Instr.encFlush ≠ .ctlSrst ∧
    exec .decEnd (decIn .err 2) = .next (decIn .err 2) ∧ (decIn .err 2).dec.state = .err ∧ Instr.decEnd ≠ .decStart ∧
    Instr.decEnd ≠ .ctlSrst := ⟨rfl, rfl, by decide, by decide, rfl, rfl, by decide, by decide⟩
theorem witness_EngineStateChangesOnlyAsListed :
    exec .encFlush (encIn .run [] 0 0) = .next (encIn .done [] 0 0) ∧
    (encIn .done [] 0 0).enc.state ≠ (encIn .run [] 0 0).enc.state ∧
    exec .decEnd (decIn .run 0) = .next (decIn .done 0) ∧ (decIn .done 0).dec.state ≠ (decIn .run 0).dec.state :=
  ⟨rfl, by decide, rfl, by decide⟩
theorem witness_IllIsStickyAndSetOnlyByIllegalWords :
    step (hostDoes (.write 8 4 0x70000000)) = .next (illegal State.reset) ∧ State.reset.ill = false ∧
    (illegal State.reset).ill = true ∧
    step (illegal (hostDoes (.write 8 4 0x00000001))) = .next State.reset := ⟨rfl, rfl, rfl, rfl⟩
theorem witness_TablesAndPointersHaveTheirOwnWriters :
    exec (.encSetlen 0x61 1) State.reset = .next (setCbLen 0x61 1 State.reset) ∧ Instr.encSetlen 0x61 1 ≠ .ctlSrst ∧
    cbLen (setCbLen 0x61 1 State.reset) 0x61 ≠ cbLen State.reset 0x61 ∧
    exec (.encLdcode 0x62 0 0) (encIn .run [] 0 0) = .next (setCodeChunk 0x62 0 0 (encIn .run [] 0 0)) ∧
    codeBit (setCodeChunk 0x62 0 0 (encIn .run [] 0 0)) 0x62 0 ≠ codeBit (encIn .run [] 0 0) 0x62 0 ∧
    exec (.decSetroot 5) State.reset = .next (setCursor 5 (setRoot 5 State.reset)) ∧
    (setCursor 5 (setRoot 5 State.reset)).dec.root ≠ State.reset.dec.root ∧
    (setCursor 5 (setRoot 5 State.reset)).dec.cursor ≠ State.reset.dec.cursor :=
  ⟨rfl, by decide, by decide, rfl, by decide, rfl, by decide, by decide⟩
theorem witness_UnwrittenBitsKeepTheirDraw :
    exec (.encLdcode 0x62 15 0) State.reset = .next (setCodeChunk 0x62 15 0 State.reset) ∧
    Instr.encLdcode 0x62 15 0 ≠ .ctlSrst ∧ 239 < 256 ∧ 239 / 16 ≠ (15#4).toNat ∧
    (∀ l r, Instr.encLdcode 0x62 15 0 ≠ .decLdint 3 l r) ∧ (∀ x, Instr.encLdcode 0x62 15 0 ≠ .decLdleaf 3 x) :=
  ⟨rfl, by decide, by decide, by decide, fun _ _ h => (by cases h), fun _ h => (by cases h)⟩
theorem witness_StreamsOnlyGrow : step (hostDoes .takeE) = .next State.reset ∧
    (∀ rest, (hostDoes .takeE).pending ≠ .hardwareReset :: rest) := ⟨rfl, fun _ h => by cases h⟩

/-- A state in the middle of both engines' sessions meets the invariant. -/
theorem witness_EveryStepKeepsTheInvariant :
    Inv { decIn .run 2 with enc := (encIn .run [true, false, true] 11 6).enc, pending := [.takeE] } ∧
    step { decIn .run 2 with enc := (encIn .run [true, false, true] 11 6).enc, pending := [.takeE] } =
      .next { decIn .run 2 with enc := (encIn .run [true, false, true] 11 6).enc } :=
  ⟨⟨by decide, ⟨by decide, by decide, by decide, by decide, by decide, by decide⟩, ⟨by decide, by decide, by decide, by decide⟩,
    by decide, by decide⟩, rfl⟩
/-- Each command's greatest operands, and one more than they. -/
theorem witness_AssemblerRejectsWhatDoesNotFit :
    assemble .encLdcode [.num 255, .num 15, .num 0xFFFF] = some [.encLdcode 255 15 0xFFFF] ∧
    assemble .encLdcode [.num 0, .num 16, .num 0] = none ∧ assemble .encLdcode [.num 0, .num 0, .num 0x10000] = none ∧
    assemble .encSetlen [.num 255, .num 255] = some [.encSetlen 255 255] ∧ assemble .encSetlen [.num 0, .num 256] = none ∧
    assemble .encSym [.num 255] = some [.encSym 255] ∧ assemble .encSym [.num 256] = none ∧
    assemble .decLdint [.num 511, .num 511, .num 511] = some [.decLdint 511 511 511] ∧
    assemble .decLdint [.num 0, .num 0, .num 512] = none := by decide
theorem witness_AssemblerRejectsWhatDoesNotFit_2 :
    assemble .decLdleaf [.num 511, .num 255] = some [.decLdleaf 511 255] ∧ assemble .decLdleaf [.num 0, .num 256] = none ∧
    assemble .decSetroot [.num 511] = some [.decSetroot 511] ∧ assemble .decSetroot [.num 512] = none ∧
    assemble .decBits [.num 1, .num 0] = some [.decBits 1 0] ∧
    assemble .decBits [.num 16, .num 0xFFFF] = some [.decBits 16 0xFFFF] ∧ assemble .decBits [.num 0, .num 0] = none ∧
    assemble .decBits [.num 17, .num 0] = none ∧ assemble .encClr [.num 0] = none := by decide
/-- R103: codes of 16 and 17 bits, and the bounds of each pseudo-command's operands. -/
theorem witness_PseudoCommandsExpandAsGiven :
    (assemble .encCode [.num 0x61, .bits (List.replicate 16 true)]).map (fun l => l.map encode) =
      some [0x2610FFFF, 0x36100010] ∧
    (assemble .encCode [.num 255, .bits (List.replicate 17 true)]).map (fun l => l.map encode) =
      some [0x2FF0FFFF, 0x2FF18000, 0x3FF00011] ∧
    assemble .encCode [.num 0, .bits []] = none ∧
    assemble .encDrop [.num 255] = some [.encSetlen 255 0] ∧ assemble .encDrop [.num 256] = none := by decide
/-- Codes of 255 and 256 bits. -/
theorem witness_PseudoCommandsExpandAsGiven_len : (assemble .encCode [.num 0, .bits (List.replicate 255 true)]).isSome = true ∧
    assemble .encCode [.num 0, .bits (List.replicate 256 true)] = none := by
  generalize h1 : List.replicate 255 true = a
  generalize h2 : List.replicate 256 true = b
  have e1 : a.length = 255 := by rw [← h1]; exact List.length_replicate
  have e2 : b.length = 256 := by rw [← h2]; exact List.length_replicate
  simp [assemble, fit, Config.maxLen, e1, e2]
theorem witness_PseudoCommandsExpandAsGiven_2 :
    (assemble .decFeed8 [.num 255]).map (fun l => l.map encode) = some [0xD007FF00] ∧ assemble .decFeed8 [.num 256] = none ∧
    (assemble .decFeed16 [.num 0xA9, .num 255]).map (fun l => l.map encode) = some [0xD00FA9FF] ∧
    assemble .decFeed16 [.num 0, .num 256] = none ∧
    (assemble .decFeedstr [.bits [true, false, true]]).map (fun l => l.map encode) = some [0xD002A000] ∧
    (assemble .decFeedstr [.bits (List.replicate 16 true)]).map (fun l => l.map encode) = some [0xD00FFFFF] ∧
    assemble .decFeedstr [.bits []] = none ∧ assemble .decFeedstr [.bits (List.replicate 17 true)] = none := by decide
theorem witness_EncCodeLoadsTheCode : 1 ≤ (List.replicate 1 true).length ∧ (List.replicate 1 true).length ≤ 255 ∧
    1 ≤ (List.replicate 255 true).length ∧ (List.replicate 255 true).length ≤ 255 := by
  simp only [List.length_replicate]; decide

/-- The numbering of T2 in section 2.6: the root 0, its children 1 and 2. -/
def num2 (p : Bits) : NodeIdx := if p = [] then 0 else if p = [false] then 1 else 2

/-- T2 loaded with its root command first and its children before their parent. -/
theorem witness_LoadTreeLeavesTheTableHoldingIt : (treeT2.positions.map num2).Nodup ∧
    List.Perm [.decSetroot 0, .decLdleaf 2 0x62, .decLdleaf 1 0x61, .decLdint 0 1 2] (loadTree num2 treeT2) := by decide
theorem witness_TreesAndCodesFitTheTables : ((0x62, [true, false]) ∈ codeBook tree3 ∧ 2 ≤ tree3.leaves.length) ∧
    (0x61, [false]) ∈ codeBook (.leaf 0x61) ∧ (Tree.leaf 0x61).leaves.length = 1 ∧ tree3.leaves.length ≤ 256 := by decide
theorem witness_ExtractMinPicksALeastNode : ([(1, .leaf 0x61), (1, .leaf 0x62)] : Queue) ≠ [] ∧
    ((1, .leaf 0x62) : Nat × Tree) ∈ ([(1, .leaf 0x61), (1, .leaf 0x62)] : Queue) ∧
    (∀ m ∈ ([(1, .leaf 0x61), (1, .leaf 0x62)] : Queue), 1 ≤ m.1) := by decide
theorem witness_BuildHasOneLeafPerSymbol : [((0x61 : Symbol), 4)] ≠ [] := by decide
theorem witness_CodeBookIsPrefixFree : (0x61, [false]) ∈ codeBook tree3 ∧ [false] <+: [false] := by decide

/-- The codebook 'a' = "0", 'b' = "1" beside the tree T2 (program P1). -/
def p1Loaded : State :=
  { decIn .idle 0 with enc := { (encIn .idle [] 0 0).enc with len := [(0x61, 1), (0x62, 1)] } }

/-- Ten bits of two bytes; no bit; all of them. -/
theorem witness_FeedBitsFeedsExactly : 10 ≤ 8 * ([0xA9, 0x40] : List Byte).length ∧ 0 ≤ 8 * ([] : List Byte).length ∧
    16 ≤ 8 * ([0xA9, 0x40] : List Byte).length := by decide

/-- The two bits of "ab" in one dec.bits command, and in two. -/
theorem witness_FeedsExactly : FeedsExactly [(2, 0x4000)] 2 [0x40] ∧ FeedsExactly [(1, 0x0000), (1, 0x8000)] 2 [0x40] :=
  ⟨⟨by decide, by decide, by decide⟩, by decide, by decide, by decide⟩
theorem witness_RoundTripOfConsistentTables : ([0x61, 0x62] : List Symbol) ≠ [] ∧
    HoldsTree p1Loaded treeT2 p1Loaded.dec.root ∧
    (∀ x ∈ ([0x61, 0x62] : List Symbol), ∃ c, (x, c) ∈ codeBook treeT2 ∧ HoldsCode p1Loaded x c) ∧
    (encodedBits p1Loaded [0x61, 0x62]).length < 2 ^ 32 := by
  refine ⟨by decide, ⟨rfl, ⟨rfl, rfl⟩, ⟨rfl, rfl⟩⟩, ?_, by decide⟩
  intro x hx
  rcases List.mem_cons.1 hx with rfl | hx
  · exact ⟨[false], by decide, by decide, by decide⟩
  · rw [List.mem_singleton.1 hx]; exact ⟨[true], by decide, by decide, by decide⟩

/-- "ab", the numbering of T2, and its tables loaded codebook first; the codes of `p1Loaded` stand for those loaded. The
chunks that feed the two bits are those of `witness_FeedsExactly`. -/
theorem witness_HuffmanRoundTrip : ([0x61, 0x62] : List Symbol) ≠ [] ∧
    IsFrequencyTable [0x61, 0x62] [(0x61, 1), (0x62, 1)] ∧
    build (fun _ => 0) [(0x61, 1), (0x62, 1)] = .ok treeT2 ∧ (treeT2.positions.map num2).Nodup ∧
    List.Perm (loadCodeBook (codeBook treeT2) ++ loadTree num2 treeT2) (loadTree num2 treeT2 ++ loadCodeBook (codeBook treeT2)) ∧
    (encodedBits p1Loaded [0x61, 0x62]).length < 2 ^ 32 := by
  refine ⟨by decide, ⟨by decide, fun x f => ?_⟩, by rfl, by decide, List.perm_append_comm, by decide⟩
  simp only [List.mem_cons, Prod.mk.injEq, List.not_mem_nil, or_false, List.count_cons, List.count_nil]
  by_cases h1 : x = 0x61
  · subst h1; simp; omega
  · by_cases h2 : x = 0x62
    · subst h2; simp; omega
    · have h1' : ¬ (0x61 : Symbol) = x := fun h => h1 h.symm
      have h2' : ¬ (0x62 : Symbol) = x := fun h => h2 h.symm
      simp only [beq_iff_eq, h1, h2, h1', h2', if_false, false_and, or_false, false_iff]; omega

end Sys2Proof.Machine
end

section
/-! SUPPORT. Who writes what (R28, R31, R39, R40, R46, R47, R49): what a command changes, command by command. -/

open Sys2Proof

namespace Sys2Proof.Machine

/-! ### The two groups of commands -/

/-- An encoder command changes the encoder and EOUT alone (R39, R130). -/
theorem effect_frame_of_encoder {i : Instr} (h : isEncoderCommand i = true) (s : State) :
    effect i s = { s with enc := (effect i s).enc, eout := (effect i s).eout } := by
  have E : ∀ {t}, EncSession s t → t = { s with enc := t.enc, eout := t.eout } := fun h => by rw [h.frame]
  cases i
  case encClr | encLdcode | encSetlen => rfl
  case encStart => exact E (encStart_session s).1
  case encSym x => exact E (encSym_session x s)
  case encFlush => exact E (encFlush_session s)
  all_goals cases h

/-- A decoder command changes the decoder and DOUT alone (R39, R160). -/
theorem effect_frame_of_decoder {i : Instr} (h : isDecoderCommand i = true) (s : State) :
    effect i s = { s with dec := (effect i s).dec, dout := (effect i s).dout } := by
  have D : ∀ {t}, DecSession s t → t = { s with dec := t.dec, dout := t.dout } := fun h => by rw [h.frame]
  cases i
  case decClr | decLdint | decLdleaf | decSetroot => rfl
  case decStart => exact D (decStart_session s).1
  case decBits n d => exact D (decBits_session n d s)
  case decEnd => exact D (decEnd_session s)
  all_goals cases h

/-- The three groups of R96. -/
theorem command_groups (i : Instr) : isEncoderCommand i = true ∨ isDecoderCommand i = true ∨
    i = .ctlNop ∨ i = .ctlClrill ∨ i = .ctlSrst := by
  cases i
  case ctlNop => exact .inr (.inr (.inl rfl))
  case ctlClrill => exact .inr (.inr (.inr (.inl rfl)))
  case ctlSrst => exact .inr (.inr (.inr (.inr rfl)))
  case encClr | encLdcode | encSetlen | encStart | encSym | encFlush => exact .inl rfl
  all_goals exact .inr (.inl rfl)

theorem effect_dec_of_encoder {i : Instr} (h : isEncoderCommand i = true) (s : State) : (effect i s).dec = s.dec := by
  rw [effect_frame_of_encoder h s]

/-- No command sets ILL; ctl.clrill and ctl.srst alone clear it (R31). -/
theorem effect_ill (i : Instr) (s : State) :
    (effect i s).ill = s.ill ∨ ((i = .ctlClrill ∨ i = .ctlSrst) ∧ (effect i s).ill = false) := by
  rcases command_groups i with h | h | rfl | rfl | rfl
  · exact .inl (by rw [effect_frame_of_encoder h s])
  · exact .inl (by rw [effect_frame_of_decoder h s])
  · exact .inl rfl
  · exact .inr ⟨.inl rfl, rfl⟩
  · exact .inr ⟨.inr rfl, rfl⟩

/-- A new epoch of draws begins with ctl.srst alone (R47, R250). -/
theorem effect_epoch {i : Instr} (hi : i ≠ .ctlSrst) (s : State) : (effect i s).epoch = s.epoch := by
  rcases command_groups i with h | h | rfl | rfl | rfl
  · rw [effect_frame_of_encoder h s]
  · rw [effect_frame_of_decoder h s]
  · rfl
  · rfl
  · exact absurd rfl hi

/-! ### The engines' states (R28) -/

theorem encState_change {i : Instr} {s : State} (h : (effect i s).enc.state ≠ s.enc.state) :
    (i = .encStart ∧ ((effect i s).enc.state = .run ∨ (effect i s).enc.state = .err)) ∨
    ((∃ x, i = .encSym x) ∧ (effect i s).enc.state = .err) ∨
    (i = .encFlush ∧ ((effect i s).enc.state = .done ∨ (effect i s).enc.state = .err)) ∨
    (i = .ctlSrst ∧ (effect i s).enc.state = .idle) := by
  cases i
  case encStart => exact .inl ⟨rfl, (encStart_session s).2⟩
  case encSym x => exact .inr (.inl ⟨⟨x, rfl⟩, (encSym_state x s).resolve_left h⟩)
  case encFlush => exact .inr (.inr (.inl ⟨rfl, encFlush_state s⟩))
  case ctlSrst => exact .inr (.inr (.inr ⟨rfl, rfl⟩))
  case ctlNop | ctlClrill | encClr | encLdcode | encSetlen => exact absurd rfl h
  all_goals exact absurd (congrArg Enc.state (effect_enc_of_decoder rfl s)) h

theorem decState_change {i : Instr} {s : State} (h : (effect i s).dec.state ≠ s.dec.state) :
    (i = .decStart ∧ ((effect i s).dec.state = .run ∨ (effect i s).dec.state = .err)) ∨
    ((∃ n d, i = .decBits n d) ∧ (effect i s).dec.state = .err) ∨
    (i = .decEnd ∧ ((effect i s).dec.state = .done ∨ (effect i s).dec.state = .err)) ∨
    (i = .ctlSrst ∧ (effect i s).dec.state = .idle) := by
  cases i
  case decStart => exact .inl ⟨rfl, (decStart_session s).2⟩
  case decBits n d => exact .inr (.inl ⟨⟨n, d, rfl⟩, (decBits_state n d s).resolve_left h⟩)
  case decEnd => exact .inr (.inr (.inl ⟨rfl, decEnd_state s⟩))
  case ctlSrst => exact .inr (.inr (.inr ⟨rfl, rfl⟩))
  case ctlNop | ctlClrill | decClr | decLdint | decLdleaf | decSetroot => exact absurd rfl h
  all_goals exact absurd (congrArg Dec.state (effect_dec_of_encoder rfl s)) h

/-! ### The tables and the root -/

/-- The commands that open, continue or end a session. -/
def isSessionCommand : Instr → Bool
  | .encStart | .encSym _ | .encFlush | .decStart | .decBits _ _ | .decEnd => true
  | _ => false

/-- What a session command can change, by its engine. -/
theorem effect_session {i : Instr} (h : isSessionCommand i = true) (s : State) :
    EncSession s (effect i s) ∨ DecSession s (effect i s) := by
  cases i
  case encStart => exact .inl (encStart_session s).1
  case encSym x => exact .inl (encSym_session x s)
  case encFlush => exact .inl (encFlush_session s)
  case decStart => exact .inr (decStart_session s).1
  case decBits n d => exact .inr (decBits_session n d s)
  case decEnd => exact .inr (decEnd_session s)
  all_goals cases h

/-- A session command does not write the codebook. -/
theorem effect_codebook_of_session {i : Instr} (h : isSessionCommand i = true) (s : State) :
    (effect i s).enc.len = s.enc.len ∧ (effect i s).enc.code = s.enc.code := by
  rcases effect_session h s with h | h <;> rw [h.frame] <;> exact ⟨rfl, rfl⟩

/-- A session command writes neither the node table nor the root. -/
theorem effect_sameTables_of_session {i : Instr} (h : isSessionCommand i = true) (s : State) :
    SameTables s (effect i s) := by
  rcases effect_session h s with h | h <;> rw [h.frame] <;> exact ⟨rfl, rfl, rfl, rfl, rfl, rfl⟩

theorem effect_len {i : Instr} (hr : i ≠ .ctlSrst) (hc : i ≠ .encClr) (hl : ∀ x l, i ≠ .encSetlen x l) (s : State) :
    (effect i s).enc.len = s.enc.len := by
  cases i
  case ctlSrst | encClr => contradiction
  case encSetlen x l => exact absurd rfl (hl x l)
  case encStart | encSym | encFlush | decStart | decBits | decEnd => exact (effect_codebook_of_session rfl s).1
  all_goals rfl

theorem effect_code {i : Instr} (hr : i ≠ .ctlSrst) (hc : ∀ x c d, i ≠ .encLdcode x c d) (s : State) :
    (effect i s).enc.code = s.enc.code := by
  cases i
  case ctlSrst => contradiction
  case encLdcode x c d => exact absurd rfl (hc x c d)
  case encStart | encSym | encFlush | decStart | decBits | decEnd => exact (effect_codebook_of_session rfl s).2
  all_goals rfl

theorem effect_children {i : Instr} (hr : i ≠ .ctlSrst) (hc : ∀ k l r, i ≠ .decLdint k l r) (s : State) :
    (effect i s).dec.left = s.dec.left ∧ (effect i s).dec.right = s.dec.right := by
  cases i
  case ctlSrst => contradiction
  case decLdint k l r => exact absurd rfl (hc k l r)
  case encStart | encSym | encFlush | decStart | decBits | decEnd =>
    exact ⟨(effect_sameTables_of_session rfl s).left, (effect_sameTables_of_session rfl s).right⟩
  all_goals exact ⟨rfl, rfl⟩

theorem effect_sym {i : Instr} (hr : i ≠ .ctlSrst) (hc : ∀ k x, i ≠ .decLdleaf k x) (s : State) :
    (effect i s).dec.sym = s.dec.sym := by
  cases i
  case ctlSrst => contradiction
  case decLdleaf k x => exact absurd rfl (hc k x)
  case encStart | encSym | encFlush | decStart | decBits | decEnd => exact (effect_sameTables_of_session rfl s).sym
  all_goals rfl

theorem effect_root {i : Instr} (hr : i ≠ .ctlSrst) (hc : ∀ k, i ≠ .decSetroot k) (s : State) :
    (effect i s).dec.root = s.dec.root := by
  cases i
  case ctlSrst => contradiction
  case decSetroot k => exact absurd rfl (hc k)
  case encStart | encSym | encFlush | decStart | decBits | decEnd => exact (effect_sameTables_of_session rfl s).root
  all_goals rfl

theorem cursor_change {i : Instr} {s : State} (hr : i ≠ .ctlSrst) (h : (effect i s).dec.cursor ≠ s.dec.cursor) :
    (∃ k, i = .decSetroot k) ∨ i = .decStart ∨ ∃ n d, i = .decBits n d := by
  cases i
  case ctlSrst => contradiction
  case decSetroot k => exact .inl ⟨k, rfl⟩
  case decStart => exact .inr (.inl rfl)
  case decBits n d => exact .inr (.inr ⟨n, d, rfl⟩)
  case decEnd => exact absurd (by rw [decEnd_frame]) h
  case ctlNop | ctlClrill | decClr | decLdint | decLdleaf => exact absurd rfl h
  all_goals exact absurd (congrArg Dec.cursor (effect_dec_of_encoder rfl s)) h

/-! ### The obligations on commands and steps -/

/-- Settles O37, by the frames of the two groups. -/
theorem enginesDoNotTouchEachOther : Obligations.EnginesDoNotTouchEachOther := by
  intro i s t ht
  obtain rfl := effect_of_exec ht
  exact ⟨fun h => effect_frame_of_encoder h s, fun h => effect_frame_of_decoder h s⟩

/-- Settles O41, by the cases of the command. -/
theorem engineStateChangesOnlyAsListed : Obligations.EngineStateChangesOnlyAsListed := by
  intro i s t ht
  obtain rfl := effect_of_exec ht
  exact ⟨encState_change, decState_change⟩

/-- A step that changes ILL: an illegal word sets it, and hardware reset or one of two commands clears it (R31). -/
theorem step_ill_change {s t : State} (ht : step s = .next t) (hne : t.ill ≠ s.ill) :
    ∃ a rest, s.pending = a :: rest ∧
      ((t.ill = true ∧ ∃ addr w e, a = .write addr 4 w ∧ addr % 64 = 0x08 ∧ decode w = .error e) ∨
       (t.ill = false ∧ (a = .hardwareReset ∨ ∃ addr w, a = .write addr 4 w ∧ addr % 64 = 0x08 ∧
         (decode w = .ok .ctlClrill ∨ decode w = .ok .ctlSrst)))) := by
  rcases step_cases ht with ⟨-, rfl⟩ | ⟨a, rest, hp, ⟨addr, w, i, ha, ho, hd, rfl⟩ | ⟨addr, w, e, ha, ho, hd, rfl⟩ |
    ⟨v, rfl⟩ | ⟨v, -, rfl⟩ | ⟨v, -, rfl⟩ | ⟨ha, rfl⟩⟩
  · exact absurd rfl hne
  · obtain ⟨hi, h⟩ := (effect_ill i _).resolve_left hne
    refine ⟨a, rest, hp, .inr ⟨h, .inr ⟨addr, w, ha, ho, ?_⟩⟩⟩
    rcases hi with rfl | rfl
    · exact .inl hd
    · exact .inr hd
  · exact ⟨a, rest, hp, .inl ⟨rfl, addr, w, e, ha, ho, hd⟩⟩
  · exact absurd rfl hne
  · exact absurd rfl hne
  · exact absurd rfl hne
  · exact ⟨a, rest, hp, .inr ⟨rfl, .inl ha⟩⟩

/-- Settles O42: a step that sets ILL and one that clears it both change it. -/
theorem illIsStickyAndSetOnlyByIllegalWords : Obligations.IllIsStickyAndSetOnlyByIllegalWords := by
  intro s t ht
  refine ⟨fun hs ht1 => ?_, fun hs ht0 => ?_⟩
  · obtain ⟨_, rest, hp, ⟨-, addr, w, e, rfl, ho, hd⟩ | ⟨h0, -⟩⟩ := step_ill_change ht (by simp [hs, ht1])
    · exact ⟨addr, w, rest, e, hp, ho, hd⟩
    · simp [ht1] at h0
  · obtain ⟨a, rest, hp, ⟨h1, -⟩ | ⟨-, h⟩⟩ := step_ill_change ht (by simp [hs, ht0])
    · simp [ht0] at h1
    · exact ⟨a, rest, hp, h⟩

/-- Settles O43, by the writers of each table and pointer. -/
theorem tablesAndPointersHaveTheirOwnWriters : Obligations.TablesAndPointersHaveTheirOwnWriters := by
  intro i s t ht hi
  obtain rfl := effect_of_exec ht
  refine ⟨fun ⟨x, hx⟩ => ?_, fun ⟨x, k, hx⟩ => ?_, fun hx => ?_, cursor_change hi⟩
  · by_contra! hn
    exact hx (cbLen_congr (effect_len hi hn.1 hn.2 s) x)
  · by_contra! hn
    exact hx (codeBit_congr (effect_code hi hn s) (effect_epoch hi s) x k)
  · by_contra! hn
    exact hx (effect_root hi hn s)

/-- Settles O44: the command that may write the RAM writes elsewhere in it; every other leaves the RAM, and all the epoch. -/
theorem unwrittenBitsKeepTheirDraw : Obligations.UnwrittenBitsKeepTheirDraw := by
  intro i s t ht hi
  obtain rfl := effect_of_exec ht
  have he := effect_epoch hi s
  refine ⟨fun x k hk hw => ?_, fun k hw => ?_, fun k hw => ?_⟩
  · by_cases h : ∃ y c d, i = .encLdcode y c d
    · obtain ⟨y, c, d, rfl⟩ := h
      refine (codeBit_setCodeChunk y x c.isLt hk d s).trans (if_neg ?_)
      rintro ⟨rfl, hc⟩
      exact hw c d rfl hc
    · push Not at h
      exact codeBit_congr (effect_code hi h s) he x k
  · by_cases h : ∃ j l r, i = .decLdint j l r
    · obtain ⟨j, l, r, rfl⟩ := h
      have hj : k ≠ j := fun e => hw l r (by rw [e])
      exact ⟨(nodeLeft_setNodeChildren j l r k _).trans (if_neg hj),
        (nodeRight_setNodeChildren j l r k _).trans (if_neg hj)⟩
    · push Not at h
      obtain ⟨hl, hr⟩ := effect_children hi h s
      exact ⟨nodeLeft_congr hl he k, nodeRight_congr hr he k⟩
  · by_cases h : ∃ j x, i = .decLdleaf j x
    · obtain ⟨j, x, rfl⟩ := h
      exact (nodeSym_setNodeSym j k x _).trans (if_neg fun e => hw x (by rw [e]))
    · push Not at h
      exact nodeSym_congr (effect_sym hi h s) he k

/-- Settles O45, by the cases of a step; a command appends at most (`effect_streams`). -/
theorem streamsOnlyGrow : Obligations.StreamsOnlyGrow := by
  intro s t ht hn
  have same : ∃ e d, s.eout = s.eout ++ e ∧ s.dout = s.dout ++ d :=
    ⟨[], [], (List.append_nil _).symm, (List.append_nil _).symm⟩
  rcases step_cases ht with ⟨-, rfl⟩ | ⟨a, rest, hp, ⟨_, _, i, -, -, -, rfl⟩ | ⟨_, _, _, -, -, -, rfl⟩ | ⟨v, rfl⟩ |
    ⟨v, -, rfl⟩ | ⟨v, -, rfl⟩ | ⟨rfl, -⟩⟩
  · exact same
  · obtain ⟨e, d, he, hd, -, -⟩ := effect_streams i { s with pending := rest, reply := .none }
    exact ⟨e, d, he, hd⟩
  · exact same
  · exact same
  · exact same
  · exact same
  · exact absurd hp (hn rest)

end Sys2Proof.Machine
end

section
/-! SUPPORT. The invariant of the machine: each engine's own part holds at reset and every command keeps it, so every
step does. -/

open Sys2Proof

namespace Sys2Proof.Machine

/-! ### The encoder's part -/

theorem encInv_reset : EncInv Enc.reset where
  pend_short := by decide
  err_iff := by decide
  err_own := by decide
  idle_fresh := fun _ => ⟨rfl, rfl, rfl⟩
  done_empty := fun _ => rfl
  run_aligned := fun h => by cases h

/-- In a session without an error, the alignment of the packer (R131) is all there is to show. -/
theorem EncInv.of_run {e : Enc} (hs : e.state = .run) (he : e.err = .none) (ha : e.pend.length = e.bitCnt.toNat % 8) :
    EncInv e where
  pend_short := by omega
  err_iff := by simp [hs, he]
  err_own := by simp [he]
  idle_fresh := by simp [hs]
  done_empty := by simp [hs]
  run_aligned := fun _ => ha

/-- In ERR there are only the error code (R29) and the packer's bound (R48) to show. -/
theorem EncInv.of_err {e : Enc} (hs : e.state = .err) (hn : e.err ≠ .none) (hc : e.err ≠ .corruptStream)
    (hp : e.pend.length ≤ 7) : EncInv e where
  pend_short := hp
  err_iff := by simp [hs, hn]
  err_own := hc
  idle_fresh := by simp [hs]
  done_empty := by simp [hs]
  run_aligned := by simp [hs]

/-- A flushed session leaves no error and nothing pending (R141). -/
theorem EncInv.of_done {e : Enc} (hs : e.state = .done) (he : e.err = .none) (hp : e.pend = []) : EncInv e where
  pend_short := by simp [hp]
  err_iff := by simp [hs, he]
  err_own := by simp [he]
  idle_fresh := by simp [hs]
  done_empty := fun _ => hp
  run_aligned := by simp [hs]

/-- An engine that is not in ERR has the error code NONE (R29). -/
theorem EncInv.err_none {e : Enc} (h : EncInv e) (hs : e.state ≠ .err) : e.err = .none :=
  not_not.1 fun he => hs (h.err_iff.1 he)

/-- The invariant says nothing of the codebook. -/
theorem EncInv.with_tables {e : Enc} (h : EncInv e) (len : Ram (BitVec 8)) (code : Ram (BitVec 16)) :
    EncInv { e with len := len, code := code } :=
  ⟨h.pend_short, h.err_iff, h.err_own, h.idle_fresh, h.done_empty, h.run_aligned⟩

theorem encInv_raiseE {s : State} (h : EncInv s.enc) {c : ErrCode} (hn : c ≠ .none) (hc : c ≠ .corruptStream) :
    EncInv (raiseE c s).enc :=
  .of_err rfl hn hc h.pend_short

theorem encInv_encGate {s : State} {body : State → State} (h : EncInv s.enc)
    (hb : s.enc.state = .run → EncInv (body s).enc) : EncInv (encGate s body).enc := by
  rcases encGate_cases s body with ⟨-, e⟩ | ⟨-, e⟩ | ⟨hr, e⟩ <;> rw [e]
  · exact h
  · exact encInv_raiseE h (by decide) (by decide)
  · exact hb hr

theorem effect_encStart (s : State) : effect .encStart s =
    if anyValid (openEncSession s) then setEncState .run (openEncSession s)
    else raiseE .emptyAlphabet (openEncSession s) := effect_of_exec rfl

theorem encInv_encStart (s : State) : EncInv (effect .encStart s).enc := by
  rw [effect_encStart]
  split
  · exact .of_run rfl rfl rfl
  · exact .of_err rfl (by simp) (by simp) (by simp)

/-- The bits of a code keep the packer aligned with ENC_BITCNT, which wraps at a multiple of 8. -/
theorem encInv_appendAll {s : State} (h : EncInv s.enc) (hr : s.enc.state = .run) (bs : Bits) :
    EncInv (appendAll bs s).enc := by
  have ha := h.run_aligned hr
  rw [appendAll_eq bs s h.pend_short]
  refine .of_run hr (h.err_none (by simp [hr])) ?_
  simp only [packerRest_length, List.length_append, BitVec.toNat_add, BitVec.toNat_ofNat]
  omega

theorem encInv_encSym {s : State} (h : EncInv s.enc) (x : Symbol) : EncInv (effect (.encSym x) s).enc := by
  rw [effect_encSym_gate]
  refine encInv_encGate h fun hr => ?_
  rw [encodeSymbol]
  split
  · exact encInv_raiseE h (by decide) (by decide)
  · have hs := appendAll_state (codeString s x (cbLen s x).toNat) s
    have ha := encInv_appendAll h hr (codeString s x (cbLen s x).toNat)
    have hr' := hs.1.trans hr
    exact .of_run hr' (ha.err_none (by simp [hr'])) (ha.run_aligned hr')

theorem encInv_encFlush {s : State} (h : EncInv s.enc) : EncInv (effect .encFlush s).enc := by
  rw [effect_encFlush_gate]
  refine encInv_encGate h fun hr => ?_
  have he := h.err_none (by simp [hr])
  rw [flushPacker]
  split
  · exact .of_done rfl he rfl
  · refine .of_done rfl he (List.length_eq_zero_iff.1 ?_)
    simp only [setEncState_fields]
    omega

/-- Every command keeps the encoder's part. -/
theorem encInv_effect {s : State} (h : EncInv s.enc) (i : Instr) : EncInv (effect i s).enc := by
  cases i
  case ctlSrst => exact encInv_reset
  case encClr | encLdcode | encSetlen => exact h.with_tables ..
  case encStart => exact encInv_encStart s
  case encSym x => exact encInv_encSym h x
  case encFlush => exact encInv_encFlush h
  case ctlNop | ctlClrill => exact h
  all_goals rw [effect_enc_of_decoder rfl]; exact h

/-! ### The decoder's part -/

theorem decInv_reset : DecInv Dec.reset where
  err_iff := by decide
  err_own := by decide
  idle_fresh := fun _ => ⟨rfl, rfl, rfl⟩
  done_at_root := fun _ => rfl

theorem DecInv.of_run {d : Dec} (hs : d.state = .run) (he : d.err = .none) : DecInv d where
  err_iff := by simp [hs, he]
  err_own := by simp [he]
  idle_fresh := by simp [hs]
  done_at_root := by simp [hs]

theorem DecInv.of_err {d : Dec} (hs : d.state = .err) (hn : d.err ≠ .none) (hu : d.err ≠ .unknownSymbol) : DecInv d where
  err_iff := by simp [hs, hn]
  err_own := hu
  idle_fresh := by simp [hs]
  done_at_root := by simp [hs]

/-- DONE needs the cursor at the root (R174). -/
theorem DecInv.of_done {d : Dec} (hs : d.state = .done) (he : d.err = .none) (hc : d.cursor = d.root) : DecInv d where
  err_iff := by simp [hs, he]
  err_own := by simp [he]
  idle_fresh := by simp [hs]
  done_at_root := fun _ => hc

/-- An engine that is not in ERR has the error code NONE (R29). -/
theorem DecInv.err_none {d : Dec} (h : DecInv d) (hs : d.state ≠ .err) : d.err = .none :=
  not_not.1 fun he => hs (h.err_iff.1 he)

/-- The invariant says nothing of the node table. -/
theorem DecInv.with_tables {d : Dec} (h : DecInv d) (kind : Ram NodeKind) (left right : Ram NodeIdx) (sym : Ram Symbol) :
    DecInv { d with kind := kind, left := left, right := right, sym := sym } :=
  ⟨h.err_iff, h.err_own, h.idle_fresh, h.done_at_root⟩

/-- dec.setroot moves the cursor with the root (R166). -/
theorem DecInv.with_root {d : Dec} (h : DecInv d) (i : NodeIdx) : DecInv { d with root := i, cursor := i } :=
  ⟨h.err_iff, h.err_own, fun hs => ⟨rfl, (h.idle_fresh hs).2⟩, fun _ => rfl⟩

theorem decInv_raiseD (s : State) {c : ErrCode} (hn : c ≠ .none) (hu : c ≠ .unknownSymbol) : DecInv (raiseD c s).dec :=
  .of_err rfl hn hu

theorem decInv_decGate {s : State} {body : State → State} (h : DecInv s.dec)
    (hb : s.dec.state = .run → DecInv (body s).dec) : DecInv (decGate s body).dec := by
  rcases decGate_cases s body with ⟨-, e⟩ | ⟨-, e⟩ | ⟨hr, e⟩ <;> rw [e]
  · exact h
  · exact decInv_raiseD s (by decide) (by decide)
  · exact hb hr

theorem effect_decStart (s : State) : effect .decStart s =
    if nodeKind (openDecSession s) (openDecSession s).dec.root = .invalid then
      raiseD .emptyAlphabet (openDecSession s)
    else setDecState .run (openDecSession s) := effect_of_exec rfl

theorem decInv_decStart (s : State) : DecInv (effect .decStart s).dec := by
  rw [effect_decStart]
  split
  · exact decInv_raiseD _ (by decide) (by decide)
  · exact .of_run rfl rfl

/-- A transition in a session leaves the session open, or raises CorruptStream (R171). -/
theorem dstep_run (b : Bool) {s : State} (hr : s.dec.state = .run) (he : s.dec.err = .none) :
    ((dstep b s).dec.state = .run ∧ (dstep b s).dec.err = .none) ∨
    ((dstep b s).dec.state = .err ∧ (dstep b s).dec.err = .corruptStream) := by
  rcases dstep_cases b s with h | ⟨x, h⟩ | ⟨c, h⟩ <;> rw [h]
  · exact .inr ⟨rfl, rfl⟩
  · exact .inl ⟨hr, he⟩
  · exact .inl ⟨hr, he⟩

theorem decInv_walk (bs : Bits) : ∀ s : State, s.dec.state = .run → s.dec.err = .none → DecInv (walk bs s).dec := by
  induction bs with
  | nil => exact fun _ => .of_run
  | cons b bs ih =>
    intro s hr he
    rw [walk]
    rcases dstep_run b hr he with ⟨hr', he'⟩ | ⟨hs, hc⟩
    · rw [if_neg (by simp [hr'])]
      exact ih _ hr' he'
    · rw [if_pos hs]
      exact .of_err hs (by simp [hc]) (by simp [hc])

theorem decInv_decBits {s : State} (h : DecInv s.dec) (n : Nat) (d : BitVec 16) :
    DecInv (effect (.decBits n d) s).dec := by
  rw [effect_decBits_gate]
  exact decInv_decGate h fun hr => decInv_walk _ s hr (h.err_none (by simp [hr]))

theorem decInv_decEnd {s : State} (h : DecInv s.dec) : DecInv (effect .decEnd s).dec := by
  rw [effect_decEnd_gate]
  refine decInv_decGate h fun hr => ?_
  rw [checkTerminal]
  split
  · exact .of_done rfl (h.err_none (by simp [hr])) ‹_›
  · exact decInv_raiseD s (by decide) (by decide)

/-- Every command keeps the decoder's part. -/
theorem decInv_effect {s : State} (h : DecInv s.dec) (i : Instr) : DecInv (effect i s).dec := by
  cases i
  case ctlSrst => exact decInv_reset
  case decClr | decLdint | decLdleaf => exact h.with_tables ..
  case decSetroot k => exact h.with_root k
  case decStart => exact decInv_decStart s
  case decBits n d => exact decInv_decBits h n d
  case decEnd => exact decInv_decEnd h
  case ctlNop | ctlClrill => exact h
  all_goals rw [effect_dec_of_encoder rfl]; exact h

/-! ### The whole machine -/

theorem inv_reset : Inv State.reset := ⟨wf_reset, encInv_reset, decInv_reset, le_rfl, le_rfl⟩

/-- The invariant says nothing of the host's queue and the reply. -/
theorem Inv.with_host {s : State} (h : Inv s) (p : List HostAction) (r : Reply) : Inv { s with pending := p, reply := r } :=
  ⟨h.mem, h.enc, h.dec, h.eout_taken, h.dout_taken⟩

theorem inv_effect {s : State} (h : Inv s) (i : Instr) : Inv (effect i s) := by
  obtain ⟨e, d, he, hd, hte, htd⟩ := effect_streams i s
  refine ⟨effect_wf i s h.mem, encInv_effect h.enc i, decInv_effect h.dec i, ?_, ?_⟩
  · rw [hte, he, List.length_append]
    exact h.eout_taken.trans (Nat.le_add_right _ _)
  · rw [htd, hd, List.length_append]
    exact h.dout_taken.trans (Nat.le_add_right _ _)

theorem inv_raiseIllegal {s : State} (h : Inv s) : Inv (raiseIllegal s) :=
  ⟨h.mem, h.enc, h.dec, h.eout_taken, h.dout_taken⟩

theorem inv_hardReset (s : State) : Inv (hardReset s) := ⟨wf_hardReset s, encInv_reset, decInv_reset, le_rfl, le_rfl⟩

/-- What a step can be (`step_cases`), case by case; a take stays within its stream. -/
theorem inv_step {s t : State} (h : Inv s) (ht : step s = .next t) : Inv t := by
  rcases step_cases ht with ⟨-, rfl⟩ | ⟨a, rest, -, ⟨_, _, i, -, -, -, rfl⟩ | ⟨_, _, _, -, -, -, rfl⟩ | ⟨v, rfl⟩ |
    ⟨v, hlt, rfl⟩ | ⟨v, hlt, rfl⟩ | ⟨-, rfl⟩⟩
  · exact h
  · exact inv_effect (h.with_host rest .none) i
  · exact inv_raiseIllegal (h.with_host rest .none)
  · exact h.with_host rest v
  · exact ⟨h.mem, h.enc, h.dec, hlt, h.dout_taken⟩
  · exact ⟨h.mem, h.enc, h.dec, h.eout_taken, hlt⟩
  · exact inv_hardReset _

/-- Settles O46: the tables are empty, and both engines are as R51 gives them. -/
theorem resetStateMeetsTheInvariant : Obligations.ResetStateMeetsTheInvariant := inv_reset

/-- Settles O47, by the cases of a step; a command keeps each engine's part, by the cases of the command. -/
theorem everyStepKeepsTheInvariant : Obligations.EveryStepKeepsTheInvariant := fun _ _ h ht => inv_step h ht

end Sys2Proof.Machine
end

section
/-! SUPPORT. The registers (R23 to R38): what stands in each field of STATUS, DEC_PTR and ENC_PACK, what a read of each offset
returns, and the values after reset (R51). -/

open Sys2Proof

namespace Sys2Proof.Machine

/-- The fields of STATUS (R27), in the codes of R28 and R29. -/
theorem statusReg_fields (s : State) :
    field (statusReg s) 0 2 = s.enc.state.code ∧ field (statusReg s) 2 2 = s.dec.state.code ∧
    field (statusReg s) 4 4 = s.enc.err.code ∧ field (statusReg s) 8 4 = s.dec.err.code ∧
    (statusReg s).getLsbD 12 = atRoot s ∧ (statusReg s).getLsbD 13 = s.ill ∧ field (statusReg s) 14 18 = 0 := by
  unfold field statusReg
  refine ⟨?_, ?_, ?_, ?_, ?_, ?_, ?_⟩
  · rw [field_append_lo, extract_self]; decide
  · rw [field_append_hi, field_append_lo, extract_self] <;> decide
  · rw [field_append_hi, field_append_hi, field_append_lo, extract_self] <;> decide
  · rw [field_append_hi, field_append_hi, field_append_hi, field_append_lo, extract_self] <;> decide
  · rw [BitVec.getLsbD_append, BitVec.getLsbD_append, BitVec.getLsbD_append, BitVec.getLsbD_append, BitVec.getLsbD_append]
    simp
  · rw [BitVec.getLsbD_append, BitVec.getLsbD_append, BitVec.getLsbD_append, BitVec.getLsbD_append, BitVec.getLsbD_append,
      BitVec.getLsbD_append]
    simp
  · rw [field_append_hi, field_append_hi, field_append_hi, field_append_hi, field_append_hi, field_append_hi,
      extract_self] <;> decide

/-- The fields of DEC_PTR (R36). -/
theorem decPtrReg_fields (s : State) :
    field (decPtrReg s) 0 9 = s.dec.cursor ∧ field (decPtrReg s) 9 7 = 0 ∧ field (decPtrReg s) 16 9 = s.dec.root ∧
    field (decPtrReg s) 25 7 = 0 := by
  unfold field decPtrReg
  refine ⟨?_, ?_, ?_, ?_⟩
  · rw [field_append_lo, extract_self]; decide
  · rw [field_append_hi, field_append_lo, extract_self] <;> decide
  · rw [field_append_hi, field_append_hi, field_append_lo, extract_self] <;> decide
  · rw [field_append_hi, field_append_hi, field_append_hi, extract_self] <;> decide

/-- The fields of ENC_PACK (R37). -/
theorem encPackReg_fields (s : State) :
    field (encPackReg s) 0 8 = packByte s.enc.pend ∧ field (encPackReg s) 8 3 = BitVec.ofNat 3 s.enc.pend.length ∧
    field (encPackReg s) 11 21 = 0 := by
  unfold field encPackReg
  refine ⟨?_, ?_, ?_⟩
  · rw [field_append_lo, extract_self]; decide
  · rw [field_append_hi, field_append_lo, extract_self] <;> decide
  · rw [field_append_hi, field_append_hi, extract_self] <;> decide

/-- Settles O9, by the fields of STATUS and the codes of R28 and R29. -/
theorem statusFieldsStandWhereTheMapSays : Obligations.StatusFieldsStandWhereTheMapSays := by
  intro s
  obtain ⟨h0, h2, h4, h8, h12, h13, h14⟩ := statusReg_fields s
  rw [h0, h2, h4, h8, h12]
  refine ⟨?_, ?_, ?_, ?_, by simp [atRoot], h13, h14⟩
  · cases s.enc.state <;> rfl
  · cases s.dec.state <;> rfl
  · cases s.enc.err <;> rfl
  · cases s.dec.err <;> rfl

/-- Settles O10, by the fields of the two registers; PBUF shows the pending bits by `packByte_getMsbD`. -/
theorem pointerAndPackRegistersShowTheirFields : Obligations.PointerAndPackRegistersShowTheirFields := by
  refine ⟨decPtrReg_fields, fun s hp => ?_⟩
  obtain ⟨hb, hn, hz⟩ := encPackReg_fields s
  refine ⟨fun i hi => ?_, ?_, hz⟩
  · rw [← packByte_getMsbD s.enc.pend (by omega) i hi, ← hb]
    simp [field, BitVec.getMsbD, hi]
    omega
  · rw [hn, BitVec.toNat_ofNat]
    omega

/-- A read of the host at a multiple of 4 (R62, R65). -/
theorem step_read {s : State} {addr : Nat} {rest : List HostAction} (hp : s.pending = .read addr 4 :: rest)
    (ha : addr % 4 = 0) : step s = .next { s with pending := rest, reply := .data (readReg s (addr % 64)) } := by
  have hadm : admitted addr 4 = true := by simp [admitted, regOffset]; omega
  simp only [step, performNext, hp, performAction, hostRead, hadm, if_true]
  rfl

/-- Offsets from 0x28 on read zero (R38). -/
theorem readReg_reserved (s : State) {off : Nat} (h : 0x28 ≤ off) : readReg s off = 0 := by
  unfold readReg
  split
  case h_11 => rfl
  all_goals omega

/-- Settles O8: a read answers the register the offset selects. -/
theorem registerReadsReturnTheMap : Obligations.RegisterReadsReturnTheMap := by
  intro s addr rest hp ha
  refine ⟨_, step_read hp ha, ?_, ?_, ?_, ?_, ?_, ?_, ?_, ?_, ?_, ?_, readReg_reserved s⟩
  all_goals intro h; rw [h]; rfl

/-- Settles O15: every register of `State.reset` holds the value R51 gives, and its tables are empty. -/
theorem resetStateHasTheSpecValues : Obligations.ResetStateHasTheSpecValues := by
  have hlen : ∀ x, cbLen State.reset x = 0 := fun _ => rfl
  have hkind : ∀ i, nodeKind State.reset i = .invalid := fun _ => rfl
  refine ⟨rfl, rfl, rfl, rfl, rfl, rfl, rfl, rfl, rfl, rfl, hlen, hkind, rfl, rfl, rfl, rfl, ?_, ?_, ?_⟩
  · decide
  · decide
  · decide

end Sys2Proof.Machine
end

section
/-! SUPPORT. The host's bus (R61 to R68): which accesses are admitted and what one does, the byte lanes of a word, and what
the stream ports deliver. -/

open Sys2Proof

namespace Sys2Proof.Machine

/-! ### The offset and the admitted accesses -/

/-- A window base that is a multiple of 64 does not reach the offset (R61). -/
theorem regOffset_add_base {base : Nat} (hb : base % 64 = 0) (off : Nat) : regOffset (base + off) = regOffset off := by
  simp only [regOffset]
  omega

/-- The offset's alignment is the address's, since the window is a multiple of 4 wide (R62). -/
theorem admitted_iff (addr size : Nat) : admitted addr size = true ↔ size = 4 ∧ addr % 4 = 0 := by
  simp only [admitted, regOffset, Bool.and_eq_true, decide_eq_true_eq, Nat.mod_mod_of_dvd addr (by decide : 4 ∣ 64)]

theorem admitted_eq_false_iff (addr size : Nat) : admitted addr size = false ↔ size ≠ 4 ∨ addr % 4 ≠ 0 := by
  rw [← Bool.not_eq_true, admitted_iff]
  omega

theorem admitted_add_base {base : Nat} (hb : base % 64 = 0) (off size : Nat) :
    admitted (base + off) size = admitted off size := by
  simp only [admitted, regOffset_add_base hb]

/-- Settles O13: an access reads its address through the offset alone. -/
theorem onlyTheOffsetIsDecoded : Obligations.OnlyTheOffsetIsDecoded := by
  intro s base off size v hb
  simp only [performAction, hostRead, hostWrite]
  rw [admitted_add_base hb, regOffset_add_base hb]
  exact ⟨rfl, rfl⟩

/-! ### Writes -/

theorem execWord_legal {w : Word} {i : Instr} (h : decode w = .ok i) (s : State) : execWord w s = exec i s := by
  simp only [execWord, h]

theorem execWord_illegal {w : Word} {e : Illegal} (h : decode w = .error e) (s : State) :
    execWord w s = .next (raiseIllegal s) := by
  simp only [execWord, h]

/-- An admitted write: a command at CMD, ignored at every other offset (R65, R66). -/
theorem step_write {s : State} {addr : Nat} {w : Word} {rest : List HostAction} (hp : s.pending = .write addr 4 w :: rest)
    (ha : addr % 4 = 0) : step s = if regOffset addr = cmdOffset then execWord w { s with pending := rest, reply := .none }
      else .next { s with pending := rest, reply := .none } := by
  have hadm : admitted addr 4 = true := (admitted_iff addr 4).2 ⟨rfl, ha⟩
  simp only [step, performNext, hp, performAction, hostWrite, hadm, if_true]

/-- A write at CMD executes its word (R66). -/
theorem step_write_cmd {s : State} {addr : Nat} {w : Word} {rest : List HostAction}
    (hp : s.pending = .write addr 4 w :: rest) (ho : regOffset addr = cmdOffset) :
    step s = execWord w { s with pending := rest, reply := .none } := by
  have ha : addr % 4 = 0 := by simp only [regOffset, cmdOffset] at ho; omega
  rw [step_write hp ha, if_pos ho]

/-- Settles O6: a write at CMD executes its word, and a word is its command or raises Illegal. -/
theorem stepRunsTheDecodedCommand : Obligations.StepRunsTheDecodedCommand := by
  intro s addr w rest ho hp
  rw [step_write_cmd hp ho]
  exact ⟨fun i hd => execWord_legal hd _, fun e hd => execWord_illegal hd _⟩

/-- Settles O11: off CMD an admitted write only leaves the queue. -/
theorem writesOutsideCommandAreIgnored : Obligations.WritesOutsideCommandAreIgnored := by
  intro s addr v rest hp ha ho
  rw [step_write hp ha]
  exact if_neg ho

/-! ### Refusals -/

theorem execWord_next (w : Word) (s : State) : ∃ t, execWord w s = .next t := by
  cases hd : decode w with
  | ok i => exact execWord_legal hd s ▸ exec_next i s
  | error e => exact ⟨_, execWord_illegal hd s⟩

/-- An admitted access answers a next state, whatever it is (R220). -/
theorem performAction_of_admitted {a : HostAction} (h : admittedAction a = true) (s : State) :
    ∃ t, performAction a s = .next t := by
  cases a with
  | read addr size => exact ⟨_, if_pos h⟩
  | write addr size v =>
    by_cases ho : regOffset addr = cmdOffset
    · obtain ⟨t, ht⟩ := execWord_next v s
      exact ⟨t, (if_pos h).trans ((if_pos ho).trans ht)⟩
    · exact ⟨s, (if_pos h).trans (if_neg ho)⟩
  | takeE => exact ⟨_, rfl⟩
  | takeD => exact ⟨_, rfl⟩
  | hardwareReset => exact ⟨_, rfl⟩

/-- Any other access is a bus error (R64). -/
theorem performAction_of_not_admitted {a : HostAction} (h : admittedAction a = false) (s : State) :
    performAction a s = .refused .busError := by
  cases a with
  | read addr size => exact if_neg (Bool.eq_false_iff.1 h)
  | write addr size v => exact if_neg (Bool.eq_false_iff.1 h)
  | takeE => cases h
  | takeD => cases h
  | hardwareReset => cases h

/-- The accesses that are not admitted: reads and writes of another width than 32 bits, or not aligned (R62, R64). -/
theorem head_not_admitted_iff (p : List HostAction) : (∃ a rest, p = a :: rest ∧ admittedAction a = false) ↔
    (∃ addr size rest, p = .read addr size :: rest ∧ (size ≠ 4 ∨ addr % 4 ≠ 0)) ∨
    (∃ addr size v rest, p = .write addr size v :: rest ∧ (size ≠ 4 ∨ addr % 4 ≠ 0)) := by
  cases p with
  | nil => simp
  | cons a rest => cases a <;> simp [admittedAction, admitted_eq_false_iff]

/-- A step answers a next state or is refused as a bus error, the second exactly when the next access is not admitted. -/
theorem step_outcome (s : State) :
    ((∃ t, step s = .next t) ∧ ¬ ∃ a rest, s.pending = a :: rest ∧ admittedAction a = false) ∨
    (step s = .refused .busError ∧ ∃ a rest, s.pending = a :: rest ∧ admittedAction a = false) := by
  simp only [step, performNext]
  cases hp : s.pending with
  | nil => exact .inl ⟨⟨s, rfl⟩, by simp⟩
  | cons a rest =>
    cases h : admittedAction a with
    | true => exact .inl ⟨performAction_of_admitted h _, by simp [h]⟩
    | false => exact .inr ⟨performAction_of_not_admitted h _, a, rest, rfl, h⟩

/-- Settles O12, by the two outcomes of a step. -/
theorem onlyBusErrorsStopAStep : Obligations.OnlyBusErrorsStopAStep := by
  intro s
  rw [← head_not_admitted_iff]
  rcases step_outcome s with ⟨⟨t, ht⟩, hadm⟩ | ⟨hr, hbad⟩
  · exact ⟨iff_of_false (by simp [ht]) hadm, by simp [ht], .inr ⟨t, ht⟩⟩
  · exact ⟨iff_of_true ⟨_, hr⟩ hbad, by simp [hr], .inl ⟨_, hr⟩⟩

/-! ### Byte lanes -/

/-- Neighbouring fields join again, so the lanes carry the whole word (R63). -/
theorem wordOfLanes_fields (w : Word) : wordOfLanes (field w 0 8) (field w 8 8) (field w 16 8) (field w 24 8) = w := by
  unfold wordOfLanes field
  rw [field_join w 16 8 8, field_join w 8 16 8, field_join w 0 24 8]
  exact extract_self w

theorem lanes_append (w : Word) (rest : List Byte) :
    lanes w ++ rest = field w 0 8 :: field w 8 8 :: field w 16 8 :: field w 24 8 :: rest := rfl

/-- Settles O7: the bytes that begin with a word's lanes are read as the word (`wordOfLanes_fields`). -/
theorem byteLanesAreLittleEndian : Obligations.ByteLanesAreLittleEndian := by
  intro w rest
  refine ⟨fun k hk => by simp [lanes, hk], rfl, fun i hd => ?_, fun e hd => ?_⟩
  · simp only [lanes_append, decodeBytes, wordOfLanes_fields, hd]
  · simp only [lanes_append, decodeBytes, wordOfLanes_fields, hd]

/-! ### Stream ports -/

/-- What a stream port answers when `i` elements are taken (R68): the next one, or nothing at the end (log 6). -/
def delivery (stream : List Byte) (i : Nat) : Reply := (stream[i]?.map Reply.element).getD .none

theorem delivery_of_lt {stream : List Byte} {i : Nat} (h : i < stream.length) :
    stream[i]?.map Reply.element = some (delivery stream i) := by
  simp [delivery, h]

/-- One access repeated: if each turn leads from `port n` to `port (n + 1)` with the reply `r n`, the last turn's reply stays. -/
theorem perform_replicate {a : HostAction} (k : Nat) : ∀ {port : Nat → State} {r : Nat → Reply},
    (∀ n, n ≤ k → ∀ p, performAction a (withHost p .none (port n)) = .next (withHost p (r n) (port (n + 1)))) →
    perform (List.replicate (k + 1) a) (port 0) = .next (withHost [] (r k) (port (k + 1))) := by
  induction k with
  | zero => exact fun h => perform_cons (h 0 le_rfl []) rfl
  | succ k ih =>
    intro port r h
    calc perform (a :: List.replicate (k + 1) a) (port 0)
      _ = perform (List.replicate (k + 1) a) (withHost _ (r 0) (port 1)) := perform_cons (h 0 (Nat.zero_le _) _) rfl
      _ = perform (List.replicate (k + 1) a) (port 1) := rfl
      _ = .next (withHost [] (r (k + 1)) (port (k + 2))) :=
        ih (port := fun n => port (n + 1)) (r := fun n => r (n + 1)) fun n hn => h (n + 1) (Nat.succ_le_succ hn)

/-- The state with `n` more elements of EOUT taken. -/
def takenE (s : State) (n : Nat) : State := { s with eoutTaken := s.eoutTaken + n }

/-- The state with `n` more elements of DOUT taken. -/
def takenD (s : State) (n : Nat) : State := { s with doutTaken := s.doutTaken + n }

theorem performAction_takeE {s : State} {n : Nat} (h : s.eoutTaken + n < s.eout.length) (p : List HostAction) :
    performAction .takeE (withHost p .none (takenE s n)) =
      .next (withHost p (delivery s.eout (s.eoutTaken + n)) (takenE s (n + 1))) := by
  simp [performAction, hostTakeE, withHost, takenE, delivery, h, Nat.add_assoc]

theorem performAction_takeD {s : State} {n : Nat} (h : s.doutTaken + n < s.dout.length) (p : List HostAction) :
    performAction .takeD (withHost p .none (takenD s n)) =
      .next (withHost p (delivery s.dout (s.doutTaken + n)) (takenD s (n + 1))) := by
  simp [performAction, hostTakeD, withHost, takenD, delivery, h, Nat.add_assoc]

/-- At the end of EOUT a take does nothing (log 6). -/
theorem performAction_takeE_at_end {s : State} (h : s.eout.length ≤ s.eoutTaken) (p : List HostAction) :
    performAction .takeE (withHost p .none s) = .next (withHost p .none s) := by
  simp [performAction, hostTakeE, withHost, h]

/-- At the end of DOUT a take does nothing (log 6). -/
theorem performAction_takeD_at_end {s : State} (h : s.dout.length ≤ s.doutTaken) (p : List HostAction) :
    performAction .takeD (withHost p .none s) = .next (withHost p .none s) := by
  simp [performAction, hostTakeD, withHost, h]

/-- Settles O14: each take delivers the next element (`performAction_takeE`, `performAction_takeD`), and takes repeat. -/
theorem streamPortsDeliverInOrder : Obligations.StreamPortsDeliverInOrder := by
  refine ⟨fun s k h => ?_, fun s k h => ?_, fun s h => ?_, fun s h => ?_⟩
  · exact ⟨_, perform_replicate k (port := takenE s) fun n hn => performAction_takeE (by omega), delivery_of_lt h, rfl⟩
  · exact ⟨_, perform_replicate k (port := takenD s) fun n hn => performAction_takeD (by omega), delivery_of_lt h, rfl⟩
  · exact perform_cons (performAction_takeE_at_end h []) rfl
  · exact perform_cons (performAction_takeD_at_end h []) rfl

end Sys2Proof.Machine
end

section
/-! SUPPORT. The encoding (R91 to R101): which fields a command's word has, what the decoder answers for each opcode, and the rows
of the opcode table. -/

open Sys2Proof

namespace Sys2Proof.Machine

/-! ### Fields of a concatenation -/

theorem append_eq_append_iff {n m : Nat} {a c : BitVec n} {b d : BitVec m} : a ++ b = c ++ d ↔ a = c ∧ b = d := by
  constructor
  · intro h
    have hl := congrArg (BitVec.extractLsb' m n) h
    have hr := congrArg (BitVec.extractLsb' 0 m) h
    simp only [BitVec.extractLsb'_append_eq_left, BitVec.extractLsb'_append_eq_right] at hl hr
    exact ⟨hl, hr⟩
  · rintro ⟨rfl, rfl⟩; rfl

/-- A field that is a concatenation is two neighbouring fields (R11). -/
theorem extract_eq_append_iff {k n m : Nat} (a : BitVec n) (b : BitVec m) (w : BitVec k) (lo : Nat) :
    w.extractLsb' lo (n + m) = a ++ b ↔ w.extractLsb' (lo + m) n = a ∧ w.extractLsb' lo m = b := by
  rw [← field_join, append_eq_append_iff]

theorem eq_append_two {n m : Nat} (a : BitVec n) (b : BitVec m) (w : BitVec (n + m)) :
    w = a ++ b ↔ w.extractLsb' (0 + m) n = a ∧ w.extractLsb' 0 m = b := by
  rw [← extract_eq_append_iff, extract_self]

theorem eq_append_three {n m k : Nat} (a : BitVec n) (b : BitVec m) (c : BitVec k) (w : BitVec (n + m + k)) :
    w = a ++ b ++ c ↔ w.extractLsb' (0 + k + m) n = a ∧ w.extractLsb' (0 + k) m = b ∧ w.extractLsb' 0 k = c := by
  rw [eq_append_two, extract_eq_append_iff, and_assoc]

theorem eq_append_four {n m k l : Nat} (a : BitVec n) (b : BitVec m) (c : BitVec k) (d : BitVec l)
    (w : BitVec (n + m + k + l)) : w = a ++ b ++ c ++ d ↔ w.extractLsb' (0 + l + k + m) n = a ∧
      w.extractLsb' (0 + l + k) m = b ∧ w.extractLsb' (0 + l) k = c ∧ w.extractLsb' 0 l = d := by
  rw [eq_append_three, extract_eq_append_iff, and_assoc]

theorem eq_append_five {n m k l p : Nat} (a : BitVec n) (b : BitVec m) (c : BitVec k) (d : BitVec l) (e : BitVec p)
    (w : BitVec (n + m + k + l + p)) : w = a ++ b ++ c ++ d ++ e ↔ w.extractLsb' (0 + p + l + k + m) n = a ∧
      w.extractLsb' (0 + p + l + k) m = b ∧ w.extractLsb' (0 + p + l) k = c ∧ w.extractLsb' (0 + p) l = d ∧
      w.extractLsb' 0 p = e := by
  rw [eq_append_four, extract_eq_append_iff, and_assoc]

/-! ### The formats of R91: a word is a command's exactly when each of its fields is the command's -/

section

variable {w : Word}

theorem eq_opcode_word_iff {op : BitVec 4} : w = op ++ 0#28 ↔ field w 28 4 = op ∧ field w 0 28 = 0 :=
  eq_append_two op 0#28 w

theorem eq_ctl_word_iff {sub : BitVec 4} :
    w = 0x0#4 ++ 0#24 ++ sub ↔ field w 28 4 = 0x0 ∧ field w 4 24 = 0 ∧ field w 0 4 = sub :=
  eq_append_three 0x0#4 0#24 sub w

theorem eq_encLdcode_iff {x : Symbol} {c : BitVec 4} {d : BitVec 16} : w = encode (.encLdcode x c d) ↔
    field w 28 4 = 0x2 ∧ field w 20 8 = x ∧ field w 16 4 = c ∧ field w 0 16 = d :=
  eq_append_four 0x2#4 x c d w

theorem eq_encSetlen_iff {x : Symbol} {l : BitVec 8} : w = encode (.encSetlen x l) ↔
    field w 28 4 = 0x3 ∧ field w 20 8 = x ∧ field w 8 12 = 0 ∧ field w 0 8 = l :=
  eq_append_four 0x3#4 x 0#12 l w

theorem eq_encSym_iff {x : Symbol} : w = encode (.encSym x) ↔
    field w 28 4 = 0x5 ∧ field w 8 20 = 0 ∧ field w 0 8 = x :=
  eq_append_three 0x5#4 0#20 x w

theorem eq_decLdint_iff {i l r : NodeIdx} : w = encode (.decLdint i l r) ↔
    field w 28 4 = 0x9 ∧ field w 27 1 = 0 ∧ field w 18 9 = i ∧ field w 9 9 = l ∧ field w 0 9 = r :=
  eq_append_five 0x9#4 0#1 i l r w

theorem eq_decLdleaf_iff {i : NodeIdx} {x : Symbol} : w = encode (.decLdleaf i x) ↔
    field w 28 4 = 0xA ∧ field w 27 1 = 0 ∧ field w 18 9 = i ∧ field w 8 10 = 0 ∧ field w 0 8 = x :=
  eq_append_five 0xA#4 0#1 i 0#10 x w

theorem eq_decSetroot_iff {i : NodeIdx} : w = encode (.decSetroot i) ↔
    field w 28 4 = 0xB ∧ field w 9 19 = 0 ∧ field w 0 9 = i :=
  eq_append_three 0xB#4 0#19 i w

theorem eq_decBits_iff {n : Nat} {d : BitVec 16} : w = encode (.decBits n d) ↔
    field w 28 4 = 0xD ∧ field w 20 8 = 0 ∧ field w 16 4 = BitVec.ofNat 4 (n - 1) ∧ field w 0 16 = d :=
  eq_append_four 0xD#4 0#8 (BitVec.ofNat 4 (n - 1)) d w

end

/-! ### The decoder's answer for each opcode (R95, R97, R98) -/

theorem encodedAs_encClr : EncodedAs 0x1 (fun w => field w 0 28 = 0) (fun _ => .encClr) := by
  intro w h; simp [decode, h, ifZero]

theorem encodedAs_encLdcode :
    EncodedAs 0x2 (fun _ => true) (fun w => .encLdcode (field w 20 8) (field w 16 4) (field w 0 16)) := by
  intro w h; simp [decode, h]

theorem encodedAs_encSetlen :
    EncodedAs 0x3 (fun w => field w 8 12 = 0) (fun w => .encSetlen (field w 20 8) (field w 0 8)) := by
  intro w h; simp [decode, h, ifZero]

theorem encodedAs_encStart : EncodedAs 0x4 (fun w => field w 0 28 = 0) (fun _ => .encStart) := by
  intro w h; simp [decode, h, ifZero]

theorem encodedAs_encSym : EncodedAs 0x5 (fun w => field w 8 20 = 0) (fun w => .encSym (field w 0 8)) := by
  intro w h; simp [decode, h, ifZero]

theorem encodedAs_encFlush : EncodedAs 0x6 (fun w => field w 0 28 = 0) (fun _ => .encFlush) := by
  intro w h; simp [decode, h, ifZero]

theorem encodedAs_decClr : EncodedAs 0x8 (fun w => field w 0 28 = 0) (fun _ => .decClr) := by
  intro w h; simp [decode, h, ifZero]

theorem encodedAs_decLdint :
    EncodedAs 0x9 (fun w => field w 27 1 = 0) (fun w => .decLdint (field w 18 9) (field w 9 9) (field w 0 9)) := by
  intro w h; simp [decode, h, ifZero]

theorem encodedAs_decLdleaf :
    EncodedAs 0xA (fun w => field w 27 1 = 0 ∧ field w 8 10 = 0) (fun w => .decLdleaf (field w 18 9) (field w 0 8)) := by
  intro w h
  have hz : field w 27 1 ++ field w 8 10 = 0#11 ↔ field w 27 1 = 0 ∧ field w 8 10 = 0 :=
    append_eq_append_iff (c := 0#1) (d := 0#10)
  simp [decode, h, ifZero, hz]

theorem encodedAs_decSetroot : EncodedAs 0xB (fun w => field w 9 19 = 0) (fun w => .decSetroot (field w 0 9)) := by
  intro w h; simp [decode, h, ifZero]

theorem encodedAs_decStart : EncodedAs 0xC (fun w => field w 0 28 = 0) (fun _ => .decStart) := by
  intro w h; simp [decode, h, ifZero]

theorem encodedAs_decBits :
    EncodedAs 0xD (fun w => field w 20 8 = 0) (fun w => .decBits ((field w 16 4).toNat + 1) (field w 0 16)) := by
  intro w h; simp [decode, h, ifZero]

theorem encodedAs_decEnd : EncodedAs 0xE (fun w => field w 0 28 = 0) (fun _ => .decEnd) := by
  intro w h; simp [decode, h, ifZero]

theorem EncodedAs.decode_ok_iff {op : BitVec 4} {ok : Word → Bool} {cmd : Word → Instr} (h : EncodedAs op ok cmd) {w : Word}
    (hop : field w 28 4 = op) {i : Instr} : decode w = .ok i ↔ ok w = true ∧ cmd w = i := by
  rw [h w hop]
  split <;> simp_all

theorem EncodedAs.illegal_iff {op : BitVec 4} {ok : Word → Bool} {cmd : Word → Instr} (h : EncodedAs op ok cmd) {w : Word}
    (hop : field w 28 4 = op) : (∃ e, decode w = .error e) ↔ ok w = false := by
  rw [h w hop]
  split <;> simp_all

theorem decode_ctl {w : Word} (hop : field w 28 4 = 0x0) : decode w = decodeCtl w := by simp [decode, hop]

/-- A control word with its reserved bits zero is one of three commands, or its SUB is unallocated (R95, R97). -/
theorem decode_ctl_cases {w : Word} (hop : field w 28 4 = 0x0) (hz : field w 4 24 = 0) :
    (field w 0 4 = 0 ∧ decode w = .ok .ctlNop) ∨ (field w 0 4 = 1 ∧ decode w = .ok .ctlClrill) ∨
    (field w 0 4 = 2 ∧ decode w = .ok .ctlSrst) ∨ (3 ≤ (field w 0 4).toNat ∧ decode w = .error .unallocatedSub) := by
  rw [decode_ctl hop, decodeCtl, if_pos hz]
  split
  next h => exact .inl ⟨BitVec.eq_of_toNat_eq h, rfl⟩
  next h => exact .inr (.inl ⟨BitVec.eq_of_toNat_eq h, rfl⟩)
  next h => exact .inr (.inr (.inl ⟨BitVec.eq_of_toNat_eq h, rfl⟩))
  next h0 h1 h2 => exact .inr (.inr (.inr ⟨by change _ ≠ _ at h0 h1 h2; omega, rfl⟩))

theorem decode_ctl_reserved {w : Word} (hop : field w 28 4 = 0x0) (hz : field w 4 24 ≠ 0) :
    decode w = .error .reservedNonzero := by
  rw [decode_ctl hop, decodeCtl, if_neg hz]

theorem decode_ctl_illegal_iff {w : Word} (hop : field w 28 4 = 0x0) :
    (∃ e, decode w = .error e) ↔ field w 4 24 ≠ 0 ∨ 3 ≤ (field w 0 4).toNat := by
  by_cases hz : field w 4 24 = 0
  · rcases decode_ctl_cases hop hz with ⟨h, hd⟩ | ⟨h, hd⟩ | ⟨h, hd⟩ | ⟨h, hd⟩ <;> simp [hd, hz, h]
  · exact iff_of_true ⟨_, decode_ctl_reserved hop hz⟩ (.inl hz)

theorem decode_unallocatedOp {w : Word} (hop : field w 28 4 = 0x7 ∨ field w 28 4 = 0xF) :
    decode w = .error .unallocatedOp := by
  rcases hop with h | h <;> simp [decode, h]

theorem opcode_cases (op : BitVec 4) : op = 0x0 ∨ op = 0x1 ∨ op = 0x2 ∨ op = 0x3 ∨ op = 0x4 ∨ op = 0x5 ∨ op = 0x6 ∨
    op = 0x8 ∨ op = 0x9 ∨ op = 0xA ∨ op = 0xB ∨ op = 0xC ∨ op = 0xD ∨ op = 0xE ∨ (op = 0x7 ∨ op = 0xF) := by
  revert op; decide

/-! ### Decode and encode -/

/-- Settles O1: the word of a command has the command's fields, and the decoder reads each of them back. -/
theorem decodeOfEncodeIsTheCommand : Obligations.DecodeOfEncodeIsTheCommand := by
  intro i hi
  cases i with
  | encLdcode x c d =>
    obtain ⟨hop, hx, hc, hd⟩ := eq_encLdcode_iff.1 (rfl : encode (.encLdcode x c d) = _)
    exact (encodedAs_encLdcode.decode_ok_iff hop).2 ⟨rfl, by rw [hx, hc, hd]⟩
  | encSetlen x l =>
    obtain ⟨hop, hx, hz, hl⟩ := eq_encSetlen_iff.1 (rfl : encode (.encSetlen x l) = _)
    exact (encodedAs_encSetlen.decode_ok_iff hop).2 ⟨decide_eq_true hz, by rw [hx, hl]⟩
  | encSym x =>
    obtain ⟨hop, hz, hx⟩ := eq_encSym_iff.1 (rfl : encode (.encSym x) = _)
    exact (encodedAs_encSym.decode_ok_iff hop).2 ⟨decide_eq_true hz, by rw [hx]⟩
  | decLdint i l r =>
    obtain ⟨hop, hz, hi, hl, hr⟩ := eq_decLdint_iff.1 (rfl : encode (.decLdint i l r) = _)
    exact (encodedAs_decLdint.decode_ok_iff hop).2 ⟨decide_eq_true hz, by rw [hi, hl, hr]⟩
  | decLdleaf i x =>
    obtain ⟨hop, hz, hi, hz', hx⟩ := eq_decLdleaf_iff.1 (rfl : encode (.decLdleaf i x) = _)
    exact (encodedAs_decLdleaf.decode_ok_iff hop).2 ⟨decide_eq_true ⟨hz, hz'⟩, by rw [hi, hx]⟩
  | decSetroot i =>
    obtain ⟨hop, hz, hi⟩ := eq_decSetroot_iff.1 (rfl : encode (.decSetroot i) = _)
    exact (encodedAs_decSetroot.decode_ok_iff hop).2 ⟨decide_eq_true hz, by rw [hi]⟩
  | decBits n d =>
    obtain ⟨h1, h16⟩ := (wf_decBits n d).1 hi
    obtain ⟨hop, hz, hn, hd⟩ := eq_decBits_iff.1 (rfl : encode (.decBits n d) = _)
    have hcount : (field (encode (.decBits n d)) 16 4).toNat + 1 = n := by rw [hn, BitVec.toNat_ofNat]; omega
    exact (encodedAs_decBits.decode_ok_iff hop).2 ⟨decide_eq_true hz, by rw [hcount, hd]⟩
  | _ => rfl

/-- A legal word of an opcode is the word of its command, if the word with its reserved fields zero is. -/
theorem EncodedAs.encodes_back {op : BitVec 4} {ok : Word → Bool} {cmd : Word → Instr} (h : EncodedAs op ok cmd) {w : Word}
    (hop : field w 28 4 = op) {i : Instr} (hd : decode w = .ok i)
    (hcmd : ok w = true → (cmd w).wf = true ∧ w = encode (cmd w)) : i.wf = true ∧ encode i = w := by
  obtain ⟨hok, rfl⟩ := (h.decode_ok_iff hop).1 hd
  exact (hcmd hok).imp_right Eq.symm

theorem legal_ctl_encodes_back {w : Word} (hop : field w 28 4 = 0x0) {i : Instr} (hd : decode w = .ok i) :
    i.wf = true ∧ encode i = w := by
  have hz : field w 4 24 = 0 := by
    by_contra hz
    rw [decode_ctl_reserved hop hz] at hd
    cases hd
  rcases decode_ctl_cases hop hz with ⟨hs, h⟩ | ⟨hs, h⟩ | ⟨hs, h⟩ | ⟨-, h⟩ <;> rw [h] at hd <;> cases hd
  all_goals exact ⟨rfl, (eq_ctl_word_iff.2 ⟨hop, hz, hs⟩).symm⟩

/-- Settles O2: a legal word has the fields of the command it decodes to, and they are the whole word. -/
theorem legalWordsEncodeBack : Obligations.LegalWordsEncodeBack := by
  intro w i h
  rcases opcode_cases (field w 28 4) with
    hop | hop | hop | hop | hop | hop | hop | hop | hop | hop | hop | hop | hop | hop | hop
  · exact legal_ctl_encodes_back hop h
  · exact encodedAs_encClr.encodes_back hop h fun hz => ⟨rfl, eq_opcode_word_iff.2 ⟨hop, of_decide_eq_true hz⟩⟩
  · exact encodedAs_encLdcode.encodes_back hop h fun _ => ⟨rfl, eq_encLdcode_iff.2 ⟨hop, rfl, rfl, rfl⟩⟩
  · exact encodedAs_encSetlen.encodes_back hop h fun hz => ⟨rfl, eq_encSetlen_iff.2 ⟨hop, rfl, of_decide_eq_true hz, rfl⟩⟩
  · exact encodedAs_encStart.encodes_back hop h fun hz => ⟨rfl, eq_opcode_word_iff.2 ⟨hop, of_decide_eq_true hz⟩⟩
  · exact encodedAs_encSym.encodes_back hop h fun hz => ⟨rfl, eq_encSym_iff.2 ⟨hop, of_decide_eq_true hz, rfl⟩⟩
  · exact encodedAs_encFlush.encodes_back hop h fun hz => ⟨rfl, eq_opcode_word_iff.2 ⟨hop, of_decide_eq_true hz⟩⟩
  · exact encodedAs_decClr.encodes_back hop h fun hz => ⟨rfl, eq_opcode_word_iff.2 ⟨hop, of_decide_eq_true hz⟩⟩
  · exact encodedAs_decLdint.encodes_back hop h fun hz =>
      ⟨rfl, eq_decLdint_iff.2 ⟨hop, of_decide_eq_true hz, rfl, rfl, rfl⟩⟩
  · refine encodedAs_decLdleaf.encodes_back hop h fun hz => ?_
    obtain ⟨hz27, hz8⟩ := of_decide_eq_true hz
    exact ⟨rfl, eq_decLdleaf_iff.2 ⟨hop, hz27, rfl, hz8, rfl⟩⟩
  · exact encodedAs_decSetroot.encodes_back hop h fun hz => ⟨rfl, eq_decSetroot_iff.2 ⟨hop, of_decide_eq_true hz, rfl⟩⟩
  · exact encodedAs_decStart.encodes_back hop h fun hz => ⟨rfl, eq_opcode_word_iff.2 ⟨hop, of_decide_eq_true hz⟩⟩
  · refine encodedAs_decBits.encodes_back hop h fun hz => ?_
    have hn := (field w 16 4).isLt
    refine ⟨(wf_decBits _ _).2 ⟨by omega, by omega⟩, eq_decBits_iff.2 ⟨hop, of_decide_eq_true hz, ?_, rfl⟩⟩
    rw [Nat.add_sub_cancel, BitVec.ofNat_toNat, BitVec.setWidth_eq]
  · exact encodedAs_decEnd.encodes_back hop h fun hz => ⟨rfl, eq_opcode_word_iff.2 ⟨hop, of_decide_eq_true hz⟩⟩
  · rw [decode_unallocatedOp hop] at h
    cases h

/-- Settles O5, opcode by opcode; an illegal word raises Illegal (R226). -/
theorem unallocatedAndReservedWordsOnlySetIll : Obligations.UnallocatedAndReservedWordsOnlySetIll := by
  intro w op bad
  have hbad : (∃ e, decode w = .error e) ↔ bad := by
    unfold bad op
    rcases opcode_cases (field w 28 4) with
      hop | hop | hop | hop | hop | hop | hop | hop | hop | hop | hop | hop | hop | hop | hop
    · rw [decode_ctl_illegal_iff hop]; simp [hop]
    · rw [encodedAs_encClr.illegal_iff hop]; simp [hop]
    · rw [encodedAs_encLdcode.illegal_iff hop]; simp [hop]
    · rw [encodedAs_encSetlen.illegal_iff hop]; simp [hop]
    · rw [encodedAs_encStart.illegal_iff hop]; simp [hop]
    · rw [encodedAs_encSym.illegal_iff hop]; simp [hop]
    · rw [encodedAs_encFlush.illegal_iff hop]; simp [hop]
    · rw [encodedAs_decClr.illegal_iff hop]; simp [hop]
    · rw [encodedAs_decLdint.illegal_iff hop]; simp [hop]
    · rw [encodedAs_decLdleaf.illegal_iff hop]; simp [hop, imp_iff_not_or]
    · rw [encodedAs_decSetroot.illegal_iff hop]; simp [hop]
    · rw [encodedAs_decStart.illegal_iff hop]; simp [hop]
    · rw [encodedAs_decBits.illegal_iff hop]; simp [hop]
    · rw [encodedAs_decEnd.illegal_iff hop]; simp [hop]
    · exact iff_of_true ⟨_, decode_unallocatedOp hop⟩ (hop.imp_right .inl)
  refine ⟨hbad, fun hb s => ?_⟩
  obtain ⟨e, he⟩ := hbad.2 hb
  exact execWord_illegal he s

/-! ### The opcode table (R101) -/

/-- A field that the mask covers holds what the pattern has there. -/
theorem field_of_row {w : Word} {r : OpcodeRow} (h : w &&& r.mask = r.pattern) (lo n : Nat)
    (hm : field r.mask lo n = BitVec.allOnes n) : field w lo n = field r.pattern lo n := by
  calc field w lo n = field w lo n &&& field r.mask lo n := by rw [hm, BitVec.and_allOnes]
    _ = field (w &&& r.mask) lo n := BitVec.extractLsb'_and.symm
    _ = field r.pattern lo n := by rw [h]

/-- A word in a row of the table is legal: its opcode is allocated and its reserved fields are zero. -/
theorem legal_of_row {w : Word} {r : OpcodeRow} (hr : r ∈ opcodeTable) (h : w &&& r.mask = r.pattern) :
    ∃ i, decode w = .ok i := by
  have hop := field_of_row h 28 4
  have hz := field_of_row h
  simp only [opcodeTable, List.map_cons, List.map_nil, List.mem_cons, List.not_mem_nil, or_false] at hr
  rcases hr with rfl | rfl | rfl | rfl | rfl | rfl | rfl | rfl | rfl | rfl | rfl | rfl | rfl | rfl | rfl | rfl
  · exact ⟨.ctlNop, eq_ctl_word_iff.2 ⟨hop rfl, hz 4 24 rfl, hz 0 4 rfl⟩ ▸ rfl⟩
  · exact ⟨.ctlClrill, eq_ctl_word_iff.2 ⟨hop rfl, hz 4 24 rfl, hz 0 4 rfl⟩ ▸ rfl⟩
  · exact ⟨.ctlSrst, eq_ctl_word_iff.2 ⟨hop rfl, hz 4 24 rfl, hz 0 4 rfl⟩ ▸ rfl⟩
  · exact ⟨_, (encodedAs_encClr.decode_ok_iff (hop rfl)).2 ⟨decide_eq_true (hz 0 28 rfl), rfl⟩⟩
  · exact ⟨_, (encodedAs_encLdcode.decode_ok_iff (hop rfl)).2 ⟨rfl, rfl⟩⟩
  · exact ⟨_, (encodedAs_encSetlen.decode_ok_iff (hop rfl)).2 ⟨decide_eq_true (hz 8 12 rfl), rfl⟩⟩
  · exact ⟨_, (encodedAs_encStart.decode_ok_iff (hop rfl)).2 ⟨decide_eq_true (hz 0 28 rfl), rfl⟩⟩
  · exact ⟨_, (encodedAs_encSym.decode_ok_iff (hop rfl)).2 ⟨decide_eq_true (hz 8 20 rfl), rfl⟩⟩
  · exact ⟨_, (encodedAs_encFlush.decode_ok_iff (hop rfl)).2 ⟨decide_eq_true (hz 0 28 rfl), rfl⟩⟩
  · exact ⟨_, (encodedAs_decClr.decode_ok_iff (hop rfl)).2 ⟨decide_eq_true (hz 0 28 rfl), rfl⟩⟩
  · exact ⟨_, (encodedAs_decLdint.decode_ok_iff (hop rfl)).2 ⟨decide_eq_true (hz 27 1 rfl), rfl⟩⟩
  · exact ⟨_, (encodedAs_decLdleaf.decode_ok_iff (hop rfl)).2 ⟨decide_eq_true ⟨hz 27 1 rfl, hz 8 10 rfl⟩, rfl⟩⟩
  · exact ⟨_, (encodedAs_decSetroot.decode_ok_iff (hop rfl)).2 ⟨decide_eq_true (hz 9 19 rfl), rfl⟩⟩
  · exact ⟨_, (encodedAs_decStart.decode_ok_iff (hop rfl)).2 ⟨decide_eq_true (hz 0 28 rfl), rfl⟩⟩
  · exact ⟨_, (encodedAs_decBits.decode_ok_iff (hop rfl)).2 ⟨decide_eq_true (hz 20 8 rfl), rfl⟩⟩
  · exact ⟨_, (encodedAs_decEnd.decode_ok_iff (hop rfl)).2 ⟨decide_eq_true (hz 0 28 rfl), rfl⟩⟩

/-- The word of a command stands in its row. -/
theorem encode_in_row (i : Instr) : encode i &&& (opcodeRow i).mask = (opcodeRow i).pattern := by
  cases i with
  | encLdcode x c d => exact Laws.EncodedInItsRow.encLdcode x c d
  | encSetlen x l => exact Laws.EncodedInItsRow.encSetlen x l
  | encSym x => exact Laws.EncodedInItsRow.encSym x
  | decLdint i l r => exact Laws.EncodedInItsRow.decLdint i l r
  | decLdleaf i x => exact Laws.EncodedInItsRow.decLdleaf i x
  | decSetroot i => exact Laws.EncodedInItsRow.decSetroot i
  | decBits n d => exact Laws.EncodedInItsRow.decBits n d
  | _ => rfl

theorem opcodeRow_mem_table (i : Instr) : opcodeRow i ∈ opcodeTable := by
  cases i <;> simp [opcodeRow, opcodeTable]

/-- Two rows whose patterns agree where both masks look are one row. -/
theorem table_rows_disjoint : ∀ r ∈ opcodeTable, ∀ r' ∈ opcodeTable,
    r.pattern &&& r'.mask = r'.pattern &&& r.mask → r = r' := by
  decide

/-- Settles O3: legal words are the words of commands, which stand in their rows, and the rows are disjoint. -/
theorem legalWordsMatchOneTableRow : Obligations.LegalWordsMatchOneTableRow := by
  have hrow : ∀ w i, decode w = .ok i → w &&& (opcodeRow i).mask = (opcodeRow i).pattern := by
    intro w i h
    obtain ⟨-, rfl⟩ := legalWordsEncodeBack w i h
    exact encode_in_row i
  refine ⟨fun w => ⟨?_, ?_⟩, hrow, fun w r hr r' hr' h h' => ?_⟩
  · rintro ⟨i, h⟩
    exact ⟨_, opcodeRow_mem_table i, hrow w i h⟩
  · rintro ⟨r, hr, h⟩
    exact legal_of_row hr h
  · refine table_rows_disjoint r hr r' hr' ?_
    rw [← h, ← h', BitVec.and_assoc, BitVec.and_assoc, BitVec.and_comm r.mask]

/-- Settles O4, word by word. -/
theorem wordsOfTheSpecDecode : Obligations.WordsOfTheSpecDecode := ⟨rfl, rfl, rfl, rfl, rfl, rfl, rfl⟩

end Sys2Proof.Machine
end

section
/-! SUPPORT. The assembler (R102, R103): the value of each command's word, what each mnemonic assembles to, and what loading a
code leaves. -/

open Sys2Proof

namespace Sys2Proof.Machine

/-! ### The value of a word -/

/-- A concatenation weighs its more significant part (R11). -/
theorem toNat_append_eq_add {n m : Nat} (a : BitVec n) (b : BitVec m) : (a ++ b).toNat = a.toNat * 2 ^ m + b.toNat := by
  rw [BitVec.toNat_append, ← Nat.shiftLeft_add_eq_or_of_lt b.isLt, Nat.shiftLeft_eq]

theorem encode_encLdcode_toNat (x : Symbol) (c : BitVec 4) (d : BitVec 16) :
    (encode (.encLdcode x c d)).toNat = 2 * 2 ^ 28 + x.toNat * 2 ^ 20 + c.toNat * 2 ^ 16 + d.toNat := by
  simp only [encode, toNat_append_eq_add, BitVec.toNat_ofNat]
  omega

theorem encode_encSetlen_toNat (x : Symbol) (l : BitVec 8) :
    (encode (.encSetlen x l)).toNat = 3 * 2 ^ 28 + x.toNat * 2 ^ 20 + l.toNat := by
  simp only [encode, toNat_append_eq_add, BitVec.toNat_ofNat]
  omega

theorem encode_encSym_toNat (x : Symbol) : (encode (.encSym x)).toNat = 5 * 2 ^ 28 + x.toNat := by
  simp only [encode, toNat_append_eq_add, BitVec.toNat_ofNat]
  omega

theorem encode_decLdint_toNat (i l r : NodeIdx) :
    (encode (.decLdint i l r)).toNat = 9 * 2 ^ 28 + i.toNat * 2 ^ 18 + l.toNat * 2 ^ 9 + r.toNat := by
  simp only [encode, toNat_append_eq_add, BitVec.toNat_ofNat]
  omega

theorem encode_decLdleaf_toNat (i : NodeIdx) (x : Symbol) :
    (encode (.decLdleaf i x)).toNat = 10 * 2 ^ 28 + i.toNat * 2 ^ 18 + x.toNat := by
  simp only [encode, toNat_append_eq_add, BitVec.toNat_ofNat]
  omega

theorem encode_decSetroot_toNat (i : NodeIdx) : (encode (.decSetroot i)).toNat = 11 * 2 ^ 28 + i.toNat := by
  simp only [encode, toNat_append_eq_add, BitVec.toNat_ofNat]
  omega

theorem encode_decBits_toNat {n : Nat} (h16 : n ≤ 16) (d : BitVec 16) :
    (encode (.decBits n d)).toNat = 13 * 2 ^ 28 + (n - 1) * 2 ^ 16 + d.toNat := by
  simp only [encode, toNat_append_eq_add, BitVec.toNat_ofNat]
  omega

/-! ### Every assembled command is well-formed -/

/-- If an assembly succeeds, its commands are well-formed. -/
def AllWf (o : Option (List Instr)) : Prop := ∀ cmds, o = some cmds → ∀ i ∈ cmds, i.wf = true

theorem AllWf.none : AllWf none := fun _ h => nomatch h

theorem AllWf.some {l : List Instr} (h : ∀ i ∈ l, i.wf = true) : AllWf (some l) := by
  rintro _ ⟨⟩
  exact h

theorem AllWf.single {i : Instr} (h : i.wf = true) : AllWf (.some [i]) := .some (List.forall_mem_singleton.2 h)

theorem AllWf.bind {α : Type} {o : Option α} {f : α → Option (List Instr)} (h : ∀ a, AllWf (f a)) : AllWf (o >>= f) := by
  intro cmds hc
  obtain ⟨a, -, ha⟩ := Option.bind_eq_some_iff.1 hc
  exact h a cmds ha

theorem AllWf.ite {p : Prop} [Decidable p] {l : List Instr} (h : p → ∀ i ∈ l, i.wf = true) :
    AllWf (if p then .some l else .none) := by
  split
  · exact .some (h ‹p›)
  · exact .none

theorem wf_of_mem_encCode {x : Symbol} {c : Bits} : ∀ i ∈ encCode x c, i.wf = true :=
  fun i hi => wf_of_placeOf ((filterMap_placeOf (places_encCode x c)).2 i hi)

/-- By the arms of `assemble`, in its order; only a count of dec.bits, given or of a bit string, has to be tested (R93). -/
theorem allWf_assemble (m : Mnemonic) (ops : List Operand) : AllWf (assemble m ops) := by
  unfold assemble
  split
  next => exact .single rfl
  next => exact .single rfl
  next => exact .single rfl
  next => exact .single rfl
  next => exact .bind fun _ => .bind fun _ => .bind fun _ => .single rfl
  next => exact .bind fun _ => .bind fun _ => .single rfl
  next => exact .single rfl
  next => exact .bind fun _ => .single rfl
  next => exact .single rfl
  next => exact .single rfl
  next => exact .bind fun _ => .bind fun _ => .bind fun _ => .single rfl
  next => exact .bind fun _ => .bind fun _ => .single rfl
  next => exact .bind fun _ => .single rfl
  next => exact .single rfl
  next => exact .bind fun _ => .ite fun h => List.forall_mem_singleton.2 h
  next => exact .single rfl
  next => exact .bind fun _ => .ite fun _ => wf_of_mem_encCode
  next => exact .bind fun _ => .single rfl
  next => exact .bind fun _ => .single rfl
  next => exact .bind fun _ => .bind fun _ => .single rfl
  next => exact .ite fun h => List.forall_mem_singleton.2 ((wf_decBits _ _).2 h)
  next => exact .none

/-! ### What each mnemonic with operands assembles to -/

/-- An operand that fits is taken, any other is rejected (R102). -/
theorem fit_bind {α : Type} (width n : Nat) (f : BitVec width → Option α) :
    (fit width n >>= f) = if n < 2 ^ width then f (BitVec.ofNat width n) else none := by
  unfold fit
  split <;> rfl

/-- Nested tests are one test. -/
theorem ite_ite_none {α : Type} (p q : Prop) [Decidable p] [Decidable q] (a : Option α) :
    (if p then if q then a else none else none) = if p ∧ q then a else none := by
  by_cases p <;> simp [*]

theorem assemble_encLdcode (x c d : Nat) : assemble .encLdcode [.num x, .num c, .num d] =
    if x < 2 ^ 8 ∧ c < 2 ^ 4 ∧ d < 2 ^ 16 then
      some [.encLdcode (BitVec.ofNat 8 x) (BitVec.ofNat 4 c) (BitVec.ofNat 16 d)] else none := by
  simp only [assemble, fit_bind, ite_ite_none]
  rfl

theorem assemble_encSetlen (x l : Nat) : assemble .encSetlen [.num x, .num l] =
    if x < 2 ^ 8 ∧ l < 2 ^ 8 then some [.encSetlen (BitVec.ofNat 8 x) (BitVec.ofNat 8 l)] else none := by
  simp only [assemble, fit_bind, ite_ite_none]
  rfl

theorem assemble_encSym (x : Nat) : assemble .encSym [.num x] =
    if x < 2 ^ 8 then some [.encSym (BitVec.ofNat 8 x)] else none := by
  simp only [assemble, fit_bind]
  rfl

theorem assemble_decLdint (i l r : Nat) : assemble .decLdint [.num i, .num l, .num r] =
    if i < 2 ^ 9 ∧ l < 2 ^ 9 ∧ r < 2 ^ 9 then
      some [.decLdint (BitVec.ofNat 9 i) (BitVec.ofNat 9 l) (BitVec.ofNat 9 r)] else none := by
  simp only [assemble, fit_bind, ite_ite_none]
  rfl

theorem assemble_decLdleaf (i x : Nat) : assemble .decLdleaf [.num i, .num x] =
    if i < 2 ^ 9 ∧ x < 2 ^ 8 then some [.decLdleaf (BitVec.ofNat 9 i) (BitVec.ofNat 8 x)] else none := by
  simp only [assemble, fit_bind, ite_ite_none]
  rfl

theorem assemble_decSetroot (i : Nat) : assemble .decSetroot [.num i] =
    if i < 2 ^ 9 then some [.decSetroot (BitVec.ofNat 9 i)] else none := by
  simp only [assemble, fit_bind]
  rfl

theorem assemble_decBits (n d : Nat) : assemble .decBits [.num n, .num d] =
    if d < 2 ^ 16 ∧ 1 ≤ n ∧ n ≤ 16 then some [.decBits n (BitVec.ofNat 16 d)] else none := by
  simp only [assemble, fit_bind, wf_decBits, ite_ite_none]

theorem assemble_encCode (x : Nat) (b : Bits) : assemble .encCode [.num x, .bits b] =
    if x < 2 ^ 8 ∧ 1 ≤ b.length ∧ b.length ≤ 255 then some (encCode (BitVec.ofNat 8 x) b) else none :=
  (fit_bind 8 x _).trans (ite_ite_none _ _ _)

theorem assemble_encDrop (x : Nat) : assemble .encDrop [.num x] =
    if x < 2 ^ 8 then some [.encSetlen (BitVec.ofNat 8 x) 0] else none := by
  simp only [assemble, fit_bind]
  rfl

theorem assemble_decFeed8 (b : Nat) : assemble .decFeed8 [.num b] =
    if b < 2 ^ 8 then some [.decBits 8 (BitVec.ofNat 8 b ++ 0#8)] else none := by
  simp only [assemble, fit_bind]
  rfl

theorem assemble_decFeed16 (b0 b1 : Nat) : assemble .decFeed16 [.num b0, .num b1] =
    if b0 < 2 ^ 8 ∧ b1 < 2 ^ 8 then some [.decBits 16 (BitVec.ofNat 8 b0 ++ BitVec.ofNat 8 b1)] else none := by
  simp only [assemble, fit_bind, ite_ite_none]
  rfl

theorem assemble_decFeedstr (b : Bits) : assemble .decFeedstr [.bits b] =
    if 1 ≤ b.length ∧ b.length ≤ 16 then some [.decBits b.length (dataOfBits b)] else none := rfl

/-- A mnemonic of one command, as R102 has it: a word of the given value where the operands fit, else nothing. -/
theorem one_word_of_assemble {p q : Prop} [Decidable p] [Decidable q] {a : Option (List Instr)} {i : Instr} {v : Nat}
    (ha : a = if p then some [i] else none) (hpq : q ↔ p) (hv : p → (encode i).toNat = v) :
    if q then ∃ k, a = some [k] ∧ (encode k).toNat = v else a = none := by
  split
  next hq => exact ⟨i, ha.trans (if_pos (hpq.1 hq)), hv (hpq.1 hq)⟩
  next hq => exact ha.trans (if_neg (mt hpq.2 hq))

/-- Settles O48: assembled commands are well-formed, and each mnemonic's word has the sum of its operands' fields as value. -/
theorem assemblerRejectsWhatDoesNotFit : Obligations.AssemblerRejectsWhatDoesNotFit := by
  refine ⟨allWf_assemble, fun p hp => ?_, fun x c d => ?_, fun x l => ?_, fun x => ?_, fun i l r => ?_, fun i x => ?_,
    fun i => ?_, fun n d => ?_⟩
  · simp only [List.mem_cons, List.not_mem_nil, or_false] at hp
    rcases hp with rfl | rfl | rfl | rfl | rfl | rfl | rfl | rfl | rfl <;> exact ⟨rfl, fun _ _ => rfl⟩
  · refine one_word_of_assemble (assemble_encLdcode x c d) (by omega) fun h => ?_
    simp only [encode_encLdcode_toNat, BitVec.toNat_ofNat]
    omega
  · refine one_word_of_assemble (assemble_encSetlen x l) (by omega) fun h => ?_
    simp only [encode_encSetlen_toNat, BitVec.toNat_ofNat]
    omega
  · refine one_word_of_assemble (assemble_encSym x) (by omega) fun h => ?_
    simp only [encode_encSym_toNat, BitVec.toNat_ofNat]
    omega
  · refine one_word_of_assemble (assemble_decLdint i l r) (by omega) fun h => ?_
    simp only [encode_decLdint_toNat, BitVec.toNat_ofNat]
    omega
  · refine one_word_of_assemble (assemble_decLdleaf i x) (by omega) fun h => ?_
    simp only [encode_decLdleaf_toNat, BitVec.toNat_ofNat]
    omega
  · refine one_word_of_assemble (assemble_decSetroot i) (by omega) fun h => ?_
    simp only [encode_decSetroot_toNat, BitVec.toNat_ofNat]
    omega
  · refine one_word_of_assemble (assemble_decBits n d) (by omega) fun h => ?_
    rw [encode_decBits_toNat h.2.2, BitVec.toNat_ofNat]
    omega

/-! ### Pseudo-commands (R103) -/

theorem encCode_length (x : Symbol) (b : Bits) : (encCode x b).length = (b.length + 15) / 16 + 1 := by
  simp [encCode]

theorem encCode_chunk (x : Symbol) (b : Bits) {c : Nat} (hc : c < (b.length + 15) / 16) : (encCode x b)[c]? =
    some (.encLdcode x (BitVec.ofNat 4 c) (dataOfBits ((b.drop (16 * c)).take 16))) := by
  simp [encCode, List.getElem?_append, hc]

theorem encCode_last (x : Symbol) (b : Bits) :
    (encCode x b)[(b.length + 15) / 16]? = some (.encSetlen x (BitVec.ofNat 8 b.length)) := by
  simp [encCode]

/-- DATA[15 − j] of chunk c is code bit 16c + j, 0 beyond the code (R94, R103). -/
theorem chunk_getMsbD (b : Bits) (c : Nat) {j : Nat} (hj : j < 16) :
    (dataOfBits ((b.drop (16 * c)).take 16)).getMsbD j = b.getD (16 * c + j) false := by
  rw [dataOfBits_getMsbD _ j hj, List.getD_eq_getElem?_getD, List.getElem?_take_of_lt hj, List.getElem?_drop,
    List.getD_eq_getElem?_getD]

/-- Settles O49: each pseudo-command is the list of R103, and its data carries the bits of its operands. -/
theorem pseudoCommandsExpandAsGiven : Obligations.PseudoCommandsExpandAsGiven := by
  refine ⟨fun x b => ?_, fun x => ?_, fun b => ?_, fun b0 b1 => ?_, fun b => ?_⟩
  · rw [assemble_encCode]
    split
    next h =>
      refine ⟨_, if_pos ⟨by omega, h.2⟩, encCode_length _ b, fun c hc => ?_, encCode_last _ b⟩
      exact ⟨_, encCode_chunk _ b hc, fun j hj => chunk_getMsbD b c hj⟩
    next h => exact if_neg fun h' => h ⟨by omega, h'.2⟩
  · rw [assemble_encDrop]
    split
    next h => exact if_pos (by omega)
    next h => exact if_neg (by omega)
  · refine one_word_of_assemble (assemble_decFeed8 b) (by omega) fun h => ?_
    rw [encode_decBits_toNat (by decide), toNat_append_eq_add, BitVec.toNat_ofNat, BitVec.toNat_ofNat]
    omega
  · refine one_word_of_assemble (assemble_decFeed16 b0 b1) (by omega) fun h => ?_
    rw [encode_decBits_toNat (by decide), toNat_append_eq_add, BitVec.toNat_ofNat, BitVec.toNat_ofNat]
    omega
  · rw [assemble_decFeedstr]
    split
    next h => exact ⟨_, rfl, fun j hj => dataOfBits_getMsbD b j hj⟩
    next h => rfl

/-! ### Loading a code -/

theorem isEncoderCommand_of_mem_encCode {x : Symbol} {c : Bits} : ∀ i ∈ encCode x c, isEncoderCommand i = true := by
  intro i hi
  rcases List.mem_append.1 hi with hi | hi
  · obtain ⟨k, -, rfl⟩ := List.mem_map.1 hi
    rfl
  · rw [List.mem_singleton.1 hi]
    rfl

theorem fold_dec_of_encoder (cmds : List Instr) : ∀ s : State, (∀ i ∈ cmds, isEncoderCommand i = true) →
    (cmds.foldl (fun t i => effect i t) s).dec = s.dec := by
  induction cmds with
  | nil => intro s _; rfl
  | cons i cmds ih =>
    intro s h
    obtain ⟨hi, hcmds⟩ := List.forall_mem_cons.1 h
    rw [List.foldl_cons, ih _ hcmds, effect_dec_of_encoder hi]

/-- A place of another symbol's entry is not one that enc.code writes. -/
theorem not_mem_filterMap_encCode {x : Symbol} {c : Bits} {p : Place} (hc : ∀ k, p ≠ .chunk x k) (hl : p ≠ .len x) :
    p ∉ (encCode x c).filterMap placeOf := by
  rw [(filterMap_placeOf (places_encCode x c)).1]
  intro hp
  rcases mem_codePlaces hp with ⟨k, h⟩ | h
  · exact hc k h
  · exact hl h

/-- Every entry's code bits are loaded with what they are. -/
theorem loaded_chunk_self (s : State) (y : Symbol) (k : BitVec 4) :
    Loaded s (.encLdcode y k (codeChunk s y k.toNat)) := by
  intro j hj
  simp only [codeBit, Config.chunkBits]
  rw [show (16 * k.toNat + j) / 16 = k.toNat by omega, show (16 * k.toNat + j) % 16 = j by omega]

/-- A code bit is one of the 16 of its chunk. -/
theorem codeBit_of_loaded {s : State} {y : Symbol} {k : Nat} (hk : k < 256) {d : BitVec 16}
    (h : Loaded s (.encLdcode y (BitVec.ofNat 4 (k / 16)) d)) : codeBit s y k = d.getMsbD (k % 16) := by
  have hb := h (k % 16) (by omega)
  rwa [BitVec.toNat_ofNat, show 16 * (k / 16 % 2 ^ 4) + k % 16 = k by omega] at hb

/-- The effects of enc.code: it holds the code, every other entry reads as before, and only the codebook changed. -/
theorem fold_encCode (s : State) {x : Symbol} {c : Bits} (h255 : c.length ≤ 255) {t : State}
    (ht : (encCode x c).foldl (fun t i => effect i t) s = t) : HoldsCode t x c ∧
      (∀ y, y ≠ x → cbLen t y = cbLen s y ∧ ∀ k, k < 256 → codeBit t y k = codeBit s y k) ∧
      t = { s with enc := { s.enc with len := t.enc.len, code := t.enc.code } } := by
  obtain ⟨hplaces, hloading⟩ := filterMap_placeOf (places_encCode x c)
  obtain ⟨hloaded, hkeep, htables⟩ := fold_loaded (encCode x c) s hloading (hplaces ▸ nodup_codePlaces h255)
  have hdec := fold_dec_of_encoder (encCode x c) s isEncoderCommand_of_mem_encCode
  rw [ht] at hloaded hkeep htables hdec
  refine ⟨holdsCode_of_loaded h255 hloaded, fun y hy => ⟨?_, fun k hk => ?_⟩, ?_⟩
  · exact hkeep (.encSetlen y (cbLen s y)) (.len y) rfl
      (not_mem_filterMap_encCode (fun _ h => nomatch h) fun h => hy (Place.len.inj h)) rfl
  · have hnot : Place.chunk y (BitVec.ofNat 4 (k / 16)) ∉ (encCode x c).filterMap placeOf :=
      not_mem_filterMap_encCode (fun _ h => hy (Place.chunk.inj h).1) fun h => nomatch h
    have hs := loaded_chunk_self s y (BitVec.ofNat 4 (k / 16))
    exact (codeBit_of_loaded hk (hkeep _ _ rfl hnot hs)).trans (codeBit_of_loaded hk hs).symm
  · unfold TablesOnly at htables
    rw [hdec] at htables
    exact htables

/-- Settles O50: the run is the fold of its commands' effects (`runCommands_eq`), which load the code (`fold_encCode`). -/
theorem encCodeLoadsTheCode : Obligations.EncCodeLoadsTheCode := by
  intro s x c _ h255
  have hrun := runCommands_eq (encCode x c) (fun i hi => decodeOfEncodeIsTheCommand i (wf_of_mem_encCode i hi)) s
  have hne : encCode x c ≠ [] := List.append_ne_nil_of_right_ne_nil _ (List.cons_ne_nil _ _)
  rw [if_neg hne] at hrun
  obtain ⟨hholds, hothers, hframe⟩ := fold_encCode s h255 rfl
  exact ⟨_, hrun, hholds, hothers, congrArg (withHost [] .none) hframe⟩

end Sys2Proof.Machine
end

section
/-! SUPPORT. The control commands (R120 to R123): what ctl.nop, ctl.clrill and ctl.srst do, and what reads after a soft reset. -/

open Sys2Proof

namespace Sys2Proof.Machine

/-! ### The three commands -/

theorem exec_ctlNop (s : State) : exec .ctlNop s = .next s := rfl

theorem exec_ctlClrill (s : State) : exec .ctlClrill s = .next { s with ill := false } := rfl

theorem exec_ctlSrst (s : State) : exec .ctlSrst s = .next (resetState s) := rfl

/-! ### What reads after reset_state() (R51, R250) -/

@[simp] theorem cbLen_resetState (s : State) (x : Symbol) : cbLen (resetState s) x = 0 := rfl

@[simp] theorem nodeKind_resetState (s : State) (i : NodeIdx) : nodeKind (resetState s) i = .invalid := rfl

/-- STATUS shows the two engines and ILL alone (R27). -/
theorem statusReg_congr {s t : State} (hi : s.ill = t.ill) (he : s.enc = t.enc) (hd : s.dec = t.dec) :
    statusReg s = statusReg t := by
  simp only [statusReg, atRoot, hi, he, hd]

@[simp] theorem statusReg_resetState (s : State) : statusReg (resetState s) = 0x00001000 := by
  calc statusReg (resetState s) = statusReg State.reset := statusReg_congr rfl rfl rfl
    _ = 0x00001000 := by decide

/-! ### The obligations on the control commands -/

/-- Settles O17: ctl.srst is reset_state(), which gives both engines and ILL their reset values and leaves all else. -/
theorem softResetResetsAllButTheStreams : Obligations.SoftResetResetsAllButTheStreams := by
  refine ⟨decodeOfEncodeIsTheCommand .ctlSrst rfl, fun s => ⟨resetState s, exec_ctlSrst s, ?frame, ?reads⟩⟩
  case frame => rfl
  case reads => simp [Enc.reset, Dec.reset]

/-- Settles O18: the two words are those of the commands, and 0x00000010 has a reserved bit set (R98). -/
theorem nopAndClrillEffects : Obligations.NopAndClrillEffects :=
  ⟨decodeOfEncodeIsTheCommand .ctlNop rfl, decodeOfEncodeIsTheCommand .ctlClrill rfl,
    decode_ctl_reserved (by decide) (by decide), fun s => ⟨exec_ctlNop s, exec_ctlClrill s⟩⟩

end Sys2Proof.Machine
end

section
/-! SUPPORT. The encoder commands (R130 to R143): the gate by the engine's state, what each command does, which part of the
state it reads, and what a session emits. -/

open Sys2Proof

namespace Sys2Proof.Machine

/-! ### The gate (R132), by the engine's state -/

theorem encGate_of_run {s : State} (h : s.enc.state = .run) (f : State → State) : encGate s f = f s := by
  simp only [encGate, h]

theorem encGate_of_closed {s : State} (h : s.enc.state = .idle ∨ s.enc.state = .done) (f : State → State) :
    encGate s f = raiseE .sequenceError s := by
  rcases h with h | h <;> simp only [encGate, h]

theorem encGate_of_err {s : State} (h : s.enc.state = .err) (f : State → State) : encGate s f = s := by
  simp only [encGate, h]

/-! ### The session commands -/

theorem anyValid_openEncSession (s : State) : anyValid (openEncSession s) = anyValid s := rfl

/-- enc.start with a valid entry (R136, R137). -/
theorem effect_encStart_of_valid {s : State} (h : ∃ x, cbLen s x ≠ 0) :
    effect .encStart s = setEncState .run (openEncSession s) := by
  rw [effect_encStart, anyValid_openEncSession, if_pos ((anyValid_iff s).2 h)]

/-- enc.start with no valid entry (R136, R137). -/
theorem effect_encStart_of_empty {s : State} (h : ∀ x, cbLen s x = 0) :
    effect .encStart s = raiseE .emptyAlphabet (openEncSession s) := by
  have hn : ¬ ∃ x, cbLen s x ≠ 0 := fun ⟨x, hx⟩ => hx (h x)
  rw [effect_encStart, anyValid_openEncSession, if_neg fun ha => hn ((anyValid_iff s).1 ha)]

/-- enc.sym of an invalid entry, in a session (R138). -/
theorem effect_encSym_unknown {s : State} {x : Symbol} (hr : s.enc.state = .run) (h : cbLen s x = 0) :
    effect (.encSym x) s = raiseE .unknownSymbol s := by
  rw [effect_encSym_gate, encGate_of_run hr, encodeSymbol, if_pos h]

theorem codeString_length (s : State) (x : Symbol) (n : Nat) : (codeString s x n).length = n := by simp [codeString]

theorem encodedBits_singleton (s : State) (x : Symbol) : encodedBits s [x] = codeString s x (cbLen s x).toNat := by
  simp [encodedBits]

/-- The flush emits the packer's bits as the bytes they become, none for an empty packer (R141). -/
theorem flushPacker_eq {s : State} (hp : s.enc.pend.length ≤ 7) : flushPacker s =
    { s with eout := s.eout ++ bytesOfBits s.enc.pend, enc := { s.enc with pend := [], state := .done } } := by
  rw [flushPacker]
  split
  next h => rw [bytesOfBits_short s.enc.pend h (by omega)]; rfl
  next h =>
    have h0 : s.enc.pend = [] := List.length_eq_zero_iff.1 (by omega)
    simp [setEncState, h0, bytesOfBits_nil]

/-- enc.flush in a session (R141). -/
theorem effect_encFlush {s : State} (hr : s.enc.state = .run) (hp : s.enc.pend.length ≤ 7) : effect .encFlush s =
    { s with eout := s.eout ++ bytesOfBits s.enc.pend, enc := { s.enc with pend := [], state := .done } } := by
  rw [effect_encFlush_gate, encGate_of_run hr, flushPacker_eq hp]

/-! ### A whole session (R142) -/

theorem wf_of_mem_encodeSession {S : List Symbol} : ∀ i ∈ encodeSession S, i.wf = true := by
  intro i hi
  simp only [encodeSession, List.mem_cons, List.mem_append, List.mem_map, List.not_mem_nil, or_false] at hi
  rcases hi with rfl | ⟨x, -, rfl⟩ | rfl <;> rfl

/-- A session leaves all bits of its codes in EOUT: the whole bytes its symbols emit, then the byte of its flush. -/
theorem fold_encodeSession {s : State} {S : List Symbol} (hv : ∀ x ∈ S, cbLen s x ≠ 0) (hs : ∃ x, cbLen s x ≠ 0) :
    (encodeSession S).foldl (fun t i => effect i t) s =
      { s with
        eout := s.eout ++ bytesOfBits (encodedBits s S)
        enc := { s.enc with
          state := .done, err := .none, pend := [], bitCnt := BitVec.ofNat 32 (encodedBits s S).length,
          symCnt := BitVec.ofNat 32 S.length } } := by
  have hsyms := fold_encSym S (setEncState .run (openEncSession s)) hv rfl (Nat.zero_le 7)
  have hrest : (packerRest (encodedBits s S)).length ≤ 7 := by rw [packerRest_length]; omega
  rw [encodeSession, List.foldl_cons, List.foldl_append, effect_encStart_of_valid hs, hsyms, List.foldl_cons,
    List.foldl_nil, effect_encFlush rfl hrest]
  have hout : s.eout ++ bytesOfBits (encodedBits s S) =
      s.eout ++ wholeBytes (encodedBits s S) ++ bytesOfBits (packerRest (encodedBits s S)) := by
    rw [List.append_assoc, ← bytesOfBits_split]
  rw [hout, ← BitVec.zero_add (BitVec.ofNat 32 (encodedBits s S).length), ← BitVec.zero_add (BitVec.ofNat 32 S.length)]
  rfl

/-! ### What an encoder command reads (R130, R143) -/

/-- From `s` to `t` and from `s'` to `t'` the same bytes were appended to EOUT, and the encoders of `t` and `t'` are equal. -/
structure SameEncoding (s s' t t' : State) : Prop where
  enc : t.enc = t'.enc
  out : ∃ o, t.eout = s.eout ++ o ∧ t'.eout = s'.eout ++ o

theorem SameEncoding.of_silent {s s' t t' : State} (he : t.enc = t'.enc) (h : t.eout = s.eout) (h' : t'.eout = s'.eout) :
    SameEncoding s s' t t' :=
  ⟨he, [], by rw [h, List.append_nil], by rw [h', List.append_nil]⟩

theorem SameEncoding.trans {s s' t t' u u' : State} (h : SameEncoding s s' t t') (k : SameEncoding t t' u u') :
    SameEncoding s s' u u' := by
  obtain ⟨o, ho, ho'⟩ := h.out
  obtain ⟨p, hp, hp'⟩ := k.out
  exact ⟨k.enc, o ++ p, by rw [hp, ho, List.append_assoc], by rw [hp', ho', List.append_assoc]⟩

theorem append_sameEncoding {s s' : State} (h : s.enc = s'.enc) (b : Bool) :
    SameEncoding s s' (append b s) (append b s') := by
  simp only [append, incEncBitCnt_fields, setPend_fields, ← h]
  split
  · exact ⟨by simp [setPend, emitE, incEncBitCnt, h], _, rfl, rfl⟩
  · exact .of_silent (by simp [setPend, incEncBitCnt, h]) rfl rfl

theorem appendAll_sameEncoding (bs : Bits) : ∀ {s s' : State}, s.enc = s'.enc →
    SameEncoding s s' (appendAll bs s) (appendAll bs s') := by
  induction bs with
  | nil => exact fun h => .of_silent h rfl rfl
  | cons b bs ih =>
    intro s s' h
    have hb := append_sameEncoding h b
    exact hb.trans (ih hb.enc)

section

variable {s s' : State} (h : s.enc = s'.enc)
include h

theorem cbLen_eq_of_enc (x : Symbol) : cbLen s x = cbLen s' x := by rw [cbLen, cbLen, h]

theorem anyValid_eq_of_enc : anyValid s = anyValid s' := by simp only [anyValid, cbLen_eq_of_enc h]

theorem raiseE_sameEncoding (c : ErrCode) : SameEncoding s s' (raiseE c s) (raiseE c s') :=
  .of_silent (by simp only [raiseE, h]) rfl rfl

theorem encGate_sameEncoding {f : State → State} (hf : SameEncoding s s' (f s) (f s')) :
    SameEncoding s s' (encGate s f) (encGate s' f) := by
  rcases encGate_cases s f with ⟨hs, e⟩ | ⟨hs, e⟩ | ⟨hs, e⟩ <;> rw [e] <;> rw [h] at hs
  · rw [encGate_of_err hs]; exact .of_silent h rfl rfl
  · rw [encGate_of_closed hs]; exact raiseE_sameEncoding h _
  · rw [encGate_of_run hs]; exact hf

theorem encStart_sameEncoding : SameEncoding s s' (effect .encStart s) (effect .encStart s') := by
  have ho : (openEncSession s).enc = (openEncSession s').enc := by simp only [openEncSession, h]
  rw [effect_encStart, effect_encStart, anyValid_eq_of_enc ho]
  split
  · exact .of_silent (by simp only [setEncState, ho]) rfl rfl
  · exact .of_silent (raiseE_sameEncoding ho _).enc rfl rfl

theorem encodeSymbol_sameEncoding {x : Symbol} (hc : ∀ k, k < 256 → codeBit s x k = codeBit s' x k) :
    SameEncoding s s' (encodeSymbol x s) (encodeSymbol x s') := by
  have hcode : codeString s x (cbLen s' x).toNat = codeString s' x (cbLen s' x).toNat := by
    refine List.map_congr_left fun k hk => hc k ?_
    exact (List.mem_range.1 hk).trans (cbLen s' x).isLt
  rw [encodeSymbol, encodeSymbol, cbLen_eq_of_enc h, hcode]
  split
  · exact raiseE_sameEncoding h _
  · have ha := appendAll_sameEncoding (codeString s' x (cbLen s' x).toNat) h
    exact ha.trans (.of_silent (by simp only [incEncSymCnt, ha.enc]) rfl rfl)

theorem flushPacker_sameEncoding : SameEncoding s s' (flushPacker s) (flushPacker s') := by
  rw [flushPacker, flushPacker, h]
  split
  · exact ⟨by simp [setEncState, setPend, emitE, h], _, rfl, rfl⟩
  · exact .of_silent (by simp only [setEncState, h]) rfl rfl

/-- Every encoder command does the same to equal encoders whose code bits are equal. -/
theorem effect_sameEncoding (hc : ∀ x k, k < 256 → codeBit s x k = codeBit s' x k) {i : Instr}
    (hi : isEncoderCommand i = true) : SameEncoding s s' (effect i s) (effect i s') := by
  cases i
  case encClr => exact .of_silent (t := clearCbLens s) (t' := clearCbLens s') (by simp only [clearCbLens, h]) rfl rfl
  case encSetlen x l =>
    exact .of_silent (t := setCbLen x l s) (t' := setCbLen x l s') (by simp only [setCbLen, h]) rfl rfl
  case encLdcode x c d =>
    exact .of_silent (t := setCodeChunk x c.toNat d s) (t' := setCodeChunk x c.toNat d s')
      (by simp only [setCodeChunk, h]) rfl rfl
  case encStart => exact encStart_sameEncoding h
  case encSym x =>
    rw [effect_encSym_gate, effect_encSym_gate]
    exact encGate_sameEncoding h (encodeSymbol_sameEncoding h (hc x))
  case encFlush =>
    rw [effect_encFlush_gate, effect_encFlush_gate]
    exact encGate_sameEncoding h (flushPacker_sameEncoding h)
  all_goals cases hi

end

/-- Equal code bits stay equal: enc.ldcode writes the same 16 in both, and no other encoder command writes any. -/
theorem effect_codeBit_eq {s s' : State} (hc : ∀ x k, k < 256 → codeBit s x k = codeBit s' x k) {i : Instr}
    (hi : isEncoderCommand i = true) (x : Symbol) {k : Nat} (hk : k < 256) :
    codeBit (effect i s) x k = codeBit (effect i s') x k := by
  by_cases hl : ∃ y c d, i = .encLdcode y c d
  · obtain ⟨y, c, d, rfl⟩ := hl
    have hw := fun u => codeBit_setCodeChunk y x c.isLt hk d u
    exact (hw s).trans ((congrArg _ (hc x k hk)).trans (hw s').symm)
  · push Not at hl
    have hr : i ≠ .ctlSrst := by rintro rfl; cases hi
    have keep := fun u => codeBit_congr (effect_code hr hl u) (effect_epoch hr u) x k
    rw [keep, keep, hc x k hk]

/-! ### The obligations on the encoder commands -/

/-- Settles O19: the lengths are cleared, the code RAM and the epoch of its draws stay. -/
theorem encClrInvalidatesEveryEntry : Obligations.EncClrInvalidatesEveryEntry :=
  ⟨encodedAs_encClr, fun s => ⟨clearCbLens s, rfl, fun x => cbLen_clearCbLens x s,
    fun x i => codeBit_congr rfl rfl x i, rfl⟩⟩

/-- Settles O20: the written chunk reads as DATA, most significant bit first, and every other chunk as before. -/
theorem ldcodeWritesSixteenCodeBits : Obligations.LdcodeWritesSixteenCodeBits := by
  refine ⟨encodedAs_encLdcode, fun s sym chunk data => ⟨setCodeChunk sym chunk.toNat data s, rfl, ?_, ?_, ?_, rfl⟩⟩
  · intro j hj
    have hc := chunk.isLt
    rw [codeBit_setCodeChunk sym sym hc (by omega), if_pos ⟨rfl, by omega⟩, Nat.mul_add_mod, Nat.mod_eq_of_lt hj]
    simp [BitVec.getMsbD, hj]
  · intro x i hi hne
    rw [codeBit_setCodeChunk sym x chunk.isLt hi, if_neg hne]
  · exact fun x => cbLen_congr rfl x

/-- Settles O21: one length is written, the code RAM and the epoch of its draws stay. -/
theorem setlenWritesOneLength : Obligations.SetlenWritesOneLength :=
  ⟨encodedAs_encSetlen, fun s sym len => ⟨setCbLen sym len s, rfl, fun x => cbLen_setCbLen sym x len s,
    fun x i => codeBit_congr rfl rfl x i, rfl⟩⟩

/-- Settles O22, by whether an entry is valid. -/
theorem encStartOpensOrRaisesEmptyAlphabet : Obligations.EncStartOpensOrRaisesEmptyAlphabet := by
  refine ⟨encodedAs_encStart, fun s => ⟨fun h => ?_, fun h => ?_⟩⟩
  · rw [exec_eq_effect, effect_encStart_of_valid h]; rfl
  · rw [exec_eq_effect, effect_encStart_of_empty h]; rfl

/-- Settles O23, by the engine's state and the symbol's entry; the packer's law is `effect_encSym`. -/
theorem encSymAppendsTheCode : Obligations.EncSymAppendsTheCode := by
  refine ⟨encodedAs_encSym, fun s sym => ⟨fun hr hv hp => ?_, fun hr hz => ?_, fun hs => ?_, fun hs => ?_⟩⟩
  · rw [exec_eq_effect, effect_encSym hr hv hp, encodedBits_singleton, codeString_length]
    rfl
  · rw [exec_eq_effect, effect_encSym_unknown hr hz]; rfl
  · rw [exec_eq_effect, effect_encSym_gate, encGate_of_closed hs]; rfl
  · rw [exec_eq_effect, effect_encSym_gate, encGate_of_err hs]

/-- Settles O24, by the engine's state. -/
theorem encFlushEmitsThePartialByte : Obligations.EncFlushEmitsThePartialByte := by
  refine ⟨encodedAs_encFlush, fun s => ⟨fun hr hp => ?_, fun hs => ?_, fun hs => ?_⟩⟩
  · rw [exec_eq_effect, effect_encFlush hr hp]
  · rw [exec_eq_effect, effect_encFlush_gate, encGate_of_closed hs]; rfl
  · rw [exec_eq_effect, effect_encFlush_gate, encGate_of_err hs]

/-- Settles O25: the run is the fold of its commands' effects (`runCommands_eq`), whose state is `fold_encodeSession`. -/
theorem encoderSessionOutputLaw : Obligations.EncoderSessionOutputLaw := by
  intro s S hv hempty
  have hs : ∃ x, cbLen s x ≠ 0 := by
    cases S with
    | nil => exact hempty rfl
    | cons x S => exact ⟨x, hv x List.mem_cons_self⟩
  have hrun := runCommands_eq (encodeSession S) (fun i hi => decodeOfEncodeIsTheCommand i (wf_of_mem_encodeSession i hi)) s
  rw [fold_encodeSession hv hs] at hrun
  exact ⟨_, hrun, rfl, rfl, rfl, rfl, rfl⟩

/-- Settles O38: the same bytes and encoders by `effect_sameEncoding`, the same code bits by `effect_codeBit_eq`. -/
theorem encoderReadsOnlyItsOwnState : Obligations.EncoderReadsOnlyItsOwnState := by
  intro i s s' hi he hc
  obtain ⟨henc, out, ho, ho'⟩ := effect_sameEncoding he hc hi
  exact ⟨_, _, out, exec_eq_effect i s, exec_eq_effect i s', henc, fun x _ hk => effect_codeBit_eq hc hi x hk, ho, ho'⟩

end Sys2Proof.Machine
end

section
/-! SUPPORT. The decoder commands (R160 to R177): the gate by the engine's state, one transition by the kind of node under the
cursor, what each command does, which part of the state it reads, and what a session decodes. -/

open Sys2Proof

namespace Sys2Proof.Machine

/-! ### The gate (R169), by the engine's state -/

theorem decGate_of_run {s : State} (h : s.dec.state = .run) (f : State → State) : decGate s f = f s := by
  simp only [decGate, h]

theorem decGate_of_closed {s : State} (h : s.dec.state = .idle ∨ s.dec.state = .done) (f : State → State) :
    decGate s f = raiseD .sequenceError s := by
  rcases h with h | h <;> simp only [decGate, h]

theorem decGate_of_err {s : State} (h : s.dec.state = .err) (f : State → State) : decGate s f = s := by
  simp only [decGate, h]

/-! ### dec.start and dec.end -/

/-- dec.start at a node that is not INVALID (R167). -/
theorem effect_decStart_of_valid {s : State} (h : nodeKind s s.dec.root ≠ .invalid) :
    effect .decStart s = setDecState .run (openDecSession s) :=
  (effect_decStart s).trans (if_neg h)

/-- dec.start at an INVALID node (R167). -/
theorem effect_decStart_of_invalid {s : State} (h : nodeKind s s.dec.root = .invalid) :
    effect .decStart s = raiseD .emptyAlphabet (openDecSession s) :=
  (effect_decStart s).trans (if_pos h)

/-- dec.end between two codes (R174). -/
theorem effect_decEnd_at_root {s : State} (hr : s.dec.state = .run) (hc : s.dec.cursor = s.dec.root) :
    effect .decEnd s = setDecState .done s := by
  rw [effect_decEnd_gate, decGate_of_run hr, checkTerminal, if_pos hc]

/-- dec.end inside a code (R174). -/
theorem effect_decEnd_off_root {s : State} (hr : s.dec.state = .run) (hc : s.dec.cursor ≠ s.dec.root) :
    effect .decEnd s = raiseD .corruptStream s := by
  rw [effect_decEnd_gate, decGate_of_run hr, checkTerminal, if_neg hc]

/-! ### One transition (R171), by the kind of node under the cursor -/

theorem enterChild_of_invalid {s : State} {c : NodeIdx} (h : nodeKind s c = .invalid) :
    enterChild c s = raiseD .corruptStream s := by
  simp only [enterChild, h]

theorem enterChild_of_leaf {s : State} {c : NodeIdx} (h : nodeKind s c = .leaf) :
    enterChild c s = leafhit (nodeSym s c) s := by
  simp only [enterChild, h]

theorem enterChild_of_internal {s : State} {c : NodeIdx} (h : nodeKind s c = .internal) :
    enterChild c s = setCursor c s := by
  simp only [enterChild, h]

section

variable {s : State} {b : Bool}

theorem dstep_of_invalid (h : nodeKind s s.dec.cursor = .invalid) :
    dstep b s = raiseD .corruptStream (incDecBitCnt s) := by
  have h' : nodeKind (incDecBitCnt s) (incDecBitCnt s).dec.cursor = .invalid := h
  simp only [dstep, h']

theorem dstep_of_leaf (h : nodeKind s s.dec.cursor = .leaf) :
    dstep b s = if b then raiseD .corruptStream (incDecBitCnt s) else leafhit (nodeSym s s.dec.cursor) (incDecBitCnt s) := by
  have h' : nodeKind (incDecBitCnt s) (incDecBitCnt s).dec.cursor = .leaf := h
  simp only [dstep, h']
  rfl

theorem dstep_of_internal (h : nodeKind s s.dec.cursor = .internal) :
    dstep b s = enterChild (childOf s s.dec.cursor b) (incDecBitCnt s) := by
  have h' : nodeKind (incDecBitCnt s) (incDecBitCnt s).dec.cursor = .internal := h
  simp only [dstep, h']
  rfl

end

/-! ### dec.bits -/

/-- A dec.bits of one bit is one transition on DATA[15]. -/
theorem effect_decBits_one {s : State} (hr : s.dec.state = .run) (d : BitVec 16) :
    effect (.decBits 1 d) s = dstep (d.getLsbD 15) s := by
  have hbits : streamBits 1 d = [d.getLsbD 15] := rfl
  rw [effect_decBits_gate, decGate_of_run hr, hbits, walk]
  split <;> rfl

theorem streamBits_congr {n : Nat} {d d' : BitVec 16} (h : ∀ i, i < n → d.getMsbD i = d'.getMsbD i) :
    streamBits n d = streamBits n d' :=
  List.map_congr_left fun i hi => h i (List.mem_range.1 hi)

/-- The bits of one command may come in two (R170): an error in the first closes the gate for the second. -/
theorem effect_decBits_add (n m : Nat) (d : BitVec 16) (s : State) :
    effect (.decBits (n + m) d) s = effect (.decBits m (d <<< n)) (effect (.decBits n d) s) := by
  simp only [effect_decBits_gate, streamBits_add]
  rcases decGate_cases s (walk (streamBits n d)) with ⟨hs, e⟩ | ⟨hs, e⟩ | ⟨hs, e⟩ <;> rw [e]
  · rw [decGate_of_err hs, decGate_of_err hs]
  · rw [decGate_of_closed hs, decGate_of_err rfl]
  · rw [decGate_of_run hs, walk_append _ _ s (by simp [hs])]
    rcases walk_run_or_err (streamBits n d) s hs with hw | hw
    · rw [if_neg (by simp [hw]), decGate_of_run hw]
    · rw [if_pos hw, decGate_of_err hw]

/-! ### How much a walk counts and emits (R173) -/

/-- From `s` to `t` at most `n` bits were counted, and no more symbols were appended and counted than bits. -/
def MakesAtMost (n : Nat) (s t : State) : Prop :=
  ∃ k out, k ≤ n ∧ t.dec.bitCnt = s.dec.bitCnt + BitVec.ofNat 32 k ∧ t.dout = s.dout ++ out ∧ out.length ≤ k ∧
    t.dec.symCnt = s.dec.symCnt + BitVec.ofNat 32 out.length

theorem MakesAtMost.of_silent {s t : State} (n : Nat) (hb : t.dec.bitCnt = s.dec.bitCnt) (ho : t.dout = s.dout)
    (hs : t.dec.symCnt = s.dec.symCnt) : MakesAtMost n s t :=
  ⟨0, [], Nat.zero_le n, by simp [hb], by simp [ho], le_rfl, by simp [hs]⟩

theorem MakesAtMost.mono {n m : Nat} {s t : State} (h : MakesAtMost n s t) (hnm : n ≤ m) : MakesAtMost m s t := by
  obtain ⟨k, out, hk, hrest⟩ := h
  exact ⟨k, out, hk.trans hnm, hrest⟩

theorem MakesAtMost.trans {n m : Nat} {s t u : State} (h : MakesAtMost n s t) (h' : MakesAtMost m t u) :
    MakesAtMost (n + m) s u := by
  obtain ⟨k, out, hk, hb, ho, hl, hs⟩ := h
  obtain ⟨k', out', hk', hb', ho', hl', hs'⟩ := h'
  refine ⟨k + k', out ++ out', Nat.add_le_add hk hk', ?_, ?_, ?_, ?_⟩
  · rw [hb', hb, BitVec.ofNat_add, BitVec.add_assoc]
  · rw [ho', ho, List.append_assoc]
  · rw [List.length_append]; exact Nat.add_le_add hl hl'
  · rw [hs', hs, List.length_append, BitVec.ofNat_add, BitVec.add_assoc]

theorem dstep_makesAtMost (b : Bool) (s : State) : MakesAtMost 1 s (dstep b s) := by
  rcases dstep_cases b s with h | ⟨x, h⟩ | ⟨c, h⟩ <;> rw [h]
  · exact ⟨1, [], le_rfl, rfl, rfl, Nat.zero_le 1, rfl⟩
  · exact ⟨1, [x], le_rfl, rfl, rfl, le_rfl, rfl⟩
  · exact ⟨1, [], le_rfl, rfl, rfl, Nat.zero_le 1, rfl⟩

theorem walk_makesAtMost (bs : Bits) : ∀ s : State, MakesAtMost bs.length s (walk bs s) := by
  induction bs with
  | nil => exact fun s => .of_silent 0 rfl rfl rfl
  | cons b bs ih =>
    intro s
    have hb := dstep_makesAtMost b s
    rw [walk, List.length_cons, Nat.add_comm]
    split
    · exact hb.mono (Nat.le_add_right 1 _)
    · exact hb.trans (ih _)

theorem effect_decBits_makesAtMost (n : Nat) (d : BitVec 16) (s : State) :
    MakesAtMost n s (effect (.decBits n d) s) := by
  rw [effect_decBits_gate]
  rcases decGate_cases s (walk (streamBits n d)) with ⟨-, e⟩ | ⟨-, e⟩ | ⟨-, e⟩ <;> rw [e]
  · exact .of_silent n rfl rfl rfl
  · exact .of_silent n rfl rfl rfl
  · have hw := walk_makesAtMost (streamBits n d) s
    rwa [streamBits_length] at hw

/-! ### What a decoder command reads (R160) -/

/-- The decoders are equal, and so are the node fields they read, drawn ones included. -/
structure SameDecoder (s s' : State) : Prop where
  dec : s.dec = s'.dec
  left : ∀ k, nodeLeft s k = nodeLeft s' k
  right : ∀ k, nodeRight s k = nodeRight s' k
  sym : ∀ k, nodeSym s k = nodeSym s' k

/-- From `s` to `t` and from `s'` to `t'` the same symbols were appended to DOUT, and the decoders of `t` and `t'` are equal. -/
structure SameDecoding (s s' t t' : State) : Prop where
  dec : t.dec = t'.dec
  out : ∃ o, t.dout = s.dout ++ o ∧ t'.dout = s'.dout ++ o

theorem SameDecoding.of_silent {s s' t t' : State} (hd : t.dec = t'.dec) (h : t.dout = s.dout) (h' : t'.dout = s'.dout) :
    SameDecoding s s' t t' :=
  ⟨hd, [], by rw [h, List.append_nil], by rw [h', List.append_nil]⟩

theorem SameDecoding.trans {s s' t t' u u' : State} (h : SameDecoding s s' t t') (k : SameDecoding t t' u u') :
    SameDecoding s s' u u' := by
  obtain ⟨o, ho, ho'⟩ := h.out
  obtain ⟨p, hp, hp'⟩ := k.out
  exact ⟨k.dec, o ++ p, by rw [hp, ho, List.append_assoc], by rw [hp', ho', List.append_assoc]⟩

section

variable {s s' : State}

theorem nodeKind_eq_of_dec (h : s.dec = s'.dec) (i : NodeIdx) : nodeKind s i = nodeKind s' i := by
  rw [nodeKind, nodeKind, h]

theorem raiseD_sameDecoding (h : s.dec = s'.dec) (c : ErrCode) : SameDecoding s s' (raiseD c s) (raiseD c s') :=
  .of_silent (by simp only [raiseD, h]) rfl rfl

theorem leafhit_sameDecoding (h : s.dec = s'.dec) (x : Symbol) : SameDecoding s s' (leafhit x s) (leafhit x s') :=
  ⟨by simp [leafhit, setCursor, incDecSymCnt, h], [x], rfl, rfl⟩

theorem setCursor_sameDecoding (h : s.dec = s'.dec) (i : NodeIdx) : SameDecoding s s' (setCursor i s) (setCursor i s') :=
  .of_silent (by simp only [setCursor, h]) rfl rfl

theorem decGate_sameDecoding (h : s.dec = s'.dec) {f : State → State} (hf : SameDecoding s s' (f s) (f s')) :
    SameDecoding s s' (decGate s f) (decGate s' f) := by
  rcases decGate_cases s f with ⟨hs, e⟩ | ⟨hs, e⟩ | ⟨hs, e⟩ <;> rw [e] <;> rw [h] at hs
  · rw [decGate_of_err hs]; exact .of_silent h rfl rfl
  · rw [decGate_of_closed hs]; exact raiseD_sameDecoding h _
  · rw [decGate_of_run hs]; exact hf

theorem decStart_sameDecoding (h : s.dec = s'.dec) : SameDecoding s s' (effect .decStart s) (effect .decStart s') := by
  have ho : (openDecSession s).dec = (openDecSession s').dec := by simp only [openDecSession, h]
  rw [effect_decStart, effect_decStart, nodeKind_eq_of_dec ho, ho]
  split
  · exact .of_silent (raiseD_sameDecoding ho _).dec rfl rfl
  · exact .of_silent (by simp only [setDecState, ho]) rfl rfl

theorem checkTerminal_sameDecoding (h : s.dec = s'.dec) : SameDecoding s s' (checkTerminal s) (checkTerminal s') := by
  rw [checkTerminal, checkTerminal, h]
  split
  · exact .of_silent (by simp only [setDecState, h]) rfl rfl
  · exact raiseD_sameDecoding h _

/-- Equal node fields stay equal while nothing writes the tables. -/
theorem SameDecoder.of_sameTables {t t' : State} (h : SameDecoder s s') (ht : SameTables s t) (ht' : SameTables s' t')
    (hd : t.dec = t'.dec) : SameDecoder t t' where
  dec := hd
  left k := by rw [nodeLeft_congr ht.left ht.epoch, nodeLeft_congr ht'.left ht'.epoch, h.left]
  right k := by rw [nodeRight_congr ht.right ht.epoch, nodeRight_congr ht'.right ht'.epoch, h.right]
  sym k := by rw [nodeSym_congr ht.sym ht.epoch, nodeSym_congr ht'.sym ht'.epoch, h.sym]

theorem incDecBitCnt_sameDecoder (h : SameDecoder s s') : SameDecoder (incDecBitCnt s) (incDecBitCnt s') :=
  h.of_sameTables ⟨rfl, rfl, rfl, rfl, rfl, rfl⟩ ⟨rfl, rfl, rfl, rfl, rfl, rfl⟩ (by simp only [incDecBitCnt, h.dec])

theorem childOf_eq_of_sameDecoder (h : SameDecoder s s') (i : NodeIdx) (b : Bool) :
    childOf s i b = childOf s' i b := by
  simp only [childOf, h.left, h.right]

theorem enterChild_sameDecoding (h : SameDecoder s s') (c : NodeIdx) :
    SameDecoding s s' (enterChild c s) (enterChild c s') := by
  have hk := nodeKind_eq_of_dec h.dec c
  cases hc : nodeKind s c <;> rw [hc] at hk
  case invalid =>
    rw [enterChild_of_invalid hc, enterChild_of_invalid hk.symm]
    exact raiseD_sameDecoding h.dec _
  case internal =>
    rw [enterChild_of_internal hc, enterChild_of_internal hk.symm]
    exact setCursor_sameDecoding h.dec c
  case leaf =>
    rw [enterChild_of_leaf hc, enterChild_of_leaf hk.symm, h.sym]
    exact leafhit_sameDecoding h.dec _

theorem dstep_sameDecoding (h : SameDecoder s s') (b : Bool) : SameDecoding s s' (dstep b s) (dstep b s') := by
  have hi := incDecBitCnt_sameDecoder h
  have hinc : SameDecoding s s' (incDecBitCnt s) (incDecBitCnt s') := .of_silent hi.dec rfl rfl
  have hk := nodeKind_eq_of_dec h.dec s.dec.cursor
  cases hc : nodeKind s s.dec.cursor <;> rw [hc, h.dec] at hk
  case invalid =>
    rw [dstep_of_invalid hc, dstep_of_invalid hk.symm]
    exact hinc.trans (raiseD_sameDecoding hi.dec _)
  case internal =>
    rw [dstep_of_internal hc, dstep_of_internal hk.symm, childOf_eq_of_sameDecoder h, h.dec]
    exact hinc.trans (enterChild_sameDecoding hi _)
  case leaf =>
    rw [dstep_of_leaf hc, dstep_of_leaf hk.symm, h.sym, h.dec]
    split
    · exact hinc.trans (raiseD_sameDecoding hi.dec _)
    · exact hinc.trans (leafhit_sameDecoding hi.dec _)

end

theorem walk_sameDecoding (bs : Bits) : ∀ {s s' : State}, SameDecoder s s' →
    SameDecoding s s' (walk bs s) (walk bs s') := by
  induction bs with
  | nil => exact fun h => .of_silent h.dec rfl rfl
  | cons b bs ih =>
    intro s s' h
    have hb := dstep_sameDecoding h b
    rw [walk, walk, hb.dec]
    split
    · exact hb
    · exact hb.trans (ih (h.of_sameTables (dstep_sameTables b s) (dstep_sameTables b s') hb.dec))

/-- Every decoder command does the same to equal decoders whose node fields are equal. -/
theorem effect_sameDecoding {s s' : State} (h : SameDecoder s s') {i : Instr} (hi : isDecoderCommand i = true) :
    SameDecoding s s' (effect i s) (effect i s') := by
  cases i
  case decClr =>
    exact .of_silent (t := clearNodeKinds s) (t' := clearNodeKinds s') (by simp only [clearNodeKinds, h.dec]) rfl rfl
  case decLdint k l r =>
    exact .of_silent (t := setNodeChildren k l r (setNodeKind k .internal s))
      (t' := setNodeChildren k l r (setNodeKind k .internal s')) (by simp only [setNodeChildren, setNodeKind, h.dec]) rfl rfl
  case decLdleaf k x =>
    exact .of_silent (t := setNodeSym k x (setNodeKind k .leaf s)) (t' := setNodeSym k x (setNodeKind k .leaf s'))
      (by simp only [setNodeSym, setNodeKind, h.dec]) rfl rfl
  case decSetroot k =>
    exact .of_silent (t := setCursor k (setRoot k s)) (t' := setCursor k (setRoot k s'))
      (by simp only [setCursor, setRoot, h.dec]) rfl rfl
  case decStart => exact decStart_sameDecoding h.dec
  case decBits n d =>
    rw [effect_decBits_gate, effect_decBits_gate]
    exact decGate_sameDecoding h.dec (walk_sameDecoding _ h)
  case decEnd =>
    rw [effect_decEnd_gate, effect_decEnd_gate]
    exact decGate_sameDecoding h.dec (checkTerminal_sameDecoding h.dec)
  all_goals cases hi

/-- Equal children stay equal: dec.ldint writes the same two in both, and no other decoder command writes any. -/
theorem effect_children_eq {s s' : State} (h : SameDecoder s s') {i : Instr} (hi : isDecoderCommand i = true) (k : NodeIdx) :
    nodeLeft (effect i s) k = nodeLeft (effect i s') k ∧ nodeRight (effect i s) k = nodeRight (effect i s') k := by
  by_cases hw : ∃ j l r, i = .decLdint j l r
  · obtain ⟨j, l, r, rfl⟩ := hw
    have hleft := fun u => nodeLeft_setNodeChildren j l r k (setNodeKind j .internal u)
    have hright := fun u => nodeRight_setNodeChildren j l r k (setNodeKind j .internal u)
    exact ⟨(hleft s).trans ((congrArg _ (h.left k)).trans (hleft s').symm),
      (hright s).trans ((congrArg _ (h.right k)).trans (hright s').symm)⟩
  · push Not at hw
    have hr : i ≠ .ctlSrst := by rintro rfl; cases hi
    have keep := fun u => effect_children hr hw u
    have epoch := fun u => effect_epoch hr u
    exact ⟨by rw [nodeLeft_congr (keep s).1 (epoch s), nodeLeft_congr (keep s').1 (epoch s'), h.left],
      by rw [nodeRight_congr (keep s).2 (epoch s), nodeRight_congr (keep s').2 (epoch s'), h.right]⟩

/-- Equal symbols stay equal: dec.ldleaf writes the same one in both, and no other decoder command writes any. -/
theorem effect_nodeSym_eq {s s' : State} (h : SameDecoder s s') {i : Instr} (hi : isDecoderCommand i = true) (k : NodeIdx) :
    nodeSym (effect i s) k = nodeSym (effect i s') k := by
  by_cases hw : ∃ j x, i = .decLdleaf j x
  · obtain ⟨j, x, rfl⟩ := hw
    have hsym := fun u => nodeSym_setNodeSym j k x (setNodeKind j .leaf u)
    exact (hsym s).trans ((congrArg _ (h.sym k)).trans (hsym s').symm)
  · push Not at hw
    have hr : i ≠ .ctlSrst := by rintro rfl; cases hi
    have keep := fun u => nodeSym_congr (effect_sym hr hw u) (effect_epoch hr u) k
    rw [keep, keep, h.sym]

/-! ### Sessions (R175, R177) -/

/-- A node that holds a tree is not INVALID. -/
theorem HoldsTree.kind_ne_invalid {s : State} {T : Tree} {i : NodeIdx} (h : HoldsTree s T i) : nodeKind s i ≠ .invalid := by
  cases T with
  | leaf x => rw [h.1]; decide
  | node l r => rw [h.1]; decide

/-- No proper part of a tree stands where the tree does. -/
theorem HoldsTree.ne_of_size_lt {s : State} {T U : Tree} {i j : NodeIdx} (hT : HoldsTree s T i) (hU : HoldsTree s U j)
    (h : U.size < T.size) : j ≠ i := by
  rintro rfl
  rw [hT.unique hU] at h
  exact lt_irrefl _ h

/-- The commands that open a session and feed it, each of 1 to 16 bits, can be encoded (R93). -/
theorem wf_of_mem_feed {chunks : List (Nat × BitVec 16)} (h : ∀ c ∈ chunks, 1 ≤ c.1 ∧ c.1 ≤ 16) :
    ∀ i ∈ Instr.decStart :: chunks.map (fun c => Instr.decBits c.1 c.2), i.wf = true := by
  intro i hi
  simp only [List.mem_cons, List.mem_map] at hi
  rcases hi with rfl | ⟨c, hc, rfl⟩
  · rfl
  · exact (wf_decBits _ _).2 (h c hc)

/-- A run of well-formed commands is the fold of their effects; it clears the host's side. -/
theorem runCommands_of_wf {cmds : List Instr} (h : ∀ i ∈ cmds, i.wf = true) (hne : cmds ≠ []) (s : State) :
    runCommands cmds s = .next (withHost [] .none (cmds.foldl (fun t i => effect i t) s)) := by
  rw [runCommands_eq cmds (fun i hi => decodeOfEncodeIsTheCommand i (h i hi)) s, if_neg hne]

theorem runCommands_singleton {i : Instr} (h : i.wf = true) (s : State) :
    runCommands [i] s = .next (withHost [] .none (effect i s)) :=
  runCommands_of_wf (List.forall_mem_singleton.2 h) (List.cons_ne_nil _ _) s

/-- Opening a session writes neither the node table nor the root. -/
theorem sameTables_openDecSession (s : State) : SameTables s (setDecState .run (openDecSession s)) :=
  ⟨rfl, rfl, rfl, rfl, rfl, rfl⟩

/-- Opening a session and feeding it is one walk from the root, if the walk raises nothing. -/
theorem fold_feed {s : State} (hroot : nodeKind s s.dec.root ≠ .invalid) (chunks : List (Nat × BitVec 16))
    (hw : (walk (presentedBits chunks) (setDecState .run (openDecSession s))).dec.state = .run) :
    (Instr.decStart :: chunks.map fun c => Instr.decBits c.1 c.2).foldl (fun t i => effect i t) s =
      walk (presentedBits chunks) (setDecState .run (openDecSession s)) := by
  rw [List.foldl_cons, effect_decStart_of_valid hroot, fold_decBits chunks _ rfl hw]

/-- After complete codes and a nonempty proper part of one more the cursor is off the root, the codes decoded (R177). -/
theorem walk_truncated {s : State} {T : Tree} {L : List (Symbol × Bits)} {x : Symbol} {p q : Bits}
    (hT : HoldsTree s T s.dec.root) (hc : s.dec.cursor = s.dec.root) (hs : s.dec.state = .run)
    (hL : ∀ c ∈ L, c ∈ codeBook T) (hx : (x, p ++ q) ∈ codeBook T) (hp : p ≠ []) (hq : q ≠ []) :
    ∃ c, c ≠ s.dec.root ∧
      walk (L.flatMap Prod.snd ++ p) s = advance s (L.flatMap Prod.snd ++ p).length (L.map Prod.fst) c := by
  cases T with
  | leaf y =>
    obtain ⟨-, hone⟩ : x = y ∧ p ++ q = [false] := by simpa [codeBook] using hx
    rcases List.append_eq_singleton_iff.1 hone with ⟨h, -⟩ | ⟨-, h⟩
    · exact absurd h hp
    · exact absurd h hq
  | node l r =>
    obtain ⟨hst, -, hcur, htab⟩ := advance_fields s (L.flatMap Prod.snd).length (L.map Prod.fst) s.dec.root
    obtain ⟨c, U, hw, hU, hlt⟩ := walk_partial _ (advance s (L.flatMap Prod.snd).length (L.map Prod.fst) s.dec.root) x p q
      (hcur ▸ hT.congr htab) (hst.trans hs) hx hp hq
    refine ⟨c, (hT.congr htab).ne_of_size_lt hU hlt, ?_⟩
    rw [walk_append _ _ s (by simp [hs]), walk_codes L hL s hT hc hs, if_neg (by rw [hst, hs]; decide), hw,
      advance_advance, List.append_nil, List.length_append]

/-! ### The obligations on the decoder commands -/

/-- Settles O26: the kinds are cleared, the other node fields stay. -/
theorem decClrInvalidatesEveryNode : Obligations.DecClrInvalidatesEveryNode :=
  ⟨encodedAs_decClr, fun s => ⟨clearNodeKinds s, rfl, fun i => nodeKind_clearNodeKinds i s, rfl⟩⟩

/-- Settles O27: one kind and two children are written, the symbol RAM and the epoch of its draws stay. -/
theorem ldintWritesOneInternalNode : Obligations.LdintWritesOneInternalNode :=
  ⟨encodedAs_decLdint, fun s idx left right => ⟨setNodeChildren idx left right (setNodeKind idx .internal s), rfl,
    fun i => nodeKind_setNodeKind idx i .internal s, fun i => nodeLeft_setNodeChildren idx left right i _,
    fun i => nodeRight_setNodeChildren idx left right i _, fun i => nodeSym_congr rfl rfl i, rfl⟩⟩

/-- Settles O28: one kind and one symbol are written, the RAMs of the children and the epoch of their draws stay. -/
theorem ldleafWritesOneLeaf : Obligations.LdleafWritesOneLeaf :=
  ⟨encodedAs_decLdleaf, fun s idx sym => ⟨setNodeSym idx sym (setNodeKind idx .leaf s), rfl,
    fun i => nodeKind_setNodeKind idx i .leaf s, fun i => nodeSym_setNodeSym idx i sym _,
    fun i => nodeLeft_congr rfl rfl i, fun i => nodeRight_congr rfl rfl i, rfl⟩⟩

/-- Settles O29: the meaning of dec.setroot is the two writes. -/
theorem setrootMovesRootAndCursor : Obligations.SetrootMovesRootAndCursor :=
  ⟨encodedAs_decSetroot, fun _ _ => rfl⟩

/-- Settles O30, by the kind of the root node. -/
theorem decStartOpensOrRaisesEmptyAlphabet : Obligations.DecStartOpensOrRaisesEmptyAlphabet := by
  refine ⟨encodedAs_decStart, fun s => ⟨fun h => ?_, fun h => ?_⟩⟩
  · rw [exec_eq_effect, effect_decStart_of_valid h]; rfl
  · rw [exec_eq_effect, effect_decStart_of_invalid h]; rfl

/-- Settles O31, by the kind of the node under the cursor, and under an INTERNAL node by that of the selected child. -/
theorem oneBitMakesOneTransition : Obligations.OneBitMakesOneTransition := by
  intro s data hr n cursor child corrupt hit
  rw [exec_eq_effect, effect_decBits_one hr]
  have hdown (h : nodeKind s cursor = .internal) :
      dstep (data.getLsbD 15) s = enterChild child (incDecBitCnt s) := dstep_of_internal h
  refine ⟨fun h => ?_, fun h hb => ?_, fun h hb => ?_, fun h hc => ?_, fun h hc => ?_, fun h hc => ?_⟩
  · rw [dstep_of_invalid h]; rfl
  · rw [dstep_of_leaf h, hb]; rfl
  · rw [dstep_of_leaf h, hb]; rfl
  · rw [hdown h, enterChild_of_invalid (s := incDecBitCnt s) hc]; rfl
  · rw [hdown h, enterChild_of_leaf (s := incDecBitCnt s) hc]; rfl
  · rw [hdown h, enterChild_of_internal (s := incDecBitCnt s) hc]; rfl

/-- Settles O32: two commands in a row by `effect_decBits_add`, the bits a command reads by `streamBits_congr`. -/
theorem decBitsConsumesItsBitsInOrder : Obligations.DecBitsConsumesItsBitsInOrder := by
  refine ⟨encodedAs_decBits, fun s n m data _ _ _ => ?_, fun s n data data' _ _ hbits => ?_,
    fun s n data _ _ => ⟨fun hs => ?_, fun hs => ?_⟩⟩
  · exact ⟨_, _, exec_eq_effect _ s, exec_eq_effect _ _, by rw [exec_eq_effect, effect_decBits_add]⟩
  · rw [exec_eq_effect, exec_eq_effect, effect_decBits_gate, effect_decBits_gate, streamBits_congr hbits]
  · rw [exec_eq_effect, effect_decBits_gate, decGate_of_closed hs]; rfl
  · rw [exec_eq_effect, effect_decBits_gate, decGate_of_err hs]

/-- Settles O33: each transition counts one bit and emits at most one symbol, and a walk makes at most one a bit. -/
theorem decBitsMakesAtMostNTransitions : Obligations.DecBitsMakesAtMostNTransitions := by
  intro s n data
  obtain ⟨k, out, hcounts⟩ := effect_decBits_makesAtMost n data s
  exact ⟨_, k, out, exec_eq_effect _ s, hcounts⟩

/-- Settles O34, by the engine's state and the place of the cursor. -/
theorem decEndChecksTheTerminalCondition : Obligations.DecEndChecksTheTerminalCondition := by
  refine ⟨encodedAs_decEnd, fun s => ⟨fun hr hc => ?_, fun hr hc => ?_, fun hs => ?_, fun hs => ?_⟩⟩
  · rw [exec_eq_effect, effect_decEnd_at_root hr hc]; rfl
  · rw [exec_eq_effect, effect_decEnd_off_root hr hc]; rfl
  · rw [exec_eq_effect, effect_decEnd_gate, decGate_of_closed hs]; rfl
  · rw [exec_eq_effect, effect_decEnd_gate, decGate_of_err hs]

/-- Settles O39: equal decoders and the same symbols by `effect_sameDecoding`, equal node fields command by command. -/
theorem decoderReadsOnlyItsOwnState : Obligations.DecoderReadsOnlyItsOwnState := by
  intro i s s' hi hd hn
  have h : SameDecoder s s' := ⟨hd, fun k => (hn k).1, fun k => (hn k).2.1, fun k => (hn k).2.2⟩
  obtain ⟨hdec, out, ho, ho'⟩ := effect_sameDecoding h hi
  refine ⟨_, _, out, exec_eq_effect i s, exec_eq_effect i s', hdec, fun k => ?_, ho, ho'⟩
  obtain ⟨hl, hr⟩ := effect_children_eq h hi k
  exact ⟨hl, hr, effect_nodeSym_eq h hi k⟩

/-- Settles O35: the session is one walk (`fold_feed`), which decodes each code and ends at the root (`walk_codes`), where
dec.end finds it. -/
theorem decodeLaw : Obligations.DecodeLaw := by
  intro s T L chunks hT hL hsizes hbits
  have hwf : ∀ i ∈ Instr.decStart :: (chunks.map (fun c => .decBits c.1 c.2) ++ [.decEnd]), i.wf = true := by
    rw [← List.cons_append, List.forall_mem_append]
    exact ⟨wf_of_mem_feed hsizes, List.forall_mem_singleton.2 rfl⟩
  have hwalk := walk_codes L hL (setDecState .run (openDecSession s)) (hT.congr (sameTables_openDecSession s)) rfl rfl
  rw [← hbits] at hwalk ⊢
  have hfold := fold_feed hT.kind_ne_invalid chunks (by rw [hwalk]; rfl)
  refine ⟨_, runCommands_of_wf hwf (List.cons_ne_nil _ _) s, ?_⟩
  rw [← List.cons_append, List.foldl_append, hfold, hwalk, List.foldl_cons, List.foldl_nil, effect_decEnd_at_root rfl rfl]
  refine ⟨rfl, ?symbols, ?bits, rfl, rfl⟩
  case symbols => exact (BitVec.zero_add _).trans (by rw [List.length_map])
  case bits => exact BitVec.zero_add _

/-- Settles O36: the session is one walk (`fold_feed`), which decodes the complete codes and ends off the root
(`walk_truncated`), where dec.end raises CorruptStream. -/
theorem truncatedStreamIsCorrupt : Obligations.TruncatedStreamIsCorrupt := by
  intro s T L x p q chunks hT hL hx hp hq hsizes hbits
  obtain ⟨c, hoff, hwalk⟩ := walk_truncated (hT.congr (sameTables_openDecSession s)) rfl rfl hL hx hp hq
  rw [← hbits] at hwalk
  have hfold := fold_feed hT.kind_ne_invalid chunks (by rw [hwalk]; rfl)
  have hfeed := runCommands_of_wf (wf_of_mem_feed hsizes) (List.cons_ne_nil _ _) s
  rw [hfold, hwalk] at hfeed
  refine ⟨_, _, hfeed, rfl, rfl, rfl, runCommands_singleton rfl _, ?_⟩
  rw [effect_decEnd_off_root rfl hoff]
  exact ⟨rfl, rfl, rfl⟩

end Sys2Proof.Machine
end

section
/-! SUPPORT. Trees and their CodeBooks (R203 to R206, R208): how many nodes and leaves there are, how long a path is, and which
symbols have a code. -/

open Sys2Proof

namespace Sys2Proof.Machine

/-! ### Leaves, nodes and paths -/

theorem Tree.leaves_length_pos : ∀ T : Tree, 0 < T.leaves.length
  | .leaf _ => Nat.one_pos
  | .node l r => by
    rw [Tree.leaves, List.length_append]
    exact Nat.add_pos_left l.leaves_length_pos _

theorem Tree.positions_length_add_one (T : Tree) : T.positions.length + 1 = 2 * T.leaves.length := by
  induction T with
  | leaf x => rfl
  | node l r ihl ihr =>
    simp only [Tree.positions, Tree.leaves, List.length_cons, List.length_append, List.length_map]
    omega

theorem Tree.size_eq_positions_length (T : Tree) : T.size = T.positions.length := by
  induction T with
  | leaf x => rfl
  | node l r ihl ihr =>
    simp only [Tree.size, Tree.positions, List.length_cons, List.length_append, List.length_map, ihl, ihr]
    omega

theorem Tree.child_leaves_length_lt (l r : Tree) (b : Bool) :
    (Tree.child l r b).leaves.length < (Tree.node l r).leaves.length := by
  have hl := l.leaves_length_pos
  have hr := r.leaves_length_pos
  rw [Tree.leaves, List.length_append]
  cases b
  · exact Nat.lt_add_of_pos_right hr
  · exact Nat.lt_add_of_pos_left hl

/-- Induction on a tree where the subtrees of a node are those that a bit selects. -/
theorem Tree.child_induction {P : Tree → Prop} (leaf : ∀ x, P (.leaf x))
    (node : ∀ l r, (∀ b, P (Tree.child l r b)) → P (.node l r)) : ∀ T, P T
  | .leaf x => leaf x
  | .node l r => node l r fun
    | false => Tree.child_induction leaf node l
    | true => Tree.child_induction leaf node r

/-- Each step down a path leaves at least one leaf aside. -/
theorem Tree.path_length_lt (T : Tree) : ∀ x p, (x, p) ∈ T.paths → p.length < T.leaves.length := by
  induction T using Tree.child_induction with
  | leaf y =>
    intro x p h
    rw [(Prod.mk.inj (List.mem_singleton.1 h)).2]
    exact Nat.one_pos
  | node l r ih =>
    intro x p h
    obtain ⟨b, q, rfl, hq⟩ := Tree.mem_paths_node h
    exact lt_of_le_of_lt (ih b x q hq) (Tree.child_leaves_length_lt l r b)

/-- No path to a leaf goes on to another leaf. -/
theorem Tree.paths_prefix_free (T : Tree) : ∀ x p y q, (x, p) ∈ T.paths → (y, q) ∈ T.paths → p <+: q →
    (x, p) = (y, q) := by
  induction T using Tree.child_induction with
  | leaf z =>
    intro x p y q hx hy _
    rw [List.mem_singleton.1 hx, List.mem_singleton.1 hy]
  | node l r ih =>
    intro x p y q hx hy hpq
    obtain ⟨b, p, rfl, hp⟩ := Tree.mem_paths_node hx
    obtain ⟨c, q, rfl, hq⟩ := Tree.mem_paths_node hy
    obtain ⟨rfl, htail⟩ := List.cons_prefix_cons.1 hpq
    obtain ⟨rfl, rfl⟩ := Prod.mk.inj (ih b x p y q hp hq htail)
    rfl

theorem Tree.map_fst_paths (T : Tree) : T.paths.map Prod.fst = T.leaves := by
  induction T with
  | leaf x => rfl
  | node l r ihl ihr => simp [Tree.paths, Tree.leaves, ← ihl, ← ihr, Function.comp_def]

/-! ### The CodeBook of a tree -/

/-- The CodeBook lists the leaves from the left on. -/
theorem map_fst_codeBook : ∀ T : Tree, (codeBook T).map Prod.fst = T.leaves
  | .leaf _ => rfl
  | .node l r => (Tree.node l r).map_fst_paths

/-- There are only NSYM symbols. -/
theorem symbols_length_le {l : List Symbol} (h : l.Nodup) : l.length ≤ 256 :=
  h.length_le_card.trans_eq (FinEnum.card_eq_fintypeCard.symm.trans (FinEnum.card_bitVec 8))

theorem exists_code_of_mem_leaves {T : Tree} {x : Symbol} (h : x ∈ T.leaves) : ∃ c, (x, c) ∈ codeBook T := by
  rw [← map_fst_codeBook] at h
  obtain ⟨⟨y, c⟩, hc, rfl⟩ := List.mem_map.1 h
  exact ⟨c, hc⟩

/-- A code is as long as its path, which is shorter than the tree has leaves, or it is the "0" of a single leaf (R205). -/
theorem code_length_bounds {T : Tree} {p : Symbol × Bits} (hp : p ∈ codeBook T) : 1 ≤ p.2.length ∧
    (2 ≤ T.leaves.length → p.2.length ≤ T.leaves.length - 1) ∧ (T.leaves.length = 1 → p.2 = [false]) := by
  cases T with
  | leaf x =>
    rw [List.mem_singleton.1 hp]
    exact ⟨le_rfl, fun h => absurd h (by decide : ¬ 2 ≤ 1), fun _ => rfl⟩
  | node l r =>
    obtain ⟨b, q, hq, -⟩ := Tree.mem_paths_node hp
    have hlt := Tree.path_length_lt _ _ _ hp
    have hpos : 1 ≤ p.2.length := by rw [hq]; exact Nat.succ_pos _
    exact ⟨hpos, fun _ => Nat.le_sub_one_of_lt hlt, fun h => by omega⟩

/-- The codes of a tree with at most NSYM leaves fit the codebook's entries (R206). -/
theorem code_length_le_maxLen {T : Tree} (h256 : T.leaves.length ≤ 256) {p : Symbol × Bits} (hp : p ∈ codeBook T) :
    p.2.length ≤ 255 := by
  obtain ⟨-, hmany, hone⟩ := code_length_bounds hp
  by_cases h : 2 ≤ T.leaves.length
  · exact (hmany h).trans (by omega)
  · have hpos := T.leaves_length_pos
    rw [hone (by omega)]
    decide

/-! ### The obligations on trees -/

/-- Settles O52: the nodes are counted in `Tree.positions_length_add_one`, the codes bounded in `code_length_bounds`. -/
theorem treesAndCodesFitTheTables : Obligations.TreesAndCodesFitTheTables := by
  intro T
  have hnodes := T.positions_length_add_one
  exact ⟨by omega, T.size_eq_positions_length, fun p hp => code_length_bounds hp,
    fun h256 => ⟨by omega, fun p hp => code_length_le_maxLen h256 hp⟩⟩

/-- Settles O55: no path goes on past a leaf; the CodeBook of a single leaf has one entry. -/
theorem codeBookIsPrefixFree : Obligations.CodeBookIsPrefixFree := by
  rintro T ⟨x, p⟩ hp ⟨y, q⟩ hq hpq
  cases T with
  | leaf z => rw [List.mem_singleton.1 hp, List.mem_singleton.1 hq]
  | node l r => exact Tree.paths_prefix_free _ x p y q hp hq hpq

end Sys2Proof.Machine
end

section
/-! SUPPORT. build (R202, R203): the least frequency of a queue, what extractMin takes off it, and the leaves that the merges
keep. -/

open Sys2Proof

namespace Sys2Proof.Machine

/-! ### The least frequency of a queue -/

theorem foldr_min_isLeast (a : Nat) (l : List Nat) : IsLeast {m | m ∈ a :: l} (l.foldr min a) := by
  induction l with
  | nil => simp [IsLeast, lowerBounds]
  | cons b l ih =>
    have hset : {m | m ∈ a :: b :: l} = insert b {m | m ∈ a :: l} := by
      ext m
      simp only [Set.mem_ofPred_eq, Set.mem_insert_iff, List.mem_cons]
      exact or_left_comm
    rw [hset]
    exact ih.insert b

theorem leastFreq_isLeast {q : Queue} (h : q ≠ []) : IsLeast {f | f ∈ q.map Prod.fst} (leastFreq q) := by
  obtain ⟨n, q, rfl⟩ := List.exists_cons_of_ne_nil h
  simpa [leastFreq] using foldr_min_isLeast n.1 ((n :: q).map Prod.fst)

theorem exists_mem_leastFreq {q : Queue} (h : q ≠ []) : ∃ n ∈ q, n.1 = leastFreq q :=
  List.mem_map.1 (leastFreq_isLeast h).1

theorem leastFreq_le {q : Queue} {n : Nat × Tree} (hn : n ∈ q) : leastFreq q ≤ n.1 :=
  (leastFreq_isLeast (List.ne_nil_of_mem hn)).2 (List.mem_map_of_mem hn)

/-- A node of a queue has the least frequency exactly when no node has a lower one. -/
theorem eq_leastFreq_iff {q : Queue} {n : Nat × Tree} (hn : n ∈ q) : n.1 = leastFreq q ↔ ∀ m ∈ q, n.1 ≤ m.1 := by
  constructor
  · intro h m hm
    exact h.trans_le (leastFreq_le hm)
  · intro h
    obtain ⟨m, hm, hmf⟩ := exists_mem_leastFreq (List.ne_nil_of_mem hn)
    exact le_antisymm ((h m hm).trans_eq hmf) (leastFreq_le hn)

/-- The places of the nodes that no node has a lower frequency than. -/
theorem mem_leastNodes {q : Queue} {i : Nat} : i ∈ leastNodes q ↔ ∃ n, q[i]? = some n ∧ ∀ m ∈ q, n.1 ≤ m.1 := by
  simp only [leastNodes, List.mem_filter, List.mem_range, Option.any_eq_true, decide_eq_true_eq]
  constructor
  · rintro ⟨-, n, hi, hn⟩
    exact ⟨n, hi, (eq_leastFreq_iff (List.mem_of_getElem? hi)).1 hn⟩
  · rintro ⟨n, hi, hn⟩
    exact ⟨(List.getElem?_eq_some_iff.1 hi).1, n, hi, (eq_leastFreq_iff (List.mem_of_getElem? hi)).2 hn⟩

theorem leastNodes_ne_nil {q : Queue} (h : q ≠ []) : leastNodes q ≠ [] := by
  obtain ⟨n, hn, hmin⟩ := exists_mem_leastFreq h
  obtain ⟨i, hi⟩ := List.mem_iff_getElem?.1 hn
  exact List.ne_nil_of_mem (mem_leastNodes.2 ⟨n, hi, (eq_leastFreq_iff hn).1 hmin⟩)

/-! ### extractMin -/

/-- extractMin takes the node at the place that TIEBREAK names. -/
theorem extractMin_of_place {tie : TieBreak} {q : Queue} {i : Nat} {n : Nat × Tree}
    (hi : (leastNodes q)[tie q % (leastNodes q).length]? = some i) (hn : q[i]? = some n) :
    extractMin tie q = some (n, q.eraseIdx i) := by
  simp [extractMin, List.getD_eq_getElem?_getD, hi, hn]

theorem extractMin_least (tie : TieBreak) {q : Queue} (h : q ≠ []) :
    ∃ n rest, extractMin tie q = some (n, rest) ∧ q.Perm (n :: rest) ∧ ∀ m ∈ q, n.1 ≤ m.1 := by
  have hpos : 0 < (leastNodes q).length := List.length_pos_iff.2 (leastNodes_ne_nil h)
  have hplace := List.getElem?_eq_getElem (Nat.mod_lt (tie q) hpos)
  obtain ⟨n, hn, hmin⟩ := mem_leastNodes.1 (List.mem_of_getElem? hplace)
  obtain ⟨hlt, rfl⟩ := List.getElem?_eq_some_iff.1 hn
  exact ⟨_, _, extractMin_of_place hplace hn, (List.getElem_cons_eraseIdx_perm hlt).symm, hmin⟩

theorem exists_tie_of_least {q : Queue} {n : Nat × Tree} (hn : n ∈ q) (hmin : ∀ m ∈ q, n.1 ≤ m.1) :
    ∃ tie rest, extractMin tie q = some (n, rest) := by
  obtain ⟨i, hi⟩ := List.mem_iff_getElem?.1 hn
  obtain ⟨k, hk⟩ := List.mem_iff_getElem?.1 (mem_leastNodes.2 ⟨n, hi, hmin⟩)
  have hlt : k < (leastNodes q).length := (List.getElem?_eq_some_iff.1 hk).1
  refine ⟨fun _ => k, _, extractMin_of_place (i := i) ?_ hi⟩
  rwa [Nat.mod_eq_of_lt hlt]

/-- Settles O53: TIEBREAK names one of the places of `leastNodes`, and can name any. -/
theorem extractMinPicksALeastNode : Obligations.ExtractMinPicksALeastNode :=
  fun _ h => ⟨fun tie => extractMin_least tie h, fun _ hn hmin => exists_tie_of_least hn hmin⟩

/-! ### The merges -/

/-- The leaves of all nodes of a queue. -/
def queueLeaves (q : Queue) : List Symbol := q.flatMap fun n => n.2.leaves

/-- A merge puts the two nodes extracted under a new one: one node less, the same leaves. -/
theorem mergeAll_merge (tie : TieBreak) (fuel : Nat) {q : Queue} (h : 2 ≤ q.length) :
    ∃ q', mergeAll tie (fuel + 1) q = mergeAll tie fuel q' ∧ q'.length + 1 = q.length ∧
      (queueLeaves q').Perm (queueLeaves q) := by
  obtain ⟨x, q1, hx, hq1, -⟩ := extractMin_least tie (List.ne_nil_of_length_pos (by omega : 0 < q.length))
  have hlen1 := hq1.length_eq
  rw [List.length_cons] at hlen1
  obtain ⟨y, q2, hy, hq2, -⟩ := extractMin_least tie (List.ne_nil_of_length_pos (by omega : 0 < q1.length))
  have hlen2 := hq2.length_eq
  rw [List.length_cons] at hlen2
  refine ⟨q2 ++ [(x.1 + y.1, .node x.2 y.2)], ?run, ?length, ?leaves⟩
  case run =>
    match q, h with
    | a :: b :: q, _ => simp only [mergeAll, hx, hy]
  case length => rw [List.length_append, List.length_singleton]; omega
  case leaves =>
    have hxy : q.Perm (x :: y :: q2) := hq1.trans (hq2.cons x)
    calc (queueLeaves (q2 ++ [(x.1 + y.1, .node x.2 y.2)]))
        = queueLeaves q2 ++ (x.2.leaves ++ y.2.leaves) := by simp [queueLeaves, Tree.leaves]
      _ |>.Perm (x.2.leaves ++ y.2.leaves ++ queueLeaves q2) := List.perm_append_comm
      _ = queueLeaves (x :: y :: q2) := by simp [queueLeaves]
      _ |>.Perm (queueLeaves q) := (hxy.flatMap_right _).symm

/-- Merging a queue that is not empty ends in one tree, which has the leaves of the queue. -/
theorem mergeAll_leaves (tie : TieBreak) : ∀ (fuel : Nat) (q : Queue), q ≠ [] → q.length ≤ fuel →
    ∃ T, mergeAll tie fuel q = .ok T ∧ T.leaves.Perm (queueLeaves q) := by
  intro fuel
  induction fuel with
  | zero => intro q hne hlen; exact absurd (List.length_eq_zero_iff.1 (Nat.le_zero.1 hlen)) hne
  | succ fuel ih =>
    intro q hne hlen
    match q, hne with
    | [n], _ => exact ⟨n.2, rfl, by simp [queueLeaves]⟩
    | a :: b :: q, _ =>
      obtain ⟨q', hrun, hlen', hleaves⟩ := mergeAll_merge tie fuel (q := a :: b :: q) (by simp)
      rw [List.length_cons] at hlen hlen'
      obtain ⟨T, hT, hperm⟩ := ih q' (List.ne_nil_of_length_pos (by simp at hlen'; omega)) (by omega)
      exact ⟨T, hrun.trans hT, hperm.trans hleaves⟩

theorem build_leaves (tie : TieBreak) {table : List (Symbol × Nat)} (h : table ≠ []) :
    ∃ T, build tie table = .ok T ∧ T.leaves.Perm (table.map Prod.fst) := by
  obtain ⟨T, hT, hleaves⟩ := mergeAll_leaves tie table.length (table.map fun p => (p.2, .leaf p.1))
    (by simpa using h) (by simp)
  refine ⟨T, hT, hleaves.trans (List.Perm.of_eq ?_)⟩
  rw [queueLeaves, List.flatMap_map, List.map_eq_flatMap]
  rfl

/-- Settles O54: the merges keep the leaves (`mergeAll_merge`), and the queue of a table has its symbols as leaves. -/
theorem buildHasOneLeafPerSymbol : Obligations.BuildHasOneLeafPerSymbol :=
  fun tie _ => ⟨fun h => by rw [h]; rfl, fun h => build_leaves tie h⟩

end Sys2Proof.Machine
end

section
/-! SUPPORT. Loading a tree and a CodeBook (R206), the commands in any order. -/

open Sys2Proof

namespace Sys2Proof.Machine

/-! ### Runs of loading commands -/

/-- A run of decoder commands leaves the encoder as it was (R160). -/
theorem runCommands_enc_of_decoder {cmds : List Instr} (hwf : ∀ i ∈ cmds, i.wf = true)
    (hdec : ∀ i ∈ cmds, isDecoderCommand i = true) {s t : State} (h : runCommands cmds s = .next t) : t.enc = s.enc := by
  rw [runCommands_eq cmds fun i hi => decodeOfEncodeIsTheCommand i (hwf i hi)] at h
  rw [← Host.Outcome.next.inj h]
  exact fold_enc_of_decoder cmds s hdec

/-- What a command loaded is read without the host's side. -/
theorem Loaded.withHost {s : State} {i : Instr} (h : Loaded s i) (p : List HostAction) (r : Reply) :
    Loaded (withHost p r s) i := by
  cases i <;> exact h

/-- Loading commands that write different places complete in any order, leave what each writes, and change the tables, the root
and the cursor alone. -/
theorem runCommands_loaded {cmds load : List Instr} (hl : load.Perm cmds) (hne : cmds ≠ [])
    (hp : ∀ i ∈ cmds, placeOf i ≠ none) (hn : (cmds.filterMap placeOf).Nodup) (s : State) :
    ∃ t, runCommands load s = .next t ∧ (∀ i ∈ cmds, Loaded t i) ∧ TablesOnly (withHost [] .none s) t := by
  obtain ⟨hloaded, htables⟩ := fold_loaded_perm hl s hp hn
  have hwf : ∀ i ∈ load, i.wf = true := fun i hi => wf_of_placeOf (hp i (hl.mem_iff.1 hi))
  have hload : load ≠ [] := fun h => hne (List.nil_perm.1 (h ▸ hl))
  exact ⟨_, runCommands_of_wf hwf hload s, fun i hi => (hloaded i hi).withHost _ _, congrArg (withHost [] .none) htables⟩

/-! ### What loaded tables hold -/

theorem loadTree_ne_nil (num : Bits → NodeIdx) (T : Tree) : loadTree num T ≠ [] :=
  List.append_ne_nil_of_right_ne_nil _ (List.cons_ne_nil _ _)

/-- A state that holds what the commands of a tree write holds the tree at its root. -/
theorem holdsTree_root_of_loaded {s : State} {num : Bits → NodeIdx} {T : Tree} (h : ∀ i ∈ loadTree num T, Loaded s i) :
    HoldsTree s T s.dec.root ∧ s.dec.root = num [] ∧ s.dec.cursor = num [] := by
  obtain ⟨hnodes, hroot⟩ := List.forall_mem_append.1 h
  obtain ⟨hr, hc⟩ := List.forall_mem_singleton.1 hroot
  exact ⟨hr ▸ holdsTree_of_loaded num hnodes, hr, hc⟩

/-- A state that holds what the commands of a CodeBook write holds its codes. -/
theorem holdsCode_of_loadCodeBook {s : State} {book : List (Symbol × Bits)} (h255 : ∀ p ∈ book, p.2.length ≤ 255)
    (h : ∀ i ∈ loadCodeBook book, Loaded s i) {x : Symbol} {c : Bits} (hx : (x, c) ∈ book) : HoldsCode s x c :=
  holdsCode_of_loaded (h255 _ hx) fun i hi => h i (List.mem_flatMap.2 ⟨_, hx, hi⟩)

/-- The commands of a tree and of its CodeBook, in any order, leave both held, if the leaves are distinct symbols. -/
theorem runCommands_load_tables {num : Bits → NodeIdx} {T : Tree} {load : List Instr} (hnum : (T.positions.map num).Nodup)
    (hleaves : T.leaves.Nodup) (hload : load.Perm (loadTree num T ++ loadCodeBook (codeBook T))) (s : State) :
    ∃ t, runCommands load s = .next t ∧ HoldsTree t T t.dec.root ∧ ∀ x c, (x, c) ∈ codeBook T → HoldsCode t x c := by
  have h255 : ∀ p ∈ codeBook T, p.2.length ≤ 255 := fun p hp => code_length_le_maxLen (symbols_length_le hleaves) hp
  have hplaces : ∀ i ∈ loadTree num T ++ loadCodeBook (codeBook T), placeOf i ≠ none :=
    List.forall_mem_append.2 ⟨(filterMap_placeOf (places_loadTree num T)).2, (filterMap_placeOf (places_loadCodeBook _)).2⟩
  have hnodup := nodup_loadTree_loadCodeBook hnum (by rwa [map_fst_codeBook]) h255
  obtain ⟨t, hrun, hloaded, -⟩ := runCommands_loaded hload (List.append_ne_nil_of_left_ne_nil (loadTree_ne_nil num T) _)
    hplaces hnodup s
  obtain ⟨htree, hbook⟩ := List.forall_mem_append.1 hloaded
  exact ⟨t, hrun, (holdsTree_root_of_loaded htree).1, fun x c hx => holdsCode_of_loadCodeBook h255 hbook hx⟩

/-- Settles O51: the commands write different places, and what they write is the tree (`holdsTree_root_of_loaded`). -/
theorem loadTreeLeavesTheTableHoldingIt : Obligations.LoadTreeLeavesTheTableHoldingIt := by
  intro s num T load hnum hload
  have hplaces := (filterMap_placeOf (places_loadTree num T)).2
  have hwf : ∀ i ∈ load, i.wf = true := fun i hi => wf_of_placeOf (hplaces i (hload.mem_iff.1 hi))
  have hdec : ∀ i ∈ load, isDecoderCommand i = true := fun i hi => isDecoderCommand_loadTree num T i (hload.mem_iff.1 hi)
  obtain ⟨t, hrun, hloaded, htables⟩ := runCommands_loaded hload (loadTree_ne_nil num T) hplaces (nodup_loadTree hnum) s
  obtain ⟨htree, hroot, hcursor⟩ := holdsTree_root_of_loaded hloaded
  refine ⟨t, hrun, htree, hroot, hcursor, runCommands_enc_of_decoder hwf hdec hrun, ?state, ?dout, ?eout⟩
  case state => rw [htables]; rfl
  case dout => rw [htables]; rfl
  case eout => rw [htables]; rfl

end Sys2Proof.Machine
end

section
/-! SUPPORT. The round trip (R207, R261, R262): an encode session, and a decode session that feeds its bits back. -/

open Sys2Proof

namespace Sys2Proof.Machine

/-! ### Feeding a byte sequence (R261) -/

/-- A whole byte, then the rest. -/
theorem FeedsExactly.cons {chunks : List (Nat × BitVec 16)} {n : Nat} {bytes : List Byte} (b : Byte)
    (h : FeedsExactly chunks (n - 8) bytes) (h8 : 8 ≤ n) : FeedsExactly ((8, b ++ 0#8) :: chunks) n (b :: bytes) := by
  obtain ⟨hlen, hsizes, hbits⟩ := h
  refine ⟨by rw [List.length_cons]; omega, List.forall_mem_cons.2 ⟨⟨by simp, by simp⟩, hsizes⟩, ?_⟩
  have hcons : presentedBits ((8, b ++ 0#8) :: chunks) = streamBits 8 (b ++ 0#8) ++ presentedBits chunks := rfl
  have hbyte : (streamBits 8 (b ++ 0#8)).length ≤ n := by rwa [streamBits_length]
  rw [hcons, hbits, bitsOfBytes_cons, List.take_append, streamBits_length, List.take_of_length_le hbyte]

/-- The first bits of one byte, in one command. -/
theorem FeedsExactly.last (b : Byte) (bytes : List Byte) {n : Nat} (h0 : n ≠ 0) (h8 : n < 8) :
    FeedsExactly [(n, b ++ 0#8)] n (b :: bytes) := by
  refine ⟨by rw [List.length_cons]; omega, List.forall_mem_singleton.2 ⟨by omega, by omega⟩, ?_⟩
  have hone : presentedBits [(n, b ++ 0#8)] = streamBits n (b ++ 0#8) := by simp [presentedBits]
  rw [hone, bitsOfBytes_cons, List.take_append_of_le_length (by rw [streamBits_length]; omega), streamBits_take h8.le]

/-- `feedBits` feeds exactly the first bits of a byte sequence. -/
theorem feedBits_exact (bytes : List Byte) : ∀ n, n ≤ 8 * bytes.length →
    ∃ chunks, FeedsExactly chunks n bytes ∧ feedBits n bytes = chunks.map fun c => .decBits c.1 c.2 := by
  have hnone : ∀ bytes, FeedsExactly [] 0 bytes := fun _ => ⟨Nat.zero_le _, by simp, rfl⟩
  induction bytes with
  | nil =>
    intro n hn
    obtain rfl : n = 0 := Nat.le_zero.1 hn
    exact ⟨[], hnone [], rfl⟩
  | cons b bytes ih =>
    intro n hn
    rw [List.length_cons] at hn
    by_cases h0 : n = 0
    · subst h0
      exact ⟨[], hnone _, rfl⟩
    by_cases h8 : 8 ≤ n
    · obtain ⟨chunks, hfeeds, hfeed⟩ := ih (n - 8) (by omega)
      refine ⟨_, hfeeds.cons b h8, ?_⟩
      rw [feedBits, if_neg h0, if_pos h8, hfeed]
      rfl
    · exact ⟨_, .last b bytes h0 (by omega), by rw [feedBits, if_neg h0, if_neg h8]; rfl⟩

/-! ### The encode session -/

/-- `s` after an encode session of `S` (R142), the run's host side cleared. -/
def afterEncoding (s : State) (S : List Symbol) : State :=
  { s with
    pending := [], reply := .none
    eout := s.eout ++ bytesOfBits (encodedBits s S)
    enc := { s.enc with
      state := .done, err := .none, pend := [], bitCnt := BitVec.ofNat 32 (encodedBits s S).length,
      symCnt := BitVec.ofNat 32 S.length } }

theorem runCommands_encodeSession {s : State} {S : List Symbol} (hne : S ≠ []) (hv : ∀ x ∈ S, cbLen s x ≠ 0) :
    runCommands (encodeSession S) s = .next (afterEncoding s S) := by
  obtain ⟨x, hx⟩ := List.exists_mem_of_ne_nil S hne
  rw [runCommands_of_wf wf_of_mem_encodeSession (List.cons_ne_nil _ _), fold_encodeSession hv ⟨x, hv x hx⟩]
  rfl

/-- ENC_BITCNT counts the session's bits where it does not wrap (R53). -/
theorem bitCnt_afterEncoding {s : State} {S : List Symbol} (h : (encodedBits s S).length < 2 ^ 32) :
    (afterEncoding s S).enc.bitCnt.toNat = (encodedBits s S).length :=
  (BitVec.toNat_ofNat _ _).trans (Nat.mod_eq_of_lt h)

theorem drop_eout_afterEncoding (s : State) (S : List Symbol) :
    (afterEncoding s S).eout.drop s.eout.length = bytesOfBits (encodedBits s S) :=
  List.drop_left

theorem sameTables_afterEncoding (s : State) (S : List Symbol) : SameTables s (afterEncoding s S) :=
  ⟨rfl, rfl, rfl, rfl, rfl, rfl⟩

/-! ### Codes of one tree -/

theorem HoldsCode.cbLen_ne_zero {s : State} {x : Symbol} {c : Bits} (h : HoldsCode s x c) (hc : 1 ≤ c.length) :
    cbLen s x ≠ 0 := by
  intro h0
  have hlen : 0 = c.length := by simpa [h0] using h.1
  omega

/-- The codebook holds for each symbol of `S` the code of its leaf in `T`. -/
def HoldsCodesOf (s : State) (T : Tree) (S : List Symbol) : Prop := ∀ x ∈ S, ∃ c, (x, c) ∈ codeBook T ∧ HoldsCode s x c

theorem HoldsCodesOf.valid {s : State} {T : Tree} {S : List Symbol} (h : HoldsCodesOf s T S) : ∀ x ∈ S, cbLen s x ≠ 0 := by
  intro x hx
  obtain ⟨c, hc, hholds⟩ := h x hx
  exact hholds.cbLen_ne_zero (code_length_bounds hc).1

/-- The encoded bits are codes of the tree's leaves, joined. -/
theorem HoldsCodesOf.encodedBits_eq {s : State} {T : Tree} {S : List Symbol} (h : HoldsCodesOf s T S) :
    ∃ L : List (Symbol × Bits), (∀ p ∈ L, p ∈ codeBook T) ∧ L.map Prod.fst = S ∧ encodedBits s S = L.flatMap Prod.snd := by
  refine ⟨S.map fun x => (x, codeString s x (cbLen s x).toNat), ?codes, ?symbols, ?bits⟩
  case codes =>
    intro p hp
    obtain ⟨x, hx, rfl⟩ := List.mem_map.1 hp
    obtain ⟨c, hc, -, hcode⟩ := h x hx
    rwa [hcode]
  case symbols => rw [List.map_map]; exact List.map_id S
  case bits => rw [List.flatMap_map]; rfl

/-! ### The decode session -/

theorem isDecoderCommand_of_mem_feedSession {chunks : List (Nat × BitVec 16)} :
    ∀ i ∈ feedSession chunks, isDecoderCommand i = true := by
  intro i hi
  simp only [feedSession, List.mem_cons, List.mem_append, List.mem_map, List.not_mem_nil, or_false] at hi
  rcases hi with rfl | ⟨c, -, rfl⟩ | rfl <;> rfl

theorem wf_of_mem_feedSession {chunks : List (Nat × BitVec 16)} (h : ∀ c ∈ chunks, 1 ≤ c.1 ∧ c.1 ≤ 16) :
    ∀ i ∈ feedSession chunks, i.wf = true := by
  rw [feedSession, ← List.cons_append, List.forall_mem_append]
  exact ⟨wf_of_mem_feed h, List.forall_mem_singleton.2 rfl⟩

/-- A decode session that presents the codes of `S` decodes `S`, and leaves an encoder in DONE there. -/
theorem feedSession_decodes {s t : State} {T : Tree} {S : List Symbol} (hT : HoldsTree t T t.dec.root)
    (hcodes : HoldsCodesOf s T S) (hdone : t.enc.state = .done) {chunks : List (Nat × BitVec 16)}
    (hsizes : ∀ c ∈ chunks, 1 ≤ c.1 ∧ c.1 ≤ 16) (hbits : presentedBits chunks = encodedBits s S) :
    ∃ u, runCommands (feedSession chunks) t = .next u ∧ u.dout = t.dout ++ S ∧ u.enc.state = .done ∧ u.dec.state = .done := by
  obtain ⟨L, hL, rfl, hcodebits⟩ := hcodes.encodedBits_eq
  obtain ⟨u, hrun, hdout, -, -, hstate, -⟩ := decodeLaw t T L chunks hT hL hsizes (hbits.trans hcodebits)
  have henc := runCommands_enc_of_decoder (wf_of_mem_feedSession hsizes) isDecoderCommand_of_mem_feedSession hrun
  exact ⟨u, hrun, hdout, by rw [henc, hdone], hstate⟩

/-! ### The round trip -/

section

variable {s : State} {T : Tree} {S : List Symbol}

/-- What an encode session emitted, fed back in commands of any sizes, decodes to its symbols. -/
theorem feed_afterEncoding (hT : HoldsTree s T s.dec.root) (hcodes : HoldsCodesOf s T S)
    (hlen : (encodedBits s S).length < 2 ^ 32) {chunks : List (Nat × BitVec 16)}
    (hfeeds : FeedsExactly chunks (afterEncoding s S).enc.bitCnt.toNat ((afterEncoding s S).eout.drop s.eout.length)) :
    ∃ u, runCommands (feedSession chunks) (afterEncoding s S) = .next u ∧
      u.dout = s.dout ++ S ∧ u.enc.state = .done ∧ u.dec.state = .done := by
  obtain ⟨-, hsizes, hbits⟩ := hfeeds
  rw [bitCnt_afterEncoding hlen, drop_eout_afterEncoding, bitsOfBytes_bytesOfBits _ _ le_rfl] at hbits
  exact feedSession_decodes (hT.congr (sameTables_afterEncoding s S)) hcodes rfl hsizes hbits

/-- `feedBits` is a way to feed it back. -/
theorem feedBits_afterEncoding (hlen : (encodedBits s S).length < 2 ^ 32) :
    ∃ chunks, FeedsExactly chunks (afterEncoding s S).enc.bitCnt.toNat ((afterEncoding s S).eout.drop s.eout.length) ∧
      feedBits (afterEncoding s S).enc.bitCnt.toNat ((afterEncoding s S).eout.drop s.eout.length) =
        chunks.map fun c => .decBits c.1 c.2 := by
  have hbytes : (bytesOfBits (encodedBits s S)).length = ((encodedBits s S).length + 7) / 8 := by simp [bytesOfBits]
  refine feedBits_exact _ _ ?_
  rw [bitCnt_afterEncoding hlen, drop_eout_afterEncoding, hbytes]
  omega

end

/-- Settles O57: the bits the encode session packed are codes of the tree, which the decode session decodes. -/
theorem roundTripOfConsistentTables : Obligations.RoundTripOfConsistentTables := by
  intro s T S hne hT hcodes hlen
  obtain ⟨chunks, hfeeds, hfeed⟩ := feedBits_afterEncoding hlen
  refine ⟨_, runCommands_encodeSession hne (HoldsCodesOf.valid hcodes),
    fun _ h => feed_afterEncoding hT hcodes hlen h, ?_⟩
  rw [decodeSession, hfeed]
  exact feed_afterEncoding hT hcodes hlen hfeeds

/-! ### The tables of a frequency table (R201) -/

section

variable {S : List Symbol} {table : List (Symbol × Nat)} (h : IsFrequencyTable S table)
include h

theorem IsFrequencyTable.mem_symbols {x : Symbol} (hx : x ∈ S) : x ∈ table.map Prod.fst :=
  List.mem_map.2 ⟨(x, S.count x), (h.2 x _).2 ⟨rfl, List.count_pos_iff.2 hx⟩, rfl⟩

/-- The tree of a frequency table has each symbol of the sequence at exactly one leaf. -/
theorem IsFrequencyTable.exists_tree (tie : TieBreak) (hne : S ≠ []) :
    ∃ T, build tie table = .ok T ∧ T.leaves.Nodup ∧ ∀ x ∈ S, x ∈ T.leaves := by
  obtain ⟨x, hx⟩ := List.exists_mem_of_ne_nil S hne
  have htable : table ≠ [] := fun hnil => List.not_mem_nil (hnil ▸ h.mem_symbols hx)
  obtain ⟨T, hT, hleaves⟩ := build_leaves tie htable
  exact ⟨T, hT, hleaves.nodup_iff.2 h.1, fun x hx => hleaves.mem_iff.2 (h.mem_symbols hx)⟩

end

/-- Settles O58: loading the tables leaves them consistent, and consistent tables make the round trip. -/
theorem huffmanRoundTrip : Obligations.HuffmanRoundTrip := by
  intro s S table tie hne htable
  obtain ⟨T, hT, hnodup, hleaves⟩ := htable.exists_tree tie hne
  refine ⟨T, hT, fun num load hnum hload => ?_⟩
  obtain ⟨s1, hrun, htree, hbook⟩ := runCommands_load_tables hnum hnodup hload s
  have hcodes : HoldsCodesOf s1 T S := fun x hx => by
    obtain ⟨c, hc⟩ := exists_code_of_mem_leaves (hleaves x hx)
    exact ⟨c, hc, hbook x c hc⟩
  refine ⟨s1, hrun, fun hlen => ⟨_, runCommands_encodeSession hne hcodes.valid, ?feedable,
    fun _ h => feed_afterEncoding htree hcodes hlen h⟩⟩
  obtain ⟨chunks, hfeeds, -⟩ := feedBits_afterEncoding hlen
  exact ⟨chunks, hfeeds⟩

end Sys2Proof.Machine
end

section
/-! SUPPORT. The ERR states of the engines (R230, R232): an engine in ERR ignores its data commands, and the other commands
reach no more of it than its tables and the decoder's pointers, its START and a reset apart. -/

open Sys2Proof

namespace Sys2Proof.Machine

section

variable {s : State} (h : s.enc.state = .err)
include h

/-- An encoder in ERR ignores its data commands (R132). -/
theorem effect_encSym_of_err (x : Symbol) : effect (.encSym x) s = s := by
  rw [effect_encSym_gate, encGate_of_err h]

theorem effect_encFlush_of_err : effect .encFlush s = s := by
  rw [effect_encFlush_gate, encGate_of_err h]

/-- In ERR only the codebook of the encoder can still change, and EOUT does not grow. -/
theorem effect_enc_of_err {i : Instr} (hs : i ≠ .encStart) (hr : i ≠ .ctlSrst) :
    (effect i s).enc = { s.enc with len := (effect i s).enc.len, code := (effect i s).enc.code } ∧
      (effect i s).eout = s.eout := by
  cases i
  case encStart | ctlSrst => contradiction
  case encSym x => rw [effect_encSym_of_err h]; exact ⟨rfl, rfl⟩
  case encFlush => rw [effect_encFlush_of_err h]; exact ⟨rfl, rfl⟩
  case ctlNop | ctlClrill | encClr | encLdcode | encSetlen => exact ⟨rfl, rfl⟩
  all_goals rw [effect_frame_of_decoder rfl s]; exact ⟨rfl, rfl⟩

end

section

variable {s : State} (h : s.dec.state = .err)
include h

/-- A decoder in ERR ignores its data commands (R169). -/
theorem effect_decBits_of_err (n : Nat) (d : BitVec 16) : effect (.decBits n d) s = s := by
  rw [effect_decBits_gate, decGate_of_err h]

theorem effect_decEnd_of_err : effect .decEnd s = s := by
  rw [effect_decEnd_gate, decGate_of_err h]

/-- In ERR only the node table and the pointers of the decoder can still change, and DOUT does not grow. -/
theorem effect_dec_of_err {i : Instr} (hs : i ≠ .decStart) (hr : i ≠ .ctlSrst) :
    (effect i s).dec = { s.dec with
        cursor := (effect i s).dec.cursor, root := (effect i s).dec.root, kind := (effect i s).dec.kind,
        left := (effect i s).dec.left, right := (effect i s).dec.right, sym := (effect i s).dec.sym } ∧
      (effect i s).dout = s.dout := by
  cases i
  case decStart | ctlSrst => contradiction
  case decBits n d => rw [effect_decBits_of_err h]; exact ⟨rfl, rfl⟩
  case decEnd => rw [effect_decEnd_of_err h]; exact ⟨rfl, rfl⟩
  case ctlNop | ctlClrill | decClr | decLdint | decLdleaf | decSetroot => exact ⟨rfl, rfl⟩
  all_goals rw [effect_frame_of_encoder rfl s]; exact ⟨rfl, rfl⟩

end

/-- Settles O40: what can still change in ERR is neither the state and the error, nor the counters, the packer or the
stream. -/
theorem firstEngineErrorIsKept : Obligations.FirstEngineErrorIsKept := by
  intro i s t ht
  obtain rfl := effect_of_exec ht
  refine ⟨fun he hs hr => ?_, fun hd hs hr => ?_⟩
  · obtain ⟨henc, heout⟩ := effect_enc_of_err he hs hr
    rw [henc]
    exact ⟨he, rfl, rfl, rfl, rfl, heout⟩
  · obtain ⟨hdec, hdout⟩ := effect_dec_of_err hd hs hr
    rw [hdec]
    exact ⟨hd, rfl, rfl, rfl, hdout⟩

end Sys2Proof.Machine
end

section
/-! SUPPORT. Hardware reset as one step of the host (R250, R251), and the stream that `feedBits` feeds back (R261). -/

open Sys2Proof

namespace Sys2Proof.Machine

/-- Hardware reset keeps of a state the host's side, the queue and the reply, and counts one more epoch (logs 1, 3, 5). -/
theorem hardReset_eq (s : State) :
    hardReset s = { State.reset with epoch := s.epoch + 1, pending := s.pending, reply := s.reply } := rfl

/-- A hardware reset is admitted in every state. -/
theorem step_hardwareReset {s : State} {rest : List HostAction} (hp : s.pending = .hardwareReset :: rest) :
    step s = .next (hardReset { s with pending := rest, reply := .none }) := by
  simp only [step, performNext, hp, performAction]

/-- Settles O16: the step is `hardReset`, which keeps only the queue, the reply, cleared before the access, and the epoch. -/
theorem hardwareResetResets : Obligations.HardwareResetResets :=
  fun _ _ hp => ⟨_, step_hardwareReset hp, hardReset_eq _⟩

/-- Settles O56, by induction on the bytes (`feedBits_exact`): a whole byte while 8 bits are left, then the rest in one
command. -/
theorem feedBitsFeedsExactly : Obligations.FeedBitsFeedsExactly :=
  fun n bytes => feedBits_exact bytes n

end Sys2Proof.Machine
end
